-- ==== Sys2Proof/Word.lean ====
section
/-! DEFINITION. The word types of the machine (00_scope.md R5, R6; 10_state.md R10, R13, R16): bit 0 is the least
significant bit of any value. -/

namespace Sys2Proof

/-- A byte of memory or of an instruction (R6: "A byte is 8 bits"). -/
abbrev Byte := BitVec 8

/-- A 64-bit value: a linear address, a general register, an element of a vector (R5, R16, R30). -/
abbrev Word := BitVec 64

/-- A whole vector register: `MAXVL` = 512 bits (R5, R10). -/
abbrev ZWord := BitVec 512

/-- An opmask register: 64 bits (R13). -/
abbrev KWord := BitVec 64

end Sys2Proof
end

