-- ==== Sys2Proof/Config.lean ====
section
/-! DEFINITION. Constants of the machine (00_scope.md R5) and the two power-up values that the spec leaves to the part.
The spec leaves no result open (93_implementation_defined.md: "There is no `stuck` and no `any value` treatment anywhere
in the spec"), so there is no free value here. What R5 calls an argument (`Access`, `Env`, `IMM8_HI_POLICY`,
`FAULT_SUPPRESSION`, `END`) is plain data of the state, so that every claim quantifies over it. -/

namespace Sys2Proof.Config

/-- `MAXVL`, the width of a full vector register in bits (R5). -/
def maxVL : Nat := 512

/-- The most bytes an instruction may have (R69: "An x86 instruction longer than 15 bytes raises `#GP(0)`"). -/
def maxInstrBytes : Nat := 15

/-- What RDX holds at power-up. R24: "RDX holds a processor signature"; the value is not given. PRESUMED, unsafe: the
signature of the one processor the spec names (95_test_vectors.md T6: family 6, model 207, stepping 2), in the family's
signature layout (log 2). -/
def rdxSignature : Word := 0x00000000000C06F2#64

/-- The three CPUID feature bits at power-up. R20: "fixed by the part". DESIGN CHOICE, unsafe: the part has the
instruction (log 3). -/
def cpuidAtReset : Bool := true

/-- MXCSR at power-up: "The power-up value of the whole register is `0x00001F80`" (R14). -/
def mxcsrAtReset : BitVec 32 := 0x00001F80#32

/-- RIP at power-up (R24). -/
def pcAtReset : Word := 0x000000000000FFF0#64

end Sys2Proof.Config
end

