-- ==== Sys2Proof/Syntax.lean ====
section
/-! DEFINITION. The instruction VRANGEPD as syntax: one constructor per row of opcode_table.json (30_encoding.md R73),
register numbers and address forms decoded (R57 to R66). -/

namespace Sys2Proof

/-- A vector register number, 0 to 31 (R10, R57 to R59). -/
abbrev VReg := Fin 32

/-- An opmask register number, 0 to 7 (R13). -/
abbrev KReg := Fin 8

/-- A general register number, 0 to 15: RAX RCX RDX RBX RSP RBP RSI RDI R8 to R15 (R16). -/
abbrev GReg := Fin 16

/-- The segment-override prefixes R70 admits. `es`, `cs`, `ss`, `ds` have no effect in 64-bit mode (R64, R70). -/
inductive SegPrefix where
  | es | cs | ss | ds | fs | gs
deriving DecidableEq, Repr

/-- The legacy prefixes R70 admits before the EVEX byte: at most one segment override and at most one `67h`. -/
structure Prefixes where
  seg    : Option SegPrefix
  addr32 : Bool
deriving DecidableEq, Repr

/-- The writemask fields (R66): `aaa` names the opmask register, 0 meaning no writemask; `z` is zeroing-masking. -/
structure Writemask where
  aaa : KReg
  z   : Bool
deriving DecidableEq, Repr

/-- The index part of a SIB byte: register and `scale` (R60). Number 4 means "no index" and is not an index. -/
structure Index where
  reg   : GReg
  scale : BitVec 2
deriving DecidableEq, Repr

/-- The address forms with `mod = 00b` (R60, R62, R69). -/
inductive Addr00 where
  /-- `[reg]` -/
  | base (b : GReg)
  /-- `[RIP + disp32]` -/
  | rip (disp : BitVec 32)
  /-- `[base + index*s]` -/
  | sib (b : GReg) (i : Option Index)
  /-- `[index*s + disp32]` -/
  | sibNoBase (i : Option Index) (disp : BitVec 32)
deriving DecidableEq, Repr

/-- The address forms with a displacement of `w` bits: `mod = 01b` (`w = 8`) and `mod = 10b` (`w = 32`) (R60, R69). -/
inductive AddrDisp (w : Nat) where
  /-- `[reg + disp]` -/
  | base (b : GReg) (disp : BitVec w)
  /-- `[base + index*s + disp]` -/
  | sib (b : GReg) (i : Option Index) (disp : BitVec w)
deriving DecidableEq, Repr

/-- The vector lengths `VL` (R56). -/
inductive VLen where
  | v128 | v256 | v512
deriving DecidableEq, Repr

/-- One constructor per row of opcode_table.json, in the table's order. `xmm`, `ymm`, `zmm` are the 128-, 256- and
512-bit forms; `Reg` has a register as operand 3, `Mem` a full-width memory operand, `Bcst` a 64-bit broadcast element,
each followed by the `mod` bits of its row; `zmmSae` is the 512-bit register form with `{sae}`. Arguments: prefixes,
destination (operand 1), first source (operand 2), operand 3, writemask, imm8. -/
inductive Instr where
  | xmmReg    (p : Prefixes) (d a b : VReg) (m : Writemask) (imm : Byte)
  | xmmMem00  (p : Prefixes) (d a : VReg) (ad : Addr00) (m : Writemask) (imm : Byte)
  | xmmMem01  (p : Prefixes) (d a : VReg) (ad : AddrDisp 8) (m : Writemask) (imm : Byte)
  | xmmMem10  (p : Prefixes) (d a : VReg) (ad : AddrDisp 32) (m : Writemask) (imm : Byte)
  | xmmBcst00 (p : Prefixes) (d a : VReg) (ad : Addr00) (m : Writemask) (imm : Byte)
  | xmmBcst01 (p : Prefixes) (d a : VReg) (ad : AddrDisp 8) (m : Writemask) (imm : Byte)
  | xmmBcst10 (p : Prefixes) (d a : VReg) (ad : AddrDisp 32) (m : Writemask) (imm : Byte)
  | ymmReg    (p : Prefixes) (d a b : VReg) (m : Writemask) (imm : Byte)
  | ymmMem00  (p : Prefixes) (d a : VReg) (ad : Addr00) (m : Writemask) (imm : Byte)
  | ymmMem01  (p : Prefixes) (d a : VReg) (ad : AddrDisp 8) (m : Writemask) (imm : Byte)
  | ymmMem10  (p : Prefixes) (d a : VReg) (ad : AddrDisp 32) (m : Writemask) (imm : Byte)
  | ymmBcst00 (p : Prefixes) (d a : VReg) (ad : Addr00) (m : Writemask) (imm : Byte)
  | ymmBcst01 (p : Prefixes) (d a : VReg) (ad : AddrDisp 8) (m : Writemask) (imm : Byte)
  | ymmBcst10 (p : Prefixes) (d a : VReg) (ad : AddrDisp 32) (m : Writemask) (imm : Byte)
  | zmmReg    (p : Prefixes) (d a b : VReg) (m : Writemask) (imm : Byte)
  | zmmMem00  (p : Prefixes) (d a : VReg) (ad : Addr00) (m : Writemask) (imm : Byte)
  | zmmMem01  (p : Prefixes) (d a : VReg) (ad : AddrDisp 8) (m : Writemask) (imm : Byte)
  | zmmMem10  (p : Prefixes) (d a : VReg) (ad : AddrDisp 32) (m : Writemask) (imm : Byte)
  | zmmBcst00 (p : Prefixes) (d a : VReg) (ad : Addr00) (m : Writemask) (imm : Byte)
  | zmmBcst01 (p : Prefixes) (d a : VReg) (ad : AddrDisp 8) (m : Writemask) (imm : Byte)
  | zmmBcst10 (p : Prefixes) (d a : VReg) (ad : AddrDisp 32) (m : Writemask) (imm : Byte)
  | zmmSae    (p : Prefixes) (d a b : VReg) (m : Writemask) (imm : Byte)
deriving DecidableEq, Repr

end Sys2Proof
end

