-- ==== Sys2Proof/WellFormed.lean ====
section
/-! DEFINITION. Which terms of the syntax some valid VRANGEPD encoding stands for (30_encoding.md R60, R66, R71). -/

namespace Sys2Proof

/-- R71: "`z = 1` and `aaa = 000b`" is invalid: "zeroing needs a writemask". -/
def Writemask.wellFormed (m : Writemask) : Bool := !(m.z && m.aaa == 0)

/-- R60: index number 0100b means "no index" (RSP cannot be an index). -/
def Index.wellFormed (i : Index) : Bool := i.reg != 4

/-- An absent index is always well-formed. -/
def indexWellFormed : Option Index → Bool
  | none => true
  | some i => i.wellFormed

/-- The low three bits of a general register number: what the ModRM.rm or SIB base field holds (R60). -/
def GReg.low3 (g : GReg) : Nat := g.val % 8

/-- R60, R69: with `mod = 00b`, `rm = 100b` announces a SIB byte and `rm = 101b` the RIP-relative form; a SIB base field
101b means no base. -/
def Addr00.wellFormed : Addr00 → Bool
  | .base b => GReg.low3 b != 4 && GReg.low3 b != 5
  | .rip _ => true
  | .sib b i => GReg.low3 b != 5 && indexWellFormed i
  | .sibNoBase i _ => indexWellFormed i

/-- R60, R69: with `mod` 01b or 10b, `rm = 100b` announces a SIB byte. -/
def AddrDisp.wellFormed {w : Nat} : AddrDisp w → Bool
  | .base b _ => GReg.low3 b != 4
  | .sib _ i _ => indexWellFormed i

/-- Some valid encoding stands for the term. Every prefix combination, register number and imm8 is admitted (R113:
"all 32 values of `dest`, `src1` and `rm` and all 8 values of `aaa` are legal"; imm8[7:4] is R68's, not an encoding
matter). -/
def Instr.wellFormed : Instr → Bool
  | .xmmReg _ _ _ _ m _ => m.wellFormed
  | .xmmMem00 _ _ _ ad m _ => ad.wellFormed && m.wellFormed
  | .xmmMem01 _ _ _ ad m _ => ad.wellFormed && m.wellFormed
  | .xmmMem10 _ _ _ ad m _ => ad.wellFormed && m.wellFormed
  | .xmmBcst00 _ _ _ ad m _ => ad.wellFormed && m.wellFormed
  | .xmmBcst01 _ _ _ ad m _ => ad.wellFormed && m.wellFormed
  | .xmmBcst10 _ _ _ ad m _ => ad.wellFormed && m.wellFormed
  | .ymmReg _ _ _ _ m _ => m.wellFormed
  | .ymmMem00 _ _ _ ad m _ => ad.wellFormed && m.wellFormed
  | .ymmMem01 _ _ _ ad m _ => ad.wellFormed && m.wellFormed
  | .ymmMem10 _ _ _ ad m _ => ad.wellFormed && m.wellFormed
  | .ymmBcst00 _ _ _ ad m _ => ad.wellFormed && m.wellFormed
  | .ymmBcst01 _ _ _ ad m _ => ad.wellFormed && m.wellFormed
  | .ymmBcst10 _ _ _ ad m _ => ad.wellFormed && m.wellFormed
  | .zmmReg _ _ _ _ m _ => m.wellFormed
  | .zmmMem00 _ _ _ ad m _ => ad.wellFormed && m.wellFormed
  | .zmmMem01 _ _ _ ad m _ => ad.wellFormed && m.wellFormed
  | .zmmMem10 _ _ _ ad m _ => ad.wellFormed && m.wellFormed
  | .zmmBcst00 _ _ _ ad m _ => ad.wellFormed && m.wellFormed
  | .zmmBcst01 _ _ _ ad m _ => ad.wellFormed && m.wellFormed
  | .zmmBcst10 _ _ _ ad m _ => ad.wellFormed && m.wellFormed
  | .zmmSae _ _ _ _ m _ => m.wellFormed

end Sys2Proof
end

