-- ==== Sys2Proof/Decode.lean ====
section
/-! DEFINITION. From bytes to instructions and back (30_encoding.md R50 to R73). The decoder is total on any list of bytes
and says by name why it rejects one; the encoder after it writes the bytes of a well-formed instruction from the same
tables. Bytes are in increasing address order (R31, R50). -/

namespace Sys2Proof

/-! ## Bit fields -/

/-- A vector register number from its bits: `hi : mid : low` (R57: `R' : R : ModRM.reg`; R59: `X : B : ModRM.rm`). -/
def vregOf (hi mid : Bool) (low : BitVec 3) : VReg :=
  (BitVec.ofBool hi ++ BitVec.ofBool mid ++ low : BitVec 5).toFin

/-- The number of the first source: `V' : vvvv` (R58). -/
def vregOfV (hi : Bool) (vvvv : BitVec 4) : VReg :=
  (BitVec.ofBool hi ++ vvvv : BitVec 5).toFin

/-- A general register number: `B : rm`, `B : SIB[2:0]` or `X : SIB[5:3]` (R60). -/
def gregOf (hi : Bool) (low : BitVec 3) : GReg :=
  (BitVec.ofBool hi ++ low : BitVec 4).toFin

/-- The five bits of a vector register number. -/
def VReg.bits (r : VReg) : BitVec 5 := BitVec.ofFin r

/-- The four bits of a general register number. -/
def GReg.bits (g : GReg) : BitVec 4 := BitVec.ofFin g

/-- The logical fields of the EVEX payload bytes, with `R`, `X`, `B`, `R'`, `vvvv`, `V'` un-inverted (R52 to R54). -/
structure EvexFields where
  rr   : Bool        -- R'
  r    : Bool
  x    : Bool
  b    : Bool
  vvvv : BitVec 4
  z    : Bool
  ll   : BitVec 2
  bc   : Bool        -- EVEX.b
  vv   : Bool        -- V'
  aaa  : BitVec 3
deriving DecidableEq, Repr

/-- The fields of payload bytes P0, P1, P2 (R52, R53, R54). -/
def fieldsOf (p0 p1 p2 : Byte) : EvexFields where
  rr := !p0.getLsbD 4
  r := !p0.getLsbD 7
  x := !p0.getLsbD 6
  b := !p0.getLsbD 5
  vvvv := ~~~(p1.extractLsb' 3 4)
  z := p2.getLsbD 7
  ll := p2.extractLsb' 5 2
  bc := p2.getLsbD 4
  vv := !p2.getLsbD 3
  aaa := p2.extractLsb' 0 3

/-- Payload byte P0 = `R~ X~ B~ R'~ 0 0 1 1` (R52, `mm = 11b`). -/
def p0Byte (f : EvexFields) : Byte :=
  BitVec.ofBool (!f.r) ++ BitVec.ofBool (!f.x) ++ BitVec.ofBool (!f.b) ++ BitVec.ofBool (!f.rr) ++ 0b0011#4

/-- Payload byte P1 = `1 v~v~v~v~ 1 0 1` (R53, `W = 1`, `pp = 01b`). -/
def p1Byte (f : EvexFields) : Byte := 0b1#1 ++ ~~~f.vvvv ++ 0b101#3

/-- Payload byte P2 = `z L' L b V'~ a a a` (R54). -/
def p2Byte (f : EvexFields) : Byte :=
  BitVec.ofBool f.z ++ f.ll ++ BitVec.ofBool f.bc ++ BitVec.ofBool (!f.vv) ++ f.aaa

/-- R52, R55: `P0 AND 0Fh = 03h`. -/
def p0Ok (p0 : Byte) : Bool := p0 &&& 0x0F#8 == 0x03#8

/-- R53, R55: `P1 AND 87h = 85h`. -/
def p1Ok (p1 : Byte) : Bool := p1 &&& 0x87#8 == 0x85#8

/-- The vector length that `L'L` selects; 11b is reserved (R56). -/
def vlenOf (ll : BitVec 2) : Option VLen :=
  if ll = 0b00#2 then some .v128
  else if ll = 0b01#2 then some .v256
  else if ll = 0b10#2 then some .v512
  else none

/-- The `L'L` bits of a vector length (R56). -/
def VLen.ll : VLen → BitVec 2
  | .v128 => 0b00#2
  | .v256 => 0b01#2
  | .v512 => 0b10#2

/-! ## Legacy prefixes (R70) -/

/-- What a byte is when it stands where a legacy prefix may stand (R70). -/
inductive PrefixClass where
  | addr32
  | seg (s : SegPrefix)
  /-- LOCK, 66h, F2h, F3h: `#UD` before an EVEX byte. -/
  | illegal
  /-- 40h to 4Fh: `#UD` when immediately before the EVEX byte. -/
  | rex
  | other
deriving DecidableEq, Repr

/-- The table of R70. -/
def prefixClass (x : Byte) : PrefixClass :=
  if x = 0x67#8 then .addr32
  else if x = 0x26#8 then .seg .es
  else if x = 0x2E#8 then .seg .cs
  else if x = 0x36#8 then .seg .ss
  else if x = 0x3E#8 then .seg .ds
  else if x = 0x64#8 then .seg .fs
  else if x = 0x65#8 then .seg .gs
  else if x = 0xF0#8 then .illegal
  else if x = 0x66#8 then .illegal
  else if x = 0xF2#8 then .illegal
  else if x = 0xF3#8 then .illegal
  else if x.extractLsb' 4 4 = 0x4#4 then .rex
  else .other

/-- The byte of a segment-override prefix (R70). -/
def SegPrefix.byte : SegPrefix → Byte
  | .es => 0x26#8
  | .cs => 0x2E#8
  | .ss => 0x36#8
  | .ds => 0x3E#8
  | .fs => 0x64#8
  | .gs => 0x65#8

/-- The prefix bytes of an instruction. R70 admits either order; the encoder writes the segment override first. -/
def Prefixes.bytes (p : Prefixes) : List Byte :=
  (match p.seg with
    | none => []
    | some sg => [sg.byte]) ++
  (if p.addr32 then [0x67#8] else [])

/-- Why a VRANGEPD candidate is invalid: each raises `#UD` (R70, R71). -/
inductive Invalid where
  /-- "an illegal prefix of rule R70" -/
  | illegalPrefix
  /-- "`L'L = 11b` and not (`mod = 11b` and `b = 1`)" -/
  | reservedLength
  /-- "`z = 1` and `aaa = 000b`" -/
  | zeroingWithoutMask
deriving DecidableEq, Repr

/-- What the decoder reads from a list of bytes. `seen` is how many bytes it looked at before it could answer (log 19). -/
inductive Decoded where
  /-- A valid VRANGEPD, and the bytes after it. -/
  | ok (i : Instr) (rest : List Byte)
  /-- An invalid VRANGEPD candidate (R71), its imm8, and the bytes after it. -/
  | invalid (why : Invalid) (imm : Byte) (rest : List Byte)
  /-- Not a VRANGEPD candidate (R55, R72). -/
  | notVrangepd (seen : Nat)
  /-- More legacy prefixes than R70 admits. The count comes before the candidate test, so that this is also the answer where
  no EVEX byte follows: DESIGN CHOICE (log 15). -/
  | repeatedPrefix (seen : Nat)
  /-- The list ends inside the instruction, which needs this many bytes: its length (R69) once ModRM determines it, or, with
  `mod = 00b` and `rm = 100b`, the SIB byte does; one byte more than the list has before that (log 19). -/
  | truncated (need : Nat)
deriving DecidableEq, Repr

/-- What the scan of the legacy prefixes has met so far. -/
structure PrefixScan where
  pre     : Prefixes
  illegal : Bool
deriving DecidableEq, Repr

/-- The start of a scan: no prefix met. -/
def PrefixScan.start : PrefixScan := ⟨⟨none, false⟩, false⟩

/-! ## ModRM, SIB and displacement (R59 to R62) -/

/-- Operand 3 as the ModRM byte and what follows it name it. -/
inductive RM where
  | reg (r : VReg)
  | m00 (ad : Addr00)
  | m01 (ad : AddrDisp 8)
  | m10 (ad : AddrDisp 32)
deriving DecidableEq, Repr

/-- A 32-bit displacement, "least significant byte first" (R60). -/
def takeDisp32 : List Byte → Option (BitVec 32 × List Byte)
  | b0 :: b1 :: b2 :: b3 :: r => some (b3 ++ b2 ++ b1 ++ b0, r)
  | _ => none

/-- The four bytes of a 32-bit displacement, least significant first (R60). -/
def disp32Bytes (d : BitVec 32) : List Byte :=
  [d.extractLsb' 0 8, d.extractLsb' 8 8, d.extractLsb' 16 8, d.extractLsb' 24 8]

/-- The index a SIB byte names: none when `X : SIB[5:3]` is 0100b (R60). -/
def sibIndex (x : Bool) (sib : Byte) : Option Index :=
  let n := gregOf x (sib.extractLsb' 3 3)
  if n = 4 then none else some ⟨n, sib.extractLsb' 6 2⟩

/-- The address forms with a SIB byte (R60, R69). -/
def decodeSib (x b : Bool) (mod : BitVec 2) (sib : Byte) (bs : List Byte) : Option (RM × List Byte) :=
  let i := sibIndex x sib
  let base := gregOf b (sib.extractLsb' 0 3)
  if mod = 0b00#2 then
    if sib.extractLsb' 0 3 = 0b101#3 then
      match takeDisp32 bs with
      | none => none
      | some (d, r) => some (.m00 (.sibNoBase i d), r)
    else some (.m00 (.sib base i), bs)
  else if mod = 0b01#2 then
    match bs with
    | [] => none
    | d :: r => some (.m01 (.sib base i d), r)
  else
    match takeDisp32 bs with
    | none => none
    | some (d, r) => some (.m10 (.sib base i d), r)

/-- Operand 3 from `X`, `B`, `mod`, `rm` and the bytes after ModRM (R59, R60, R62, R69); none when the bytes end. -/
def decodeRM (x b : Bool) (mod : BitVec 2) (rm : BitVec 3) (bs : List Byte) : Option (RM × List Byte) :=
  if mod = 0b11#2 then some (.reg (vregOf x b rm), bs)
  else if rm = 0b100#3 then
    match bs with
    | [] => none
    | sib :: r => decodeSib x b mod sib r
  else if mod = 0b00#2 then
    if rm = 0b101#3 then
      match takeDisp32 bs with
      | none => none
      | some (d, r) => some (.m00 (.rip d), r)
    else some (.m00 (.base (gregOf b rm)), bs)
  else if mod = 0b01#2 then
    match bs with
    | [] => none
    | d :: r => some (.m01 (.base (gregOf b rm) d), r)
  else
    match takeDisp32 bs with
    | none => none
    | some (d, r) => some (.m10 (.base (gregOf b rm) d), r)

/-- `s + d` of R69 from ModRM and the bytes after it. ModRM alone determines it in every row of the table but two: with
`mod = 00b` and `rm = 100b` it depends on the SIB base field, and there is none while the SIB byte is not there. -/
def tailLength (mod : BitVec 2) (rm : BitVec 3) (bs : List Byte) : Option Nat :=
  if mod = 0b11#2 then some 0
  else if mod = 0b10#2 then some (if rm = 0b100#3 then 5 else 4)
  else if mod = 0b01#2 then some (if rm = 0b100#3 then 2 else 1)
  else if rm = 0b100#3 then
    match bs with
    | [] => none
    | sib :: _ => some (if sib.extractLsb' 0 3 = 0b101#3 then 5 else 1)
  else some (if rm = 0b101#3 then 4 else 0)

/-- How many bytes a candidate needs that ends after `n` prefix bytes, the EVEX prefix, the opcode, ModRM and `bs`: `len`
where R69 determines it, else as far as the SIB byte (log 19). -/
def neededBytes (n : Nat) (mod : BitVec 2) (rm : BitVec 3) (bs : List Byte) : Nat :=
  match tailLength mod rm bs with
  | some extra => n + 7 + extra
  | none => n + 7

/-! ## The decoder -/

/-- The row of the opcode table that `L'L`, `EVEX.b` and operand 3 select (R56, R65, R73); none for the reserved length. -/
def instrOf (ll : BitVec 2) (bc : Bool) (rm : RM) (p : Prefixes) (d a : VReg) (m : Writemask) (imm : Byte) :
    Option Instr :=
  match rm, bc, vlenOf ll with
  | .reg r, true, _ => some (.zmmSae p d a r m imm)
  | .reg r, false, some .v128 => some (.xmmReg p d a r m imm)
  | .reg r, false, some .v256 => some (.ymmReg p d a r m imm)
  | .reg r, false, some .v512 => some (.zmmReg p d a r m imm)
  | .m00 ad, false, some .v128 => some (.xmmMem00 p d a ad m imm)
  | .m00 ad, false, some .v256 => some (.ymmMem00 p d a ad m imm)
  | .m00 ad, false, some .v512 => some (.zmmMem00 p d a ad m imm)
  | .m01 ad, false, some .v128 => some (.xmmMem01 p d a ad m imm)
  | .m01 ad, false, some .v256 => some (.ymmMem01 p d a ad m imm)
  | .m01 ad, false, some .v512 => some (.zmmMem01 p d a ad m imm)
  | .m10 ad, false, some .v128 => some (.xmmMem10 p d a ad m imm)
  | .m10 ad, false, some .v256 => some (.ymmMem10 p d a ad m imm)
  | .m10 ad, false, some .v512 => some (.zmmMem10 p d a ad m imm)
  | .m00 ad, true, some .v128 => some (.xmmBcst00 p d a ad m imm)
  | .m00 ad, true, some .v256 => some (.ymmBcst00 p d a ad m imm)
  | .m00 ad, true, some .v512 => some (.zmmBcst00 p d a ad m imm)
  | .m01 ad, true, some .v128 => some (.xmmBcst01 p d a ad m imm)
  | .m01 ad, true, some .v256 => some (.ymmBcst01 p d a ad m imm)
  | .m01 ad, true, some .v512 => some (.zmmBcst01 p d a ad m imm)
  | .m10 ad, true, some .v128 => some (.xmmBcst10 p d a ad m imm)
  | .m10 ad, true, some .v256 => some (.ymmBcst10 p d a ad m imm)
  | .m10 ad, true, some .v512 => some (.zmmBcst10 p d a ad m imm)
  | .reg _, false, none => none
  | .m00 _, _, none => none
  | .m01 _, _, none => none
  | .m10 _, _, none => none

/-- A complete candidate, checked for validity (R71) and turned into an instruction (R56 to R68). -/
def classify (st : PrefixScan) (f : EvexFields) (reg : BitVec 3) (rm : RM) (imm : Byte) (rest : List Byte) : Decoded :=
  if st.illegal then .invalid .illegalPrefix imm rest
  else if f.z && f.aaa == 0#3 then .invalid .zeroingWithoutMask imm rest
  else
    match instrOf f.ll f.bc rm st.pre (vregOf f.rr f.r reg) (vregOfV f.vv f.vvvv) ⟨f.aaa.toFin, f.z⟩ imm with
    | some i => .ok i rest
    | none => .invalid .reservedLength imm rest

/-- ModRM and what follows it, after `n` prefix bytes and the five bytes of the candidate test (R50). -/
def decodeModRM (st : PrefixScan) (n : Nat) (f : EvexFields) (modrm : Byte) (bs : List Byte) : Decoded :=
  match decodeRM f.x f.b (modrm.extractLsb' 6 2) (modrm.extractLsb' 0 3) bs with
  | none => .truncated (neededBytes n (modrm.extractLsb' 6 2) (modrm.extractLsb' 0 3) bs)
  | some (rm, bs') =>
    match bs' with
    | [] => .truncated (neededBytes n (modrm.extractLsb' 6 2) (modrm.extractLsb' 0 3) bs)
    | imm :: rest => classify st f (modrm.extractLsb' 3 3) rm imm rest

/-- The EVEX byte, the payload, the opcode byte (the candidate test of R55, byte by byte) and the rest; `n` bytes stand
before. -/
def decodeEvex (st : PrefixScan) (n : Nat) (bs : List Byte) : Decoded :=
  match bs with
  | [] => .truncated (n + 1)
  | e :: bs =>
    if e ≠ 0x62#8 then .notVrangepd (n + 1)
    else match bs with
    | [] => .truncated (n + 2)
    | p0 :: bs =>
      if !p0Ok p0 then .notVrangepd (n + 2)
      else match bs with
      | [] => .truncated (n + 3)
      | p1 :: bs =>
        if !p1Ok p1 then .notVrangepd (n + 3)
        else match bs with
        | [] => .truncated (n + 4)
        | [_] => .truncated (n + 5)
        | p2 :: op :: bs =>
          if op ≠ 0x50#8 then .notVrangepd (n + 5)
          else match bs with
          | [] => .truncated (n + 6)
          | modrm :: bs => decodeModRM st n (fieldsOf p0 p1 p2) modrm bs

/-- The legacy prefixes and then the EVEX part. Admitted: at most one segment override, at most one `67h`, and at most one
illegal prefix, which makes the candidate invalid (R70, R71); a REX byte counts as one only immediately before `62h`
(log 15, 16). DESIGN CHOICE: a repeated prefix is reported as soon as it is met, whether or not a candidate follows, while
R72 would call bytes that are none "not VRANGEPD" (log 15); after an illegal prefix, REX and `62h` count as looked at, and
nothing behind them (log 19). -/
def decodeFrom (st : PrefixScan) (n : Nat) : List Byte → Decoded
  | [] => .truncated (n + 1)
  | x :: bs =>
    match prefixClass x with
    | .addr32 =>
      if st.pre.addr32 then .repeatedPrefix (n + 1)
      else decodeFrom ⟨⟨st.pre.seg, true⟩, st.illegal⟩ (n + 1) bs
    | .seg sg =>
      if st.pre.seg.isSome then .repeatedPrefix (n + 1)
      else decodeFrom ⟨⟨some sg, st.pre.addr32⟩, st.illegal⟩ (n + 1) bs
    | .illegal =>
      if st.illegal then .repeatedPrefix (n + 1)
      else decodeFrom ⟨st.pre, true⟩ (n + 1) bs
    | .rex =>
      match bs with
      | [] => .truncated (n + 2)
      | y :: _ =>
        if y ≠ 0x62#8 then .notVrangepd (n + 2)
        else if st.illegal then .repeatedPrefix (n + 2)
        else decodeFrom ⟨st.pre, true⟩ (n + 1) bs
    | .other => decodeEvex st n (x :: bs)

/-- The decoder: what the bytes from the program counter on are (R50 to R72). -/
def decode (bs : List Byte) : Decoded := decodeFrom PrefixScan.start 0 bs

/-! ## Length (R69) -/

/-- `p`, the number of legacy prefix bytes (R69). -/
def Prefixes.count (p : Prefixes) : Nat := (if p.seg.isSome then 1 else 0) + (if p.addr32 then 1 else 0)

/-- `s + d` of the address forms with `mod = 00b` (R69). -/
def Addr00.extra : Addr00 → Nat
  | .base _ => 0
  | .rip _ => 4
  | .sib _ _ => 1
  | .sibNoBase _ _ => 5

/-- `s + d` of the address forms with a displacement of `w` bits (R69). -/
def AddrDisp.extra {w : Nat} : AddrDisp w → Nat
  | .base _ _ => w / 8
  | .sib _ _ _ => 1 + w / 8

/-- `len = p + 4 + 1 + 1 + s + d + 1` (R69), for `extra = s + d`. -/
def lengthWith (p : Prefixes) (extra : Nat) : Nat := p.count + 7 + extra

/-- The instruction's length in bytes (R69). -/
def Instr.length : Instr → Nat
  | .xmmReg p _ _ _ _ _ => lengthWith p 0
  | .xmmMem00 p _ _ ad _ _ => lengthWith p ad.extra
  | .xmmMem01 p _ _ ad _ _ => lengthWith p ad.extra
  | .xmmMem10 p _ _ ad _ _ => lengthWith p ad.extra
  | .xmmBcst00 p _ _ ad _ _ => lengthWith p ad.extra
  | .xmmBcst01 p _ _ ad _ _ => lengthWith p ad.extra
  | .xmmBcst10 p _ _ ad _ _ => lengthWith p ad.extra
  | .ymmReg p _ _ _ _ _ => lengthWith p 0
  | .ymmMem00 p _ _ ad _ _ => lengthWith p ad.extra
  | .ymmMem01 p _ _ ad _ _ => lengthWith p ad.extra
  | .ymmMem10 p _ _ ad _ _ => lengthWith p ad.extra
  | .ymmBcst00 p _ _ ad _ _ => lengthWith p ad.extra
  | .ymmBcst01 p _ _ ad _ _ => lengthWith p ad.extra
  | .ymmBcst10 p _ _ ad _ _ => lengthWith p ad.extra
  | .zmmReg p _ _ _ _ _ => lengthWith p 0
  | .zmmMem00 p _ _ ad _ _ => lengthWith p ad.extra
  | .zmmMem01 p _ _ ad _ _ => lengthWith p ad.extra
  | .zmmMem10 p _ _ ad _ _ => lengthWith p ad.extra
  | .zmmBcst00 p _ _ ad _ _ => lengthWith p ad.extra
  | .zmmBcst01 p _ _ ad _ _ => lengthWith p ad.extra
  | .zmmBcst10 p _ _ ad _ _ => lengthWith p ad.extra
  | .zmmSae p _ _ _ _ _ => lengthWith p 0

/-! ## The encoder -/

/-- Bit 3 of an index register, 0 when there is no index (R60: `X : SIB[5:3]`). -/
def indexX : Option Index → Bool
  | none => false
  | some i => (GReg.bits i.reg).getLsbD 3

/-- The SIB byte `scale : index : base` (R60); "no index" is written with scale 0. -/
def sibByte (i : Option Index) (base : BitVec 3) : Byte :=
  match i with
  | none => 0b00#2 ++ 0b100#3 ++ base
  | some i => i.scale ++ (GReg.bits i.reg).extractLsb' 0 3 ++ base

/-- The `X` bit that operand 3 needs; 0 where it is ignored (R59, R60). -/
def RM.xBit : RM → Bool
  | .reg r => (VReg.bits r).getLsbD 4
  | .m00 (.base _) => false
  | .m00 (.rip _) => false
  | .m00 (.sib _ i) => indexX i
  | .m00 (.sibNoBase i _) => indexX i
  | .m01 (.base _ _) => false
  | .m01 (.sib _ i _) => indexX i
  | .m10 (.base _ _) => false
  | .m10 (.sib _ i _) => indexX i

/-- The `B` bit that operand 3 needs; 0 where it is ignored (R59, R60). -/
def RM.bBit : RM → Bool
  | .reg r => (VReg.bits r).getLsbD 3
  | .m00 (.base g) => (GReg.bits g).getLsbD 3
  | .m00 (.rip _) => false
  | .m00 (.sib g _) => (GReg.bits g).getLsbD 3
  | .m00 (.sibNoBase _ _) => false
  | .m01 (.base g _) => (GReg.bits g).getLsbD 3
  | .m01 (.sib g _ _) => (GReg.bits g).getLsbD 3
  | .m10 (.base g _) => (GReg.bits g).getLsbD 3
  | .m10 (.sib g _ _) => (GReg.bits g).getLsbD 3

/-- The `mod` field of operand 3 (R73: one row for each value). -/
def RM.mod : RM → BitVec 2
  | .reg _ => 0b11#2
  | .m00 _ => 0b00#2
  | .m01 _ => 0b01#2
  | .m10 _ => 0b10#2

/-- The `rm` field of operand 3 (R59, R60). -/
def RM.rmField : RM → BitVec 3
  | .reg r => (VReg.bits r).extractLsb' 0 3
  | .m00 (.base g) => (GReg.bits g).extractLsb' 0 3
  | .m00 (.rip _) => 0b101#3
  | .m00 (.sib _ _) => 0b100#3
  | .m00 (.sibNoBase _ _) => 0b100#3
  | .m01 (.base g _) => (GReg.bits g).extractLsb' 0 3
  | .m01 (.sib _ _ _) => 0b100#3
  | .m10 (.base g _) => (GReg.bits g).extractLsb' 0 3
  | .m10 (.sib _ _ _) => 0b100#3

/-- The SIB byte and the displacement of operand 3 (R50, R60). -/
def RM.tail : RM → List Byte
  | .reg _ => []
  | .m00 (.base _) => []
  | .m00 (.rip d) => disp32Bytes d
  | .m00 (.sib g i) => [sibByte i ((GReg.bits g).extractLsb' 0 3)]
  | .m00 (.sibNoBase i d) => sibByte i 0b101#3 :: disp32Bytes d
  | .m01 (.base _ d) => [d]
  | .m01 (.sib g i d) => [sibByte i ((GReg.bits g).extractLsb' 0 3), d]
  | .m10 (.base _ d) => disp32Bytes d
  | .m10 (.sib g i d) => sibByte i ((GReg.bits g).extractLsb' 0 3) :: disp32Bytes d

/-- The EVEX fields of an instruction (R52 to R54, R57 to R59, R66). -/
def encodeFields (ll : BitVec 2) (bc : Bool) (d a : VReg) (rm : RM) (m : Writemask) : EvexFields where
  rr := (VReg.bits d).getLsbD 4
  r := (VReg.bits d).getLsbD 3
  x := rm.xBit
  b := rm.bBit
  vvvv := (VReg.bits a).extractLsb' 0 4
  z := m.z
  ll := ll
  bc := bc
  vv := (VReg.bits a).getLsbD 4
  aaa := BitVec.ofFin m.aaa

/-- The ModRM byte `mod : reg : rm` (R57, R59, R60). -/
def modrmByte (d : VReg) (rm : RM) : Byte := rm.mod ++ (VReg.bits d).extractLsb' 0 3 ++ rm.rmField

/-- The bytes of R50 for the given fields. -/
def encodeWith (ll : BitVec 2) (bc : Bool) (p : Prefixes) (d a : VReg) (rm : RM) (m : Writemask) (imm : Byte) :
    List Byte :=
  let f := encodeFields ll bc d a rm m
  p.bytes ++ (0x62#8 :: p0Byte f :: p1Byte f :: p2Byte f :: 0x50#8 :: modrmByte d rm :: (rm.tail ++ [imm]))

/-- The encoder: the bytes of a well-formed instruction (R50, R73). The `{sae}` form is written with `L'L = 00b`, as both
assemblers of 95_test_vectors.md T7.1 write it (R56). -/
def encode : Instr → List Byte
  | .xmmReg p d a r m imm => encodeWith 0b00#2 false p d a (.reg r) m imm
  | .xmmMem00 p d a ad m imm => encodeWith 0b00#2 false p d a (.m00 ad) m imm
  | .xmmMem01 p d a ad m imm => encodeWith 0b00#2 false p d a (.m01 ad) m imm
  | .xmmMem10 p d a ad m imm => encodeWith 0b00#2 false p d a (.m10 ad) m imm
  | .xmmBcst00 p d a ad m imm => encodeWith 0b00#2 true p d a (.m00 ad) m imm
  | .xmmBcst01 p d a ad m imm => encodeWith 0b00#2 true p d a (.m01 ad) m imm
  | .xmmBcst10 p d a ad m imm => encodeWith 0b00#2 true p d a (.m10 ad) m imm
  | .ymmReg p d a r m imm => encodeWith 0b01#2 false p d a (.reg r) m imm
  | .ymmMem00 p d a ad m imm => encodeWith 0b01#2 false p d a (.m00 ad) m imm
  | .ymmMem01 p d a ad m imm => encodeWith 0b01#2 false p d a (.m01 ad) m imm
  | .ymmMem10 p d a ad m imm => encodeWith 0b01#2 false p d a (.m10 ad) m imm
  | .ymmBcst00 p d a ad m imm => encodeWith 0b01#2 true p d a (.m00 ad) m imm
  | .ymmBcst01 p d a ad m imm => encodeWith 0b01#2 true p d a (.m01 ad) m imm
  | .ymmBcst10 p d a ad m imm => encodeWith 0b01#2 true p d a (.m10 ad) m imm
  | .zmmReg p d a r m imm => encodeWith 0b10#2 false p d a (.reg r) m imm
  | .zmmMem00 p d a ad m imm => encodeWith 0b10#2 false p d a (.m00 ad) m imm
  | .zmmMem01 p d a ad m imm => encodeWith 0b10#2 false p d a (.m01 ad) m imm
  | .zmmMem10 p d a ad m imm => encodeWith 0b10#2 false p d a (.m10 ad) m imm
  | .zmmBcst00 p d a ad m imm => encodeWith 0b10#2 true p d a (.m00 ad) m imm
  | .zmmBcst01 p d a ad m imm => encodeWith 0b10#2 true p d a (.m01 ad) m imm
  | .zmmBcst10 p d a ad m imm => encodeWith 0b10#2 true p d a (.m10 ad) m imm
  | .zmmSae p d a r m imm => encodeWith 0b00#2 true p d a (.reg r) m imm

/-! ## The opcode table's rows -/

/-- The `mask` and `match` of the instruction's row in opcode_table.json, over the 48-bit value of the six bytes
`62 P0 P1 P2 50 ModRM`, first byte most significant (R73). -/
def Instr.row : Instr → Nat × Nat
  | .xmmReg .. => (0xFF0F8770FFC0, 0x6203850050C0)
  | .xmmMem00 .. => (0xFF0F8770FFC0, 0x620385005000)
  | .xmmMem01 .. => (0xFF0F8770FFC0, 0x620385005040)
  | .xmmMem10 .. => (0xFF0F8770FFC0, 0x620385005080)
  | .xmmBcst00 .. => (0xFF0F8770FFC0, 0x620385105000)
  | .xmmBcst01 .. => (0xFF0F8770FFC0, 0x620385105040)
  | .xmmBcst10 .. => (0xFF0F8770FFC0, 0x620385105080)
  | .ymmReg .. => (0xFF0F8770FFC0, 0x6203852050C0)
  | .ymmMem00 .. => (0xFF0F8770FFC0, 0x620385205000)
  | .ymmMem01 .. => (0xFF0F8770FFC0, 0x620385205040)
  | .ymmMem10 .. => (0xFF0F8770FFC0, 0x620385205080)
  | .ymmBcst00 .. => (0xFF0F8770FFC0, 0x620385305000)
  | .ymmBcst01 .. => (0xFF0F8770FFC0, 0x620385305040)
  | .ymmBcst10 .. => (0xFF0F8770FFC0, 0x620385305080)
  | .zmmReg .. => (0xFF0F8770FFC0, 0x6203854050C0)
  | .zmmMem00 .. => (0xFF0F8770FFC0, 0x620385405000)
  | .zmmMem01 .. => (0xFF0F8770FFC0, 0x620385405040)
  | .zmmMem10 .. => (0xFF0F8770FFC0, 0x620385405080)
  | .zmmBcst00 .. => (0xFF0F8770FFC0, 0x620385505000)
  | .zmmBcst01 .. => (0xFF0F8770FFC0, 0x620385505040)
  | .zmmBcst10 .. => (0xFF0F8770FFC0, 0x620385505080)
  | .zmmSae .. => (0xFF0F8710FFC0, 0x6203851050C0)

/-- The value of a list of bytes with the first byte most significant: how opcode_table.json numbers bits (R73). -/
def bigEndian (bs : List Byte) : Nat := bs.foldl (fun acc x => acc * 256 + x.toNat) 0

/-! ## The host's table words -/

/-- The `n` bytes of `w`, most significant first: R73 numbers a row's 48-bit value "with the first byte most significant". -/
def wordBytesBE (n w : Nat) : List Byte := (List.range n).map fun k => BitVec.ofNat 8 (w >>> (8 * (n - 1 - k)))

/-- The `n` bytes of `w`, least significant first. -/
def wordBytesLE (n w : Nat) : List Byte := (List.range n).map fun k => BitVec.ofNat 8 (w >>> (8 * k))

/-- The bytes of a table word at increasing addresses, followed by zeros up to the longest instruction (14 bytes, R69). A
word is read as R73 numbers it; one whose most significant byte is not `62h` while its least significant byte is, is read
least significant byte first (log 20). -/
def tableWordBytes (nbits w : Nat) : List Byte :=
  let n := nbits / 8
  let be := wordBytesBE n w
  let le := wordBytesLE n w
  (if be.head? ≠ some 0x62#8 ∧ le.head? = some 0x62#8 then le else be) ++ List.replicate (14 - n) 0#8

/-- The instruction the decoder reads from a word of the opcode table, every bit above `nbits` zero; none where it
rejects. -/
def decodeTableWord (nbits w : Nat) : Option Instr :=
  match decode (tableWordBytes nbits w) with
  | .ok i _ => some i
  | _ => none

end Sys2Proof
end

