-- ==== Sys2Proof/Machine/State.lean ====
section
/-! DEFINITION. The machine's state as plain data (10_state.md, its opening tuple and R10 to R24), the exceptions and
refusals that end a run (60_exceptions.md R110, R119), and the state right after reset. -/

namespace Sys2Proof.Machine

/-- Memory: the listed (address, byte) pairs of the partial map `Mem` (R21), addresses strictly rising. -/
abbrev Memory := List Host.Cell

/-- What an address that memory does not list reads as. R21: `Mem` is a partial map; R24: its contents at power-up are
"unspecified". DESIGN CHOICE, safe: no value, the address is outside the map (log 11). -/
def unlistedByte : Option Byte := none

/-- Processor operating modes (R24, row "operating mode"; 00_scope.md R4). The modelled machine runs in `bits64` only. -/
inductive Mode where
  | bits64 | compatibility | protected32 | virtual8086 | realAddress | smm
deriving DecidableEq, Repr

/-- Segments (30_encoding.md R64): what `Access` is told is in use. -/
inductive Segment where
  | cs | ds | ss | fs | gs
deriving DecidableEq, Repr

/-- The kinds of access (20_memory.md R32). -/
inductive AccessKind where
  | data | fetch
deriving DecidableEq, Repr

/-- The arguments of `Access(a, n, CPL, kind, seg)` (R32). -/
structure AccessQuery where
  a    : Word
  n    : Nat
  cpl  : BitVec 2
  kind : AccessKind
  seg  : Segment
deriving DecidableEq, Repr

/-- Which queries a rule of the access table is about: those that touch a byte of a range of linear addresses, or exactly
one range of bytes. -/
inductive AccessScope where
  | touches (first last : Word)
  | exactly (a : Word) (n : Nat)
deriving DecidableEq, Repr

/-- How `Access` refuses (R32, R115, R116). -/
inductive Denial where
  /-- Non-canonical address: `#SS(0)` in the SS segment, `#GP(0)` in any other (R115). -/
  | nonCanonical
  /-- `#PF` with the error-code bits P, RSVD, I/D (kept on a fetch only) and PK of R116; W/R is 0 and U/S is `CPL = 3`.
  `addr` is the address reported; none means the lowest byte of the query in the rule's scope. -/
  | page (present rsvd instr pk : Bool) (addr : Option Word)
deriving DecidableEq, Repr

/-- One rule of the table that stands for `Access` (R32, D6; log 8). `none` in `kind`, `cpl` or `seg` means any. -/
structure AccessRule where
  scope  : AccessScope
  kind   : Option AccessKind
  cpl    : Option (BitVec 2)
  seg    : Option Segment
  denial : Denial
deriving DecidableEq, Repr

/-- `IMM8_HI_POLICY` (30_encoding.md R68). -/
inductive Imm8HiPolicy where
  | refuse | ignore
deriving DecidableEq, Repr

/-- The enabling record `Env` (R20). `align_check` is computed from `cr0Am` and `CPL` (log 5). -/
structure Env where
  cpuidAvx512f   : Bool
  cpuidAvx512dq  : Bool
  cpuidAvx512vl  : Bool
  cr4Osxsave     : Bool
  xcr0           : BitVec 64
  cr0Ts          : Bool
  cr4Osxmmexcpt  : Bool
  cr0Am          : Bool
deriving DecidableEq, Repr

/-- The model's parameters that the launch supplies (00_scope.md R5). -/
structure Params where
  imm8Hi           : Imm8HiPolicy
  faultSuppression : Bool
  access           : List AccessRule
  /-- `END`: the pc at which a run is complete; none: the run has no end (log 12). -/
  endAt            : Option Word
deriving DecidableEq, Repr

/-- The state of the machine (10_state.md). -/
structure State where
  zmm      : Vector ZWord 32
  k        : Vector KWord 8
  mxcsr    : BitVec 32
  x        : Vector Word 16
  pc       : Word
  fsbase   : Word
  gsbase   : Word
  rflagsAC : Bool
  cpl      : BitVec 2
  mem      : Memory
  mode     : Mode
  env      : Env
  params   : Params
deriving DecidableEq, Repr

/-- An exception of 60_exceptions.md R110, with what it records. -/
inductive Exn where
  | ud
  | nm
  | ss0
  | gp0
  | pf (code : BitVec 6) (addr : Word)
  | ac0
  | xm
deriving DecidableEq, Repr

/-- The outcome `Fault(X, info)` of R119, with the state of R120: `after` is the machine at the point of the fault, its pc
the address of the faulting instruction. Every one of these is an exception that the spec describes; what a handler would
do is not described and a fault ends the run (R119, R121), which is safe. -/
inductive Fault where
  /-- `#UD`, vector 6: raised by an invalid encoding, a missing feature or enabling state, an illegal prefix (R113), and
  for an unmasked floating-point condition when CR4.OSXMMEXCPT is 0 (R112). Safe. -/
  | invalidOpcode (after : State)
  /-- `#NM`, vector 7: raised when CR0.TS is 1 (R114). Safe. -/
  | deviceNotAvailable (after : State)
  /-- `#SS(0)`, vector 12: raised by a non-canonical operand address in the SS segment (R115). Safe. -/
  | stackFault (after : State)
  /-- `#GP(0)`, vector 13: raised by a non-canonical address in any other segment, or an instruction over 15 bytes
  (R115). Safe. -/
  | generalProtection (after : State)
  /-- `#PF`, vector 14, with its error code and the address CR2 would hold (R116): raised by an operand or fetch byte that
  `Access` does not let be read. Safe. -/
  | pageFault (code : BitVec 6) (addr : Word) (after : State)
  /-- `#AC(0)`, vector 17: raised by a misaligned broadcast element with alignment checking on (R117). Safe. -/
  | alignmentCheck (after : State)
  /-- `#XM`, vector 19: raised by an unmasked Invalid or Denormal condition (R112); `after` has the MXCSR flags set. Safe. -/
  | simdFloatingPoint (after : State)
deriving DecidableEq, Repr

/-- Why the model gives no meaning (`Refused(reason)`, 00_scope.md R7). -/
inductive Refusal where
  /-- An instruction whose meaning is not written yet; raised by no arm of this model. Safe. -/
  | notModelled (mnemonic : String)
  /-- `Refused("imm8[7:4] nonzero")`: raised by every form under `IMM8_HI_POLICY = refuse` (R68, D13). Safe. -/
  | imm8HighNonzero
  /-- `Refused("not VRANGEPD")`: raised by the step on bytes that are no candidate (R72, D23). Safe. -/
  | notVrangepd
  /-- More legacy prefixes than R70 admits: raised by the step (R70, D33). Safe. -/
  | repeatedPrefix
  /-- "the launch state is refused by the model": raised by the step outside 64-bit mode (R141 row 1, D1). Safe. -/
  | notIn64BitMode
deriving DecidableEq, Repr

/-- The state right after reset: the power-up values of R20 and R24, real-address mode among them, and the default
parameters of 00_scope.md R5. In it nothing executes (R24); a program is launched from outside (log 1). -/
def State.reset : State where
  zmm := Vector.replicate 32 0#512
  k := Vector.replicate 8 0#64
  mxcsr := Config.mxcsrAtReset
  x := (Vector.replicate 16 0#64).set 2 Config.rdxSignature
  pc := Config.pcAtReset
  fsbase := 0#64
  gsbase := 0#64
  rflagsAC := false
  cpl := 0#2
  mem := []
  mode := .realAddress
  env :=
    { cpuidAvx512f := Config.cpuidAtReset
      cpuidAvx512dq := Config.cpuidAtReset
      cpuidAvx512vl := Config.cpuidAtReset
      cr4Osxsave := false
      xcr0 := 0x1#64
      cr0Ts := false
      cr4Osxmmexcpt := false
      cr0Am := false }
  params := { imm8Hi := .refuse, faultSuppression := false, access := [], endAt := none }

end Sys2Proof.Machine
end

