-- ==== Sys2Proof/Machine/Ops.lean ====
section
/-! DEFINITION. The named operations over memory and registers (20_memory.md R30 to R32, 10_state.md R10 to R18), and
raising an exception (60_exceptions.md R119, R120). -/

namespace Sys2Proof.Machine

/-! ## Memory -/

/-- The byte at a linear address, none outside the partial map (R21). -/
def Memory.read (m : Memory) (a : Nat) : Option Byte :=
  match m with
  | [] => unlistedByte
  | (c, v) :: r => if c = a then some v else Memory.read r a

/-- Put a byte at an address, keeping addresses strictly rising. Only the launch writes memory (R37). -/
def Memory.write (m : Memory) (a : Nat) (v : Byte) : Memory :=
  match m with
  | [] => [(a, v)]
  | (c, w) :: r =>
    if a < c then (a, v) :: (c, w) :: r
    else if a = c then (a, v) :: r
    else (c, w) :: Memory.write r a v

/-- Addresses strictly rising from `lo`, all below `2^64` (R30). -/
def Memory.risingFrom (lo : Nat) : Memory → Bool
  | [] => true
  | (c, _) :: r => decide (lo ≤ c) && decide (c < 2 ^ 64) && Memory.risingFrom (c + 1) r

/-- The canonical form of memory: addresses strictly rising, and no entry equal to what an unlisted address reads as, which
holds of every entry since an unlisted address has no value (log 11). -/
def Memory.wf (m : Memory) : Bool := Memory.risingFrom 0 m

/-- Write consecutive bytes from a linear address on, modulo `2^64`. -/
def Memory.writeBytes (m : Memory) (a : Word) : List Byte → Memory
  | [] => m
  | v :: r => Memory.writeBytes (Memory.write m a.toNat v) (a + 1#64) r

/-! ## Access (R32, R115, R116) -/

/-- The linear addresses of a query, `a + m` modulo `2^64` for `0 ≤ m < n` (R31). -/
def AccessQuery.addrs (q : AccessQuery) : List Word := (List.range q.n).map fun m => q.a + BitVec.ofNat 64 m

/-- The lowest byte of the query in a range of addresses. -/
def firstIn (first last : Word) (q : AccessQuery) : Option Word :=
  q.addrs.find? fun a => decide (first ≤ a) && decide (a ≤ last)

/-- The byte of the query that a scope covers first, none when the scope is not about this query. -/
def AccessScope.hit (sc : AccessScope) (q : AccessQuery) : Option Word :=
  match sc with
  | .touches first last => firstIn first last q
  | .exactly a n => if q.a = a ∧ q.n = n then some a else none

/-- `none` in a rule means any. -/
def fits {α : Type} [DecidableEq α] (want : Option α) (have_ : α) : Bool :=
  match want with
  | none => true
  | some w => w == have_

/-- Whether a rule is about a query, and the byte it covers first. -/
def AccessRule.hit (r : AccessRule) (q : AccessQuery) : Option Word :=
  if fits r.kind q.kind && fits r.cpl q.cpl && fits r.seg q.seg then r.scope.hit q else none

/-- The page-fault error code: P bit 0, W/R bit 1 (always 0), U/S bit 2 (`CPL = 3`), RSVD bit 3, I/D bit 4 (a fetch only),
PK bit 5 (R116). -/
def pfCode (present rsvd instr pk : Bool) (q : AccessQuery) : BitVec 6 :=
  BitVec.ofBool pk ++ BitVec.ofBool (instr && q.kind == .fetch) ++ BitVec.ofBool rsvd ++
    BitVec.ofBool (q.cpl == 3#2) ++ 0b0#1 ++ BitVec.ofBool present

/-- `#SS(0)` if the segment in use is SS, `#GP(0)` otherwise (R115). -/
def nonCanonicalExn (q : AccessQuery) : Exn := if q.seg = .ss then .ss0 else .gp0

/-- The answer of the non-canonical rules of the table: they come before every page rule (R118: `#SS(0)` / `#GP(0)`,
"then `#PF`"). -/
def nonCanonicalAnswer (rs : List AccessRule) (q : AccessQuery) : Option Exn :=
  match rs with
  | [] => none
  | r :: rest =>
    match r.denial, r.hit q with
    | .nonCanonical, some _ => some (nonCanonicalExn q)
    | _, _ => nonCanonicalAnswer rest q

/-- The answer of the first page rule of the table that is about the query (R116). -/
def pageAnswer (rs : List AccessRule) (q : AccessQuery) : Option Exn :=
  match rs with
  | [] => none
  | r :: rest =>
    match r.denial, r.hit q with
    | .page present rsvd instr pk addr, some lowest =>
      some (.pf (pfCode present rsvd instr pk q) (addr.getD lowest))
    | _, _ => pageAnswer rest q

/-- The lowest byte of the query that is outside the domain of memory. -/
def firstMissing (m : Memory) (q : AccessQuery) : Option Word :=
  q.addrs.find? fun a => (Memory.read m a.toNat).isNone

/-- The simplest instance of `Access`: "`ok` exactly when all bytes are in the domain of `Mem`, else `#PF`" (D6). The code is
that of a page not present; the address is the lowest missing byte (log 9). -/
def domainAnswer (m : Memory) (q : AccessQuery) : Option Exn :=
  match firstMissing m q with
  | none => none
  | some a => some (.pf (pfCode false false true false q) a)

/-- `Access`: none is `ok` (R32). A rule of the table denies first; what no rule denies is left to the domain of memory, so
that `ok` implies that every byte is in the domain, as R32 says. -/
def accessAnswer (s : State) (q : AccessQuery) : Option Exn :=
  match nonCanonicalAnswer s.params.access q with
  | some x => some x
  | none =>
    match pageAnswer s.params.access q with
    | some x => some x
    | none => domainAnswer s.mem q

/-! ## The read primitive (R31, R32) -/

/-- The bytes of a query, lowest address first; asked for only after `Access` said `ok`, when every byte is there. -/
def bytesAt (m : Memory) (q : AccessQuery) : List Byte := q.addrs.map fun a => (Memory.read m a.toNat).getD 0#8

/-- `MemRead(a, n)`: the fault `Access` names, or the bytes (R32). -/
def memRead (s : State) (q : AccessQuery) : Except Exn (List Byte) :=
  match accessAnswer s q with
  | some x => .error x
  | none => .ok (bytesAt s.mem q)

/-- Little-endian value of a list of bytes: `v[8m+7:8m]` is byte `m` (R31). -/
def littleEndian : List Byte → Nat
  | [] => 0
  | b :: r => b.toNat + 256 * littleEndian r

/-! ## Registers -/

/-- Read a vector register (R10). -/
def readZmm (s : State) (r : VReg) : ZWord := s.zmm[r]

/-- `ZMM[n] <- v`: write all 512 bits (R7, R12). -/
def writeZmm (s : State) (r : VReg) (v : ZWord) : State := { s with zmm := s.zmm.set r v }

/-- Read an opmask register (R13). -/
def readK (s : State) (r : KReg) : KWord := s.k[r]

/-- Read a general register (R16). -/
def readX (s : State) (r : GReg) : Word := s.x[r]

/-- `pc <- pc + len` modulo `2^64` (R18, R99). -/
def advancePc (s : State) (len : Nat) : State := { s with pc := s.pc + BitVec.ofNat 64 len }

/-- Replace MXCSR. -/
def writeMxcsr (s : State) (v : BitVec 32) : State := { s with mxcsr := v }

/-! ## Raising an exception -/

/-- `raise X` in state `s`: the run ends with `Fault(X, info)` and the state at that point (R119, R120). The spec describes
no delivery: no vector table, saved state or handler address, and there is no return (R119, R121). -/
def raise (x : Exn) (s : State) : Host.Outcome State Fault Refusal :=
  match x with
  | .ud => .fault (.invalidOpcode s)
  | .nm => .fault (.deviceNotAvailable s)
  | .ss0 => .fault (.stackFault s)
  | .gp0 => .fault (.generalProtection s)
  | .pf code addr => .fault (.pageFault code addr s)
  | .ac0 => .fault (.alignmentCheck s)
  | .xm => .fault (.simdFloatingPoint s)

/-- The state at the point of the fault (R120). -/
def Fault.after : Fault → State
  | .invalidOpcode s => s
  | .deviceNotAvailable s => s
  | .stackFault s => s
  | .generalProtection s => s
  | .pageFault _ _ s => s
  | .alignmentCheck s => s
  | .simdFloatingPoint s => s

/-- The vector number of a fault (R110). -/
def Fault.vector : Fault → Nat
  | .invalidOpcode _ => 6
  | .deviceNotAvailable _ => 7
  | .stackFault _ => 12
  | .generalProtection _ => 13
  | .pageFault _ _ _ => 14
  | .alignmentCheck _ => 17
  | .simdFloatingPoint _ => 19

/-- The error code of a fault: 0 for `#SS`, `#GP`, `#AC`, the page-fault code for `#PF`, none for the others (R110). -/
def Fault.errorCode : Fault → Option (BitVec 6)
  | .invalidOpcode _ => none
  | .deviceNotAvailable _ => none
  | .stackFault _ => some 0#6
  | .generalProtection _ => some 0#6
  | .pageFault code _ _ => some code
  | .alignmentCheck _ => some 0#6
  | .simdFloatingPoint _ => none

/-- The faulting linear address (the CR2 value), for `#PF` only (R116, R119). -/
def Fault.cr2 : Fault → Option Word
  | .pageFault _ addr _ => some addr
  | .invalidOpcode _ => none
  | .deviceNotAvailable _ => none
  | .stackFault _ => none
  | .generalProtection _ => none
  | .alignmentCheck _ => none
  | .simdFloatingPoint _ => none

end Sys2Proof.Machine
end

