-- ==== Sys2Proof/Machine/Flags.lean ====
section
/-! DEFINITION. MXCSR (10_state.md R14), the response to a detected floating-point condition (40_vrangepd.md R91), and the
enabling and alignment-checking conditions (10_state.md R20). -/

namespace Sys2Proof.Machine

/-! ## MXCSR fields (R14) -/

/-- Sticky invalid flag. -/
def mxIE (v : BitVec 32) : Bool := v.getLsbD 0
/-- Sticky denormal flag. -/
def mxDE (v : BitVec 32) : Bool := v.getLsbD 1
/-- Sticky divide-by-zero flag; VRANGEPD never reads or writes it. -/
def mxZE (v : BitVec 32) : Bool := v.getLsbD 2
/-- Sticky overflow flag; VRANGEPD never reads or writes it. -/
def mxOE (v : BitVec 32) : Bool := v.getLsbD 3
/-- Sticky underflow flag; VRANGEPD never reads or writes it. -/
def mxUE (v : BitVec 32) : Bool := v.getLsbD 4
/-- Sticky precision flag; VRANGEPD never reads or writes it. -/
def mxPE (v : BitVec 32) : Bool := v.getLsbD 5
/-- Denormals are zeros. -/
def mxDAZ (v : BitVec 32) : Bool := v.getLsbD 6
/-- 1 = invalid masked. -/
def mxIM (v : BitVec 32) : Bool := v.getLsbD 7
/-- 1 = denormal masked. -/
def mxDM (v : BitVec 32) : Bool := v.getLsbD 8
/-- Divide-by-zero, overflow, underflow and precision masks ZM, OM, UM, PM (bits 12:9); without effect here. -/
def mxOtherMasks (v : BitVec 32) : BitVec 4 := v.extractLsb' 9 4
/-- Rounding control; without effect here (R15). -/
def mxRC (v : BitVec 32) : BitVec 2 := v.extractLsb' 13 2
/-- Flush to zero; without effect here (R15). -/
def mxFTZ (v : BitVec 32) : Bool := v.getLsbD 15
/-- The reserved bits 31:16, "must be 0". -/
def mxReserved (v : BitVec 32) : BitVec 16 := v.extractLsb' 16 16

/-- `MXCSR.IE <- MXCSR.IE OR IEall ; MXCSR.DE <- MXCSR.DE OR DEall` (R91). -/
def setFlags (v : BitVec 32) (ie de : Bool) : BitVec 32 :=
  v ||| BitVec.setWidth 32 (BitVec.ofBool de ++ BitVec.ofBool ie)

/-- `(IEall = 1 and MXCSR.IM = 0) or (DEall = 1 and MXCSR.DM = 0)` (R91). -/
def unmaskedCondition (v : BitVec 32) (ie de : Bool) : Bool := (ie && !mxIM v) || (de && !mxDM v)

/-- `#XM` if CR4.OSXMMEXCPT = 1, else `#UD` (R91, R112). -/
def fpExn (e : Env) : Exn := if e.cr4Osxmmexcpt then .xm else .ud

/-! ## Enabling and alignment checking (R20) -/

/-- XCR0 bits 1, 2, 5, 6, 7 (SSE, AVX, opmask, ZMM_Hi256, Hi16_ZMM). -/
def xcr0Needed : BitVec 64 := 0xE6#64

/-- R113: "unless all five are 1: `#UD`" (R20). -/
def xcr0Ok (e : Env) : Bool := e.xcr0 &&& xcr0Needed == xcr0Needed

/-- The CPUID flags a form of this vector length needs: AVX512F and AVX512DQ, and AVX512VL for 128 and 256 (R113). The
`{sae}` form is the 512-bit one (R71). -/
def cpuidOk (e : Env) (vl : VLen) : Bool :=
  e.cpuidAvx512f && e.cpuidAvx512dq && (vl == .v512 || e.cpuidAvx512vl)

/-- None of the enabling conditions of R113 rows 1 to 3 fails. -/
def enabled (e : Env) (vl : VLen) : Bool := e.cr4Osxsave && xcr0Ok e && cpuidOk e vl

/-- `Env.align_check`: "CR0.AM (bit 18) = 1 and CPL = 3" (R20). -/
def alignCheck (s : State) : Bool := s.env.cr0Am && s.cpl == 3#2

/-- Alignment checking is on: `Env.align_check = 1` and `RFLAGS.AC = 1` (R34, R117). -/
def alignmentCheckingOn (s : State) : Bool := alignCheck s && s.rflagsAC

end Sys2Proof.Machine
end

