-- ==== Sys2Proof/Machine/Operands.lean ====
section
/-! DEFINITION. Operands: vector elements (10_state.md R11), the writemask (30_encoding.md R66), the effective and linear
address of a memory operand (R60 to R64) and the value of operand 3 (40_vrangepd.md R96; 20_memory.md R33 to R35). -/

namespace Sys2Proof.Machine

/-! ## Vectors and elements -/

/-- `KL`, the number of 64-bit elements (R56). -/
def elems : VLen → Nat
  | .v128 => 2
  | .v256 => 4
  | .v512 => 8

/-- `VL/8`, the bytes of a full-width operand (R33). -/
def vlBytes (vl : VLen) : Nat := 8 * elems vl

/-- Element `j`: bits `64j+63 : 64j` (R11). -/
def elem (v : ZWord) (j : Nat) : Word := v.extractLsb' (64 * j) 64

/-- The 512-bit vector with the given elements. -/
def ofElems (f : Nat → Word) : ZWord :=
  f 7 ++ f 6 ++ f 5 ++ f 4 ++ f 3 ++ f 2 ++ f 1 ++ f 0

/-! ## The writemask (R13, R66) -/

/-- `mask_j`: 1 if `aaa = 000b`, else `K[aaa][j]` (R90). -/
def maskBit (s : State) (m : Writemask) (j : Nat) : Bool := m.aaa == 0 || (readK s m.aaa).getLsbD j

/-! ## Memory operands (R60 to R64) -/

/-- The base of an effective address. -/
inductive BaseReg where
  | none
  | reg (g : GReg)
  | rip
deriving DecidableEq, Repr

/-- A memory operand: base, index and displacement, the displacement sign-extended and scaled. -/
structure MemRef where
  base  : BaseReg
  index : Option Index
  disp  : Word
deriving DecidableEq, Repr

/-- `N` of the compressed displacement: the tuple `Full` with `W = 1` (R61). -/
def dispScale (vl : VLen) (bcst : Bool) : Nat := if bcst then 8 else vlBytes vl

/-- The address forms with `mod = 00b`: no displacement, or an unscaled `disp32` (R60, R62). -/
def memRef00 : Addr00 → MemRef
  | .base b => ⟨.reg b, none, 0#64⟩
  | .rip d => ⟨.rip, none, d.signExtend 64⟩
  | .sib b i => ⟨.reg b, i, 0#64⟩
  | .sibNoBase i d => ⟨.none, i, d.signExtend 64⟩

/-- The address forms with `mod = 01b`: `disp = sext_64(disp8) * N` (R60, R61). -/
def memRef01 (n : Nat) : AddrDisp 8 → MemRef
  | .base b d => ⟨.reg b, none, d.signExtend 64 * BitVec.ofNat 64 n⟩
  | .sib b i d => ⟨.reg b, i, d.signExtend 64 * BitVec.ofNat 64 n⟩

/-- The address forms with `mod = 10b`: `disp = sext_64(disp32)`, never scaled (R60, R61). -/
def memRef10 : AddrDisp 32 → MemRef
  | .base b d => ⟨.reg b, none, d.signExtend 64⟩
  | .sib b i d => ⟨.reg b, i, d.signExtend 64⟩

/-- The base's value; RIP-relative addressing uses `pc + len` (R60, R62). -/
def baseValue (s : State) (len : Nat) : BaseReg → Word
  | .none => 0#64
  | .reg g => readX s g
  | .rip => s.pc + BitVec.ofNat 64 len

/-- `x[idx] * 2^scale`, 0 with no index (R60). -/
def indexValue (s : State) : Option Index → Word
  | none => 0#64
  | some i => readX s i.reg <<< i.scale.toNat

/-- The same index with address size 32: the register's low 32 bits, modulo `2^32` (R63). -/
def indexValue32 (s : State) : Option Index → BitVec 32
  | none => 0#32
  | some i => (readX s i.reg).setWidth 32 <<< i.scale.toNat

/-- The effective address: modulo `2^64` (R60), or with `67h` computed modulo `2^32` and zero-extended (R63). -/
def effectiveAddress (s : State) (p : Prefixes) (len : Nat) (r : MemRef) : Word :=
  if p.addr32 then
    ((baseValue s len r.base).setWidth 32 + indexValue32 s r.index + r.disp.setWidth 32 : BitVec 32).setWidth 64
  else baseValue s len r.base + indexValue s r.index + r.disp

/-- The segment base: FSBASE with `64h`, GSBASE with `65h`, and 0 otherwise (R64). -/
def segmentBase (s : State) (p : Prefixes) : Word :=
  match p.seg with
  | some .fs => s.fsbase
  | some .gs => s.gsbase
  | some .es => 0#64
  | some .cs => 0#64
  | some .ss => 0#64
  | some .ds => 0#64
  | none => 0#64

/-- SS when the base register is RSP or RBP, otherwise DS (R64). -/
def defaultSegment : BaseReg → Segment
  | .reg g => if g = 4 ∨ g = 5 then .ss else .ds
  | .none => .ds
  | .rip => .ds

/-- The segment in use: "FS or GS if that override is present (the four prefixes without effect do not change the segment
in use either)" (R64). -/
def segmentInUse (p : Prefixes) (r : MemRef) : Segment :=
  match p.seg with
  | some .fs => .fs
  | some .gs => .gs
  | some .es => defaultSegment r.base
  | some .cs => defaultSegment r.base
  | some .ss => defaultSegment r.base
  | some .ds => defaultSegment r.base
  | none => defaultSegment r.base

/-- `a = (segbase + EA) mod 2^64` (R64). -/
def linearAddress (s : State) (p : Prefixes) (len : Nat) (r : MemRef) : Word :=
  segmentBase s p + effectiveAddress s p len r

/-- The query for `n` bytes of a memory operand (R32). -/
def dataQuery (s : State) (p : Prefixes) (r : MemRef) (a : Word) (n : Nat) : AccessQuery :=
  ⟨a, n, s.cpl, .data, segmentInUse p r⟩

/-! ## Operand 3 (R33 to R35, R96) -/

/-- Operand 3 of a form (R33). -/
inductive Operand3 where
  | reg (r : VReg)
  | full (m : MemRef)
  | bcst (m : MemRef)
deriving DecidableEq, Repr

/-- One form of the instruction with its operands (R92 to R95). -/
structure Form where
  vl   : VLen
  sae  : Bool
  pre  : Prefixes
  dest : VReg
  src1 : VReg
  op3  : Operand3
  wm   : Writemask
  imm  : Byte
  len  : Nat
deriving DecidableEq, Repr

/-- `FAULT_SUPPRESSION = on`: the query for element `j`, `MemRead(a + 8j, 8)` (R35). -/
def elemQuery (s : State) (f : Form) (r : MemRef) (a : Word) (j : Nat) : AccessQuery :=
  dataQuery s f.pre r (a + BitVec.ofNat 64 (8 * j)) 8

/-- The queries for the active elements, lowest element first (R35). -/
def activeQueries (s : State) (f : Form) (r : MemRef) (a : Word) : List AccessQuery :=
  ((List.range (elems f.vl)).filter (maskBit s f.wm)).map (elemQuery s f r a)

/-- The fault of the reads that one instruction makes: `#SS(0)` or `#GP(0)` of any of them, "then `#PF`" (R118); of several
page faults that of the first read, which is the model's choice (log 17). -/
def faultOfReads (s : State) (qs : List AccessQuery) : Option Exn :=
  match qs.findSome? (nonCanonicalAnswer s.params.access) with
  | some x => some x
  | none => qs.findSome? (accessAnswer s)

/-- The elements read under `FAULT_SUPPRESSION = on`; those not read are 0, and the element loop does not use them (R35). -/
def activeValue (s : State) (f : Form) (r : MemRef) (a : Word) : ZWord :=
  ofElems fun j =>
    if j < elems f.vl ∧ maskBit s f.wm j = true then BitVec.ofNat 64 (littleEndian (bytesAt s.mem (elemQuery s f r a j)))
    else 0#64

/-- The full-width memory form: one `MemRead(a, VL/8)`, or the active elements under fault suppression (R33, R35). -/
def readFull (s : State) (f : Form) (r : MemRef) : Except Exn ZWord :=
  let a := linearAddress s f.pre f.len r
  if s.params.faultSuppression then
    match faultOfReads s (activeQueries s f r a) with
    | some x => .error x
    | none => .ok (activeValue s f r a)
  else
    match memRead s (dataQuery s f.pre r a (vlBytes f.vl)) with
    | .error x => .error x
    | .ok bs => .ok (BitVec.ofNat 512 (littleEndian bs))

/-- Whether some element is active (R35). -/
def anyActive (s : State) (f : Form) : Bool := (List.range (elems f.vl)).any (maskBit s f.wm)

/-- The element that a broadcast reads: `MemRead(a, 8)`; under fault suppression only if an element is active (R33, R35). -/
def readBcstElem (s : State) (f : Form) (r : MemRef) : Except Exn ZWord :=
  if s.params.faultSuppression && !anyActive s f then .ok 0#512
  else
    match memRead s (dataQuery s f.pre r (linearAddress s f.pre f.len r) 8) with
    | .error x => .error x
    | .ok bs => .ok (BitVec.ofNat 512 (littleEndian bs))

/-- The broadcast form: the read, then `#AC(0)` if alignment checking is on and `a mod 8 != 0` (R34, R117, R118). -/
def readBcst (s : State) (f : Form) (r : MemRef) : Except Exn ZWord :=
  match readBcstElem s f r with
  | .error x => .error x
  | .ok v =>
    if alignmentCheckingOn s && (linearAddress s f.pre f.len r).toNat % 8 != 0 then .error .ac0 else .ok v

/-- `SRC2`, the value of operand 3 (R96). -/
def readSrc2 (s : State) (f : Form) : Except Exn ZWord :=
  match f.op3 with
  | .reg r => .ok (readZmm s r)
  | .full r => readFull s f r
  | .bcst r => readBcst s f r

/-- The element of `SRC2` that the loop uses at position `j`: `SRC2[63:0]` for a broadcast, element `j` otherwise (R90). -/
def src2Elem (f : Form) (src2 : ZWord) (j : Nat) : Word :=
  match f.op3 with
  | .reg _ => elem src2 j
  | .full _ => elem src2 j
  | .bcst _ => elem src2 0

end Sys2Proof.Machine
end

