-- ==== Sys2Proof/Machine/RangeDP.lean ====
section
/-! DEFINITION. The element function `RangeDP` (40_vrangepd.md R80 to R88) over the binary64 predicates of 00_scope.md R8. -/

namespace Sys2Proof.Machine

/-! ## Binary64 fields and classes (R8) -/

/-- `sign(v) = v[63]`. -/
def fsign (v : Word) : Bool := v.getLsbD 63
/-- `exp(v) = v[62:52]`. -/
def fexp (v : Word) : BitVec 11 := v.extractLsb' 52 11
/-- `frac(v) = v[51:0]`. -/
def ffrac (v : Word) : BitVec 52 := v.extractLsb' 0 52
/-- `mag(v) = v[62:0]`. -/
def fmag (v : Word) : BitVec 63 := v.extractLsb' 0 63

/-- `exp(v) = 0` and `frac(v) = 0`. -/
def isZero (v : Word) : Bool := fexp v == 0#11 && ffrac v == 0#52
/-- `exp(v) = 0` and `frac(v) != 0`. -/
def isDenormal (v : Word) : Bool := fexp v == 0#11 && ffrac v != 0#52
/-- `1 <= exp(v) <= 2046`. -/
def isNormal (v : Word) : Bool := fexp v != 0#11 && fexp v != 2047#11
/-- `exp(v) = 2047` and `frac(v) = 0`. -/
def isInf (v : Word) : Bool := fexp v == 2047#11 && ffrac v == 0#52
/-- `exp(v) = 2047` and `frac(v) != 0`. -/
def isNaN (v : Word) : Bool := fexp v == 2047#11 && ffrac v != 0#52
/-- `isNaN(v)` and `v[51] = 0`. -/
def isSNaN (v : Word) : Bool := isNaN v && !v.getLsbD 51
/-- `isNaN(v)` and `v[51] = 1`. -/
def isQNaN (v : Word) : Bool := isNaN v && v.getLsbD 51

/-- `Quiet(v) = v OR 0x0008000000000000`. -/
def quiet (v : Word) : Word := v ||| 0x0008000000000000#64

/-- A sign bit put before a magnitude: `x : TMP[62:0]` (R6, R87). -/
def withSign (sg : Bool) (v : Word) : Word := BitVec.ofBool sg ++ fmag v

/-- `key(v)`: the magnitude with the sign, for a non-NaN `v`. -/
def fkey (v : Word) : Int := if fsign v then -((fmag v).toNat : Int) else ((fmag v).toNat : Int)

/-- The numerical `a <= b`: `key(a) <= key(b)`. -/
def fle (a b : Word) : Bool := decide (fkey a ≤ fkey b)

/-- The numerical `|a| <= |b|`: `mag(a) <= mag(b)`. -/
def fleAbs (a b : Word) : Bool := decide ((fmag a).toNat ≤ (fmag b).toNat)

/-! ## The controls (R67, R80) -/

/-- `CmpOpCtl = imm8[1:0]`. -/
def cmpOf (imm : Byte) : BitVec 2 := imm.extractLsb' 0 2
/-- `SignSelCtl = imm8[3:2]`. -/
def scOf (imm : Byte) : BitVec 2 := imm.extractLsb' 2 2

/-! ## RangeDP step by step -/

/-- What `RangeDP` returns: the result, and whether the Invalid and Denormal conditions were detected. -/
structure RangeOut where
  result : Word
  ie     : Bool
  de     : Bool
deriving DecidableEq, Repr

/-- Under DAZ a denormal becomes the zero of its sign (R82). -/
def dazOperand (daz : Bool) (v : Word) : Word := if isDenormal v && daz then BitVec.ofBool (fsign v) ++ 0#63 else v

/-- The Denormal condition (R82): without DAZ, a denormal operand whose partner is not a quiet NaN. -/
def denormalCondition (daz : Bool) (s1 s2 : Word) : Bool :=
  !daz && ((isDenormal s1 && !isQNaN s2) || (isDenormal s2 && !isQNaN s1))

/-- Both magnitude 0, signs opposite (R84). -/
def oppositeZeros (a b : Word) : Bool := fmag a == 0#63 && fmag b == 0#63 && fsign a != fsign b

/-- Equal magnitudes, signs opposite (R85). -/
def oppositeEqual (a b : Word) : Bool := fmag a == fmag b && fsign a != fsign b

/-- The general comparison (R86). -/
def compareGeneral (cmp : BitVec 2) (a b : Word) : Word :=
  if cmp = 0b00#2 then (if fle a b then a else b)
  else if cmp = 0b01#2 then (if fle a b then b else a)
  else if cmp = 0b10#2 then (if fleAbs a b then a else b)
  else (if fleAbs a b then b else a)

/-- `TMP`, the compare result, from the original operands' NaN classes and the substituted operands `a`, `b` (R83 to R86). -/
def compareResult (cmp : BitVec 2) (s1 s2 a b : Word) : Word :=
  if isQNaN s2 then a
  else if isQNaN s1 then b
  else if oppositeZeros a b then (if cmp.getLsbD 0 then 0#64 else 0x8000000000000000#64)
  else if oppositeEqual a b && cmp.getLsbD 1 then
    (if cmp.getLsbD 0 then (if fsign a then b else a) else (if fsign a then a else b))
  else compareGeneral cmp a b

/-- The sign selection (R87). -/
def selectSign (sc : BitVec 2) (s1 tmp : Word) : Word :=
  if sc = 0b00#2 then withSign (fsign s1) tmp
  else if sc = 0b01#2 then tmp
  else if sc = 0b10#2 then withSign false tmp
  else withSign true tmp

/-- `RangeDP(s1, s2, cmp, sc, daz)` as a whole (R88). -/
def rangeDP (s1 s2 : Word) (cmp sc : BitVec 2) (daz : Bool) : RangeOut :=
  if isSNaN s1 then ⟨quiet s1, true, false⟩
  else if isSNaN s2 then ⟨quiet s2, true, false⟩
  else
    let tmp := compareResult cmp s1 s2 (dazOperand daz s1) (dazOperand daz s2)
    ⟨selectSign sc s1 tmp, false, denormalCondition daz s1 s2⟩

end Sys2Proof.Machine
end

