-- ==== Sys2Proof/Machine/Vrangepd.lean ====
section
/-! DEFINITION. What every form of VRANGEPD shares: the element loop (40_vrangepd.md R90), the flags and the decision to
fault (R91), and the order of one execution (R97). -/

namespace Sys2Proof.Machine

/-- What the element loop produces: the new register value and the conditions OR-ed over the active elements (R90). -/
structure LoopOut where
  new : ZWord
  ie  : Bool
  de  : Bool
deriving DecidableEq, Repr

/-- `RangeDP` on element `j` of the sources (R90). -/
def rangeElem (s : State) (f : Form) (src2 : ZWord) (j : Nat) : RangeOut :=
  rangeDP (elem (readZmm s f.src1) j) (src2Elem f src2 j) (cmpOf f.imm) (scOf f.imm) (mxDAZ s.mxcsr)

/-- Element `j` of `NEW` (R90): the range result, the old element under merging, 0 under zeroing, 0 above `VL`. -/
def newElem (s : State) (f : Form) (src2 : ZWord) (j : Nat) : Word :=
  if j < elems f.vl then
    if maskBit s f.wm j then (rangeElem s f src2 j).result
    else if f.wm.z then 0#64
    else elem (readZmm s f.dest) j
  else 0#64

/-- Whether an active element below `KL` satisfies a test: how `IEall` and `DEall` are formed (R90). -/
def someActive (s : State) (f : Form) (test : Nat → Bool) : Bool :=
  (List.range (elems f.vl)).any fun j => maskBit s f.wm j && test j

/-- The element loop (R90). -/
def elementLoop (s : State) (f : Form) (src2 : ZWord) : LoopOut where
  new := ofElems (newElem s f src2)
  ie := someActive s f fun j => (rangeElem s f src2 j).ie
  de := someActive s f fun j => (rangeElem s f src2 j).de

/-- The completed instruction: `ZMM[dest] <- NEW ; pc <- pc + len` (R97 step 7). -/
def finish (s : State) (f : Form) (new : ZWord) : State := advancePc (writeZmm s f.dest new) f.len

/-- Flags and the decision to fault (R91); the `{sae}` form changes no flag and raises nothing (R95). -/
def complete (s : State) (f : Form) (r : LoopOut) : Host.Outcome State Fault Refusal :=
  if f.sae then .next (finish s f r.new)
  else
    let flagged := writeMxcsr s (setFlags s.mxcsr r.ie r.de)
    if unmaskedCondition s.mxcsr r.ie r.de then raise (fpExn s.env) flagged
    else .next (finish flagged f r.new)

/-- `IMM8_HI_POLICY = refuse` and `imm8[7:4] != 0000b` (R68). -/
def imm8Refused (s : State) (imm : Byte) : Bool := s.params.imm8Hi == .refuse && imm.extractLsb' 4 4 != 0#4

/-- One execution of VRANGEPD after fetch and decode, in the order of R97: refusal (R68), `#UD` (R113), `#NM` (R114), the
memory read (R96), the element loop (R90), flags and fault decision (R91). -/
def vrangepd (f : Form) (s : State) : Host.Outcome State Fault Refusal :=
  if imm8Refused s f.imm then .refused .imm8HighNonzero
  else if !(f.wm.wellFormed && enabled s.env f.vl) then raise .ud s
  else if s.env.cr0Ts then raise .nm s
  else
    match readSrc2 s f with
    | .error x => raise x s
    | .ok src2 => complete s f (elementLoop s f src2)

/-- The register form of a vector length (R92, R93, R94, and with `sae` R95). -/
def formReg (vl : VLen) (sae : Bool) (p : Prefixes) (d a b : VReg) (m : Writemask) (imm : Byte) : Form :=
  ⟨vl, sae, p, d, a, .reg b, m, imm, lengthWith p 0⟩

/-- The full-width memory form with `mod = 00b`. -/
def formMem00 (vl : VLen) (p : Prefixes) (d a : VReg) (ad : Addr00) (m : Writemask) (imm : Byte) : Form :=
  ⟨vl, false, p, d, a, .full (memRef00 ad), m, imm, lengthWith p ad.extra⟩

/-- The full-width memory form with `mod = 01b`. -/
def formMem01 (vl : VLen) (p : Prefixes) (d a : VReg) (ad : AddrDisp 8) (m : Writemask) (imm : Byte) : Form :=
  ⟨vl, false, p, d, a, .full (memRef01 (dispScale vl false) ad), m, imm, lengthWith p ad.extra⟩

/-- The full-width memory form with `mod = 10b`. -/
def formMem10 (vl : VLen) (p : Prefixes) (d a : VReg) (ad : AddrDisp 32) (m : Writemask) (imm : Byte) : Form :=
  ⟨vl, false, p, d, a, .full (memRef10 ad), m, imm, lengthWith p ad.extra⟩

/-- The broadcast form with `mod = 00b`. -/
def formBcst00 (vl : VLen) (p : Prefixes) (d a : VReg) (ad : Addr00) (m : Writemask) (imm : Byte) : Form :=
  ⟨vl, false, p, d, a, .bcst (memRef00 ad), m, imm, lengthWith p ad.extra⟩

/-- The broadcast form with `mod = 01b`. -/
def formBcst01 (vl : VLen) (p : Prefixes) (d a : VReg) (ad : AddrDisp 8) (m : Writemask) (imm : Byte) : Form :=
  ⟨vl, false, p, d, a, .bcst (memRef01 (dispScale vl true) ad), m, imm, lengthWith p ad.extra⟩

/-- The broadcast form with `mod = 10b`. -/
def formBcst10 (vl : VLen) (p : Prefixes) (d a : VReg) (ad : AddrDisp 32) (m : Writemask) (imm : Byte) : Form :=
  ⟨vl, false, p, d, a, .bcst (memRef10 ad), m, imm, lengthWith p ad.extra⟩

end Sys2Proof.Machine
end

