-- ==== Sys2Proof/Machine/Xmm.lean ====
section
/-! DEFINITION. The 128-bit forms of VRANGEPD (40_vrangepd.md R92), one meaning for each row of the opcode table. -/

namespace Sys2Proof.Machine

/-- `VRANGEPD xmm1 {k1}{z}, xmm2, xmm3, imm8` (R92). -/
def execXmmReg (p : Prefixes) (d a b : VReg) (m : Writemask) (imm : Byte) (s : State) :
    Host.Outcome State Fault Refusal :=
  vrangepd (formReg .v128 false p d a b m imm) s

/-- `VRANGEPD xmm1 {k1}{z}, xmm2, m128, imm8`, `mod = 00b` (R92). -/
def execXmmMem00 (p : Prefixes) (d a : VReg) (ad : Addr00) (m : Writemask) (imm : Byte) (s : State) :
    Host.Outcome State Fault Refusal :=
  vrangepd (formMem00 .v128 p d a ad m imm) s

/-- `VRANGEPD xmm1 {k1}{z}, xmm2, m128, imm8`, `mod = 01b` (R92). -/
def execXmmMem01 (p : Prefixes) (d a : VReg) (ad : AddrDisp 8) (m : Writemask) (imm : Byte) (s : State) :
    Host.Outcome State Fault Refusal :=
  vrangepd (formMem01 .v128 p d a ad m imm) s

/-- `VRANGEPD xmm1 {k1}{z}, xmm2, m128, imm8`, `mod = 10b` (R92). -/
def execXmmMem10 (p : Prefixes) (d a : VReg) (ad : AddrDisp 32) (m : Writemask) (imm : Byte) (s : State) :
    Host.Outcome State Fault Refusal :=
  vrangepd (formMem10 .v128 p d a ad m imm) s

/-- `VRANGEPD xmm1 {k1}{z}, xmm2, m64bcst, imm8`, `mod = 00b` (R92). -/
def execXmmBcst00 (p : Prefixes) (d a : VReg) (ad : Addr00) (m : Writemask) (imm : Byte) (s : State) :
    Host.Outcome State Fault Refusal :=
  vrangepd (formBcst00 .v128 p d a ad m imm) s

/-- `VRANGEPD xmm1 {k1}{z}, xmm2, m64bcst, imm8`, `mod = 01b` (R92). -/
def execXmmBcst01 (p : Prefixes) (d a : VReg) (ad : AddrDisp 8) (m : Writemask) (imm : Byte) (s : State) :
    Host.Outcome State Fault Refusal :=
  vrangepd (formBcst01 .v128 p d a ad m imm) s

/-- `VRANGEPD xmm1 {k1}{z}, xmm2, m64bcst, imm8`, `mod = 10b` (R92). -/
def execXmmBcst10 (p : Prefixes) (d a : VReg) (ad : AddrDisp 32) (m : Writemask) (imm : Byte) (s : State) :
    Host.Outcome State Fault Refusal :=
  vrangepd (formBcst10 .v128 p d a ad m imm) s

end Sys2Proof.Machine
end

