-- ==== Sys2Proof/Machine/Ymm.lean ====
section
/-! DEFINITION. The 256-bit forms of VRANGEPD (40_vrangepd.md R93), one meaning for each row of the opcode table. -/

namespace Sys2Proof.Machine

/-- `VRANGEPD ymm1 {k1}{z}, ymm2, ymm3, imm8` (R93). -/
def execYmmReg (p : Prefixes) (d a b : VReg) (m : Writemask) (imm : Byte) (s : State) :
    Host.Outcome State Fault Refusal :=
  vrangepd (formReg .v256 false p d a b m imm) s

/-- `VRANGEPD ymm1 {k1}{z}, ymm2, m256, imm8`, `mod = 00b` (R93). -/
def execYmmMem00 (p : Prefixes) (d a : VReg) (ad : Addr00) (m : Writemask) (imm : Byte) (s : State) :
    Host.Outcome State Fault Refusal :=
  vrangepd (formMem00 .v256 p d a ad m imm) s

/-- `VRANGEPD ymm1 {k1}{z}, ymm2, m256, imm8`, `mod = 01b` (R93). -/
def execYmmMem01 (p : Prefixes) (d a : VReg) (ad : AddrDisp 8) (m : Writemask) (imm : Byte) (s : State) :
    Host.Outcome State Fault Refusal :=
  vrangepd (formMem01 .v256 p d a ad m imm) s

/-- `VRANGEPD ymm1 {k1}{z}, ymm2, m256, imm8`, `mod = 10b` (R93). -/
def execYmmMem10 (p : Prefixes) (d a : VReg) (ad : AddrDisp 32) (m : Writemask) (imm : Byte) (s : State) :
    Host.Outcome State Fault Refusal :=
  vrangepd (formMem10 .v256 p d a ad m imm) s

/-- `VRANGEPD ymm1 {k1}{z}, ymm2, m64bcst, imm8`, `mod = 00b` (R93). -/
def execYmmBcst00 (p : Prefixes) (d a : VReg) (ad : Addr00) (m : Writemask) (imm : Byte) (s : State) :
    Host.Outcome State Fault Refusal :=
  vrangepd (formBcst00 .v256 p d a ad m imm) s

/-- `VRANGEPD ymm1 {k1}{z}, ymm2, m64bcst, imm8`, `mod = 01b` (R93). -/
def execYmmBcst01 (p : Prefixes) (d a : VReg) (ad : AddrDisp 8) (m : Writemask) (imm : Byte) (s : State) :
    Host.Outcome State Fault Refusal :=
  vrangepd (formBcst01 .v256 p d a ad m imm) s

/-- `VRANGEPD ymm1 {k1}{z}, ymm2, m64bcst, imm8`, `mod = 10b` (R93). -/
def execYmmBcst10 (p : Prefixes) (d a : VReg) (ad : AddrDisp 32) (m : Writemask) (imm : Byte) (s : State) :
    Host.Outcome State Fault Refusal :=
  vrangepd (formBcst10 .v256 p d a ad m imm) s

end Sys2Proof.Machine
end

