-- ==== Sys2Proof/Machine/Zmm.lean ====
section
/-! DEFINITION. The 512-bit forms of VRANGEPD (40_vrangepd.md R94, R95), one meaning for each row of the opcode table. -/

namespace Sys2Proof.Machine

/-- `VRANGEPD zmm1 {k1}{z}, zmm2, zmm3, imm8` (R94). -/
def execZmmReg (p : Prefixes) (d a b : VReg) (m : Writemask) (imm : Byte) (s : State) :
    Host.Outcome State Fault Refusal :=
  vrangepd (formReg .v512 false p d a b m imm) s

/-- `VRANGEPD zmm1 {k1}{z}, zmm2, m512, imm8`, `mod = 00b` (R94). -/
def execZmmMem00 (p : Prefixes) (d a : VReg) (ad : Addr00) (m : Writemask) (imm : Byte) (s : State) :
    Host.Outcome State Fault Refusal :=
  vrangepd (formMem00 .v512 p d a ad m imm) s

/-- `VRANGEPD zmm1 {k1}{z}, zmm2, m512, imm8`, `mod = 01b` (R94). -/
def execZmmMem01 (p : Prefixes) (d a : VReg) (ad : AddrDisp 8) (m : Writemask) (imm : Byte) (s : State) :
    Host.Outcome State Fault Refusal :=
  vrangepd (formMem01 .v512 p d a ad m imm) s

/-- `VRANGEPD zmm1 {k1}{z}, zmm2, m512, imm8`, `mod = 10b` (R94). -/
def execZmmMem10 (p : Prefixes) (d a : VReg) (ad : AddrDisp 32) (m : Writemask) (imm : Byte) (s : State) :
    Host.Outcome State Fault Refusal :=
  vrangepd (formMem10 .v512 p d a ad m imm) s

/-- `VRANGEPD zmm1 {k1}{z}, zmm2, m64bcst, imm8`, `mod = 00b` (R94). -/
def execZmmBcst00 (p : Prefixes) (d a : VReg) (ad : Addr00) (m : Writemask) (imm : Byte) (s : State) :
    Host.Outcome State Fault Refusal :=
  vrangepd (formBcst00 .v512 p d a ad m imm) s

/-- `VRANGEPD zmm1 {k1}{z}, zmm2, m64bcst, imm8`, `mod = 01b` (R94). -/
def execZmmBcst01 (p : Prefixes) (d a : VReg) (ad : AddrDisp 8) (m : Writemask) (imm : Byte) (s : State) :
    Host.Outcome State Fault Refusal :=
  vrangepd (formBcst01 .v512 p d a ad m imm) s

/-- `VRANGEPD zmm1 {k1}{z}, zmm2, m64bcst, imm8`, `mod = 10b` (R94). -/
def execZmmBcst10 (p : Prefixes) (d a : VReg) (ad : AddrDisp 32) (m : Writemask) (imm : Byte) (s : State) :
    Host.Outcome State Fault Refusal :=
  vrangepd (formBcst10 .v512 p d a ad m imm) s

/-- `VRANGEPD zmm1 {k1}{z}, zmm2, zmm3{sae}, imm8` (R95). -/
def execZmmSae (p : Prefixes) (d a b : VReg) (m : Writemask) (imm : Byte) (s : State) :
    Host.Outcome State Fault Refusal :=
  vrangepd (formReg .v512 true p d a b m imm) s

end Sys2Proof.Machine
end

