-- ==== Sys2Proof/Machine/Dispatch.lean ====
section
/-! DEFINITION. One arm per constructor of Instr: the meaning of each row of the opcode table (30_encoding.md R73). -/

namespace Sys2Proof.Machine

def exec (i : Instr) (s : State) : Host.Outcome State Fault Refusal :=
  match i with
  | .xmmReg p d a b m imm => Sys2Proof.Machine.execXmmReg p d a b m imm s
  | .xmmMem00 p d a ad m imm => Sys2Proof.Machine.execXmmMem00 p d a ad m imm s
  | .xmmMem01 p d a ad m imm => Sys2Proof.Machine.execXmmMem01 p d a ad m imm s
  | .xmmMem10 p d a ad m imm => Sys2Proof.Machine.execXmmMem10 p d a ad m imm s
  | .xmmBcst00 p d a ad m imm => Sys2Proof.Machine.execXmmBcst00 p d a ad m imm s
  | .xmmBcst01 p d a ad m imm => Sys2Proof.Machine.execXmmBcst01 p d a ad m imm s
  | .xmmBcst10 p d a ad m imm => Sys2Proof.Machine.execXmmBcst10 p d a ad m imm s
  | .ymmReg p d a b m imm => Sys2Proof.Machine.execYmmReg p d a b m imm s
  | .ymmMem00 p d a ad m imm => Sys2Proof.Machine.execYmmMem00 p d a ad m imm s
  | .ymmMem01 p d a ad m imm => Sys2Proof.Machine.execYmmMem01 p d a ad m imm s
  | .ymmMem10 p d a ad m imm => Sys2Proof.Machine.execYmmMem10 p d a ad m imm s
  | .ymmBcst00 p d a ad m imm => Sys2Proof.Machine.execYmmBcst00 p d a ad m imm s
  | .ymmBcst01 p d a ad m imm => Sys2Proof.Machine.execYmmBcst01 p d a ad m imm s
  | .ymmBcst10 p d a ad m imm => Sys2Proof.Machine.execYmmBcst10 p d a ad m imm s
  | .zmmReg p d a b m imm => Sys2Proof.Machine.execZmmReg p d a b m imm s
  | .zmmMem00 p d a ad m imm => Sys2Proof.Machine.execZmmMem00 p d a ad m imm s
  | .zmmMem01 p d a ad m imm => Sys2Proof.Machine.execZmmMem01 p d a ad m imm s
  | .zmmMem10 p d a ad m imm => Sys2Proof.Machine.execZmmMem10 p d a ad m imm s
  | .zmmBcst00 p d a ad m imm => Sys2Proof.Machine.execZmmBcst00 p d a ad m imm s
  | .zmmBcst01 p d a ad m imm => Sys2Proof.Machine.execZmmBcst01 p d a ad m imm s
  | .zmmBcst10 p d a ad m imm => Sys2Proof.Machine.execZmmBcst10 p d a ad m imm s
  | .zmmSae p d a b m imm => Sys2Proof.Machine.execZmmSae p d a b m imm s

end Sys2Proof.Machine
end

