-- ==== Sys2Proof/Machine/Fetch.lean ====
section
/-! DEFINITION. Fetching the instruction at the program counter (20_memory.md R40; 30_encoding.md R50, R69), and placing an
instruction there for a launch. -/

namespace Sys2Proof.Machine

/-- What a fetch that raised nothing found. -/
inductive Fetched where
  | instr (i : Instr)
  | invalid (imm : Byte)
  | notVrangepd
  | repeatedPrefix
deriving DecidableEq, Repr

/-- The bytes in memory from an address on, up to the first one outside memory and at most `n` (R40: "at most 15 bytes"). -/
def fetchWindow (m : Memory) : Nat → Word → List Byte
  | 0, _ => []
  | n + 1, a =>
    match Memory.read m a.toNat with
    | none => []
    | some v => v :: fetchWindow m n (a + 1#64)

/-- `Access(pc, len, CPL, fetch, CS)` (R40). -/
def fetchQuery (s : State) (n : Nat) : AccessQuery := ⟨s.pc, n, s.cpl, .fetch, .cs⟩

/-- A fetch of `n` bytes that finds `f`, unless `Access` denies one of them (R40, R118 step 1). -/
def fetched (s : State) (n : Nat) (f : Fetched) : Except Exn Fetched :=
  match accessAnswer s (fetchQuery s n) with
  | some x => .error x
  | none => .ok f

/-- A fetch whose bytes end inside the instruction raises what `Access(pc, need, CPL, fetch, CS)` names: `need` is the
instruction's length where the bytes there determine it (R40, R69). One of them is outside the domain of memory, so that
`Access` denies; an instruction that needs a byte beyond the 15th would raise `#GP(0)` (R69, R115), which none does. -/
def fetchTruncated (s : State) (need : Nat) : Exn := (accessAnswer s (fetchQuery s need)).getD .gp0

/-- Fetch and decode the bytes at `pc`, "up to the length the decoder determines" (R40); bytes that are no candidate are
asked for only as far as the decoder looked (log 19). -/
def fetch (s : State) : Except Exn Fetched :=
  let w := fetchWindow s.mem Config.maxInstrBytes s.pc
  match decode w with
  | .ok i _ => fetched s i.length (.instr i)
  | .invalid _ imm rest => fetched s (w.length - rest.length) (.invalid imm)
  | .notVrangepd seen => fetched s seen .notVrangepd
  | .repeatedPrefix seen => fetched s seen .repeatedPrefix
  | .truncated need => .error (fetchTruncated s need)

/-- An invalid candidate: the imm8 refusal of R68 comes first (R97 step 1), then `#UD` (R71, R97 step 2). -/
def execInvalid (imm : Byte) (s : State) : Host.Outcome State Fault Refusal :=
  if imm8Refused s imm then .refused .imm8HighNonzero else raise .ud s

/-- "A run ends with `Done` when `pc` equals the launch parameter `END`" (D22). -/
def runDone (s : State) : Bool := s.params.endAt == some s.pc

/-! ## Launch (70_reset_and_hazards.md R141) -/

/-- A rule of the access table without its part about fetches. -/
def dataPart (r : AccessRule) : Option AccessRule :=
  match r.kind with
  | some .fetch => none
  | some .data => some r
  | none => some { r with kind := some .data }

/-- The enabling state that software sets before VRANGEPD executes: CR4.OSXSAVE, the five XCR0 bits, CR0.TS clear (R141 rows
3 to 5). The CPUID flags are the part's and stay. -/
def launchEnv (e : Env) : Env := { e with cr4Osxsave := true, xcr0 := e.xcr0 ||| xcr0Needed, cr0Ts := false }

/-- The launch that brings a machine to its first instruction: 64-bit mode and the enabling state of R141 rows 1 and 3 to 5,
no end of run yet, and the program's bytes open to the fetch (R141 row 8). Nothing else changes (log 1). -/
def launched (s : State) : State :=
  { s with
    mode := .bits64
    env := launchEnv s.env
    params := { s.params with access := s.params.access.filterMap dataPart, endAt := none } }

/-- Put bytes into memory at the program counter. -/
def placeAtPc (s : State) (bs : List Byte) : State := { s with mem := Memory.writeBytes s.mem s.pc bs }

end Sys2Proof.Machine
end

