-- ==== Sys2Proof/Machine/Step.lean ====
section
/-! DEFINITION. One step of the machine (40_vrangepd.md R97) and the host's way to place an instruction. -/

namespace Sys2Proof.Machine

/-- One step. A launch state outside 64-bit mode is refused (70_reset_and_hazards.md R141 row 1, D1). A run that is `Done`
stays as it is (D22, log 12). Otherwise the instruction at `pc` is fetched and decoded, which may raise (R118 step 1) or be
refused (R70, R72), and executed. -/
def step (s : State) : Host.Outcome State Fault Refusal :=
  if s.mode ≠ .bits64 then .refused .notIn64BitMode
  else if runDone s then .next s
  else
    match fetch s with
    | .error x => raise x s
    | .ok (.instr i) => exec i s
    | .ok (.invalid imm) => execInvalid imm s
    | .ok .notVrangepd => .refused .notVrangepd
    | .ok .repeatedPrefix => .refused .repeatedPrefix

/-- `s` launched with the table word `w` (zeros above its `nbits` bits, up to 14 bytes) at its program counter, so that the
next step fetches and runs exactly that instruction (log 1, 20). -/
def State.withFetchWord (s : State) (nbits w : Nat) : State := placeAtPc (launched s) (tableWordBytes nbits w)

end Sys2Proof.Machine
end

