-- ==== Sys2Proof/Safety.lean ====
section
/-! DEFINITION. The terms that claims use: when an instruction may execute, what a completed VRANGEPD leaves
(10_state.md R22; 40_vrangepd.md R90, R91), and what the machine keeps. -/

namespace Sys2Proof.Machine

/-! ## Outcomes -/

/-- The next state of an outcome, if it is one. -/
def nextOf (o : Host.Outcome State Fault Refusal) : Option State :=
  match o with
  | .next s => some s
  | .fault _ => none
  | .refused _ => none

/-- The fault of an outcome, if it is one. -/
def faultOf (o : Host.Outcome State Fault Refusal) : Option Fault :=
  match o with
  | .next _ => none
  | .fault f => some f
  | .refused _ => none

/-- The refusal of an outcome, if it is one. -/
def refusalOf (o : Host.Outcome State Fault Refusal) : Option Refusal :=
  match o with
  | .next _ => none
  | .fault _ => none
  | .refused r => some r

/-- What a fault records beside the state: vector number, error code and the CR2 value (R110, R119). -/
def faultInfo (f : Fault) : Nat × Option (BitVec 6) × Option Word := (f.vector, f.errorCode, f.cr2)

/-! ## Instructions as forms -/

/-- The form that each row of the opcode table is (R92 to R95). -/
def formOf : Instr → Form
  | .xmmReg p d a b m imm => formReg .v128 false p d a b m imm
  | .xmmMem00 p d a ad m imm => formMem00 .v128 p d a ad m imm
  | .xmmMem01 p d a ad m imm => formMem01 .v128 p d a ad m imm
  | .xmmMem10 p d a ad m imm => formMem10 .v128 p d a ad m imm
  | .xmmBcst00 p d a ad m imm => formBcst00 .v128 p d a ad m imm
  | .xmmBcst01 p d a ad m imm => formBcst01 .v128 p d a ad m imm
  | .xmmBcst10 p d a ad m imm => formBcst10 .v128 p d a ad m imm
  | .ymmReg p d a b m imm => formReg .v256 false p d a b m imm
  | .ymmMem00 p d a ad m imm => formMem00 .v256 p d a ad m imm
  | .ymmMem01 p d a ad m imm => formMem01 .v256 p d a ad m imm
  | .ymmMem10 p d a ad m imm => formMem10 .v256 p d a ad m imm
  | .ymmBcst00 p d a ad m imm => formBcst00 .v256 p d a ad m imm
  | .ymmBcst01 p d a ad m imm => formBcst01 .v256 p d a ad m imm
  | .ymmBcst10 p d a ad m imm => formBcst10 .v256 p d a ad m imm
  | .zmmReg p d a b m imm => formReg .v512 false p d a b m imm
  | .zmmMem00 p d a ad m imm => formMem00 .v512 p d a ad m imm
  | .zmmMem01 p d a ad m imm => formMem01 .v512 p d a ad m imm
  | .zmmMem10 p d a ad m imm => formMem10 .v512 p d a ad m imm
  | .zmmBcst00 p d a ad m imm => formBcst00 .v512 p d a ad m imm
  | .zmmBcst01 p d a ad m imm => formBcst01 .v512 p d a ad m imm
  | .zmmBcst10 p d a ad m imm => formBcst10 .v512 p d a ad m imm
  | .zmmSae p d a b m imm => formReg .v512 true p d a b m imm

/-- The same instruction with `imm8[7:4]` set to 0000b: what `IMM8_HI_POLICY = ignore` executes (R68). -/
def lowImm : Instr → Instr
  | .xmmReg p d a b m imm => .xmmReg p d a b m (imm &&& 0x0F#8)
  | .xmmMem00 p d a ad m imm => .xmmMem00 p d a ad m (imm &&& 0x0F#8)
  | .xmmMem01 p d a ad m imm => .xmmMem01 p d a ad m (imm &&& 0x0F#8)
  | .xmmMem10 p d a ad m imm => .xmmMem10 p d a ad m (imm &&& 0x0F#8)
  | .xmmBcst00 p d a ad m imm => .xmmBcst00 p d a ad m (imm &&& 0x0F#8)
  | .xmmBcst01 p d a ad m imm => .xmmBcst01 p d a ad m (imm &&& 0x0F#8)
  | .xmmBcst10 p d a ad m imm => .xmmBcst10 p d a ad m (imm &&& 0x0F#8)
  | .ymmReg p d a b m imm => .ymmReg p d a b m (imm &&& 0x0F#8)
  | .ymmMem00 p d a ad m imm => .ymmMem00 p d a ad m (imm &&& 0x0F#8)
  | .ymmMem01 p d a ad m imm => .ymmMem01 p d a ad m (imm &&& 0x0F#8)
  | .ymmMem10 p d a ad m imm => .ymmMem10 p d a ad m (imm &&& 0x0F#8)
  | .ymmBcst00 p d a ad m imm => .ymmBcst00 p d a ad m (imm &&& 0x0F#8)
  | .ymmBcst01 p d a ad m imm => .ymmBcst01 p d a ad m (imm &&& 0x0F#8)
  | .ymmBcst10 p d a ad m imm => .ymmBcst10 p d a ad m (imm &&& 0x0F#8)
  | .zmmReg p d a b m imm => .zmmReg p d a b m (imm &&& 0x0F#8)
  | .zmmMem00 p d a ad m imm => .zmmMem00 p d a ad m (imm &&& 0x0F#8)
  | .zmmMem01 p d a ad m imm => .zmmMem01 p d a ad m (imm &&& 0x0F#8)
  | .zmmMem10 p d a ad m imm => .zmmMem10 p d a ad m (imm &&& 0x0F#8)
  | .zmmBcst00 p d a ad m imm => .zmmBcst00 p d a ad m (imm &&& 0x0F#8)
  | .zmmBcst01 p d a ad m imm => .zmmBcst01 p d a ad m (imm &&& 0x0F#8)
  | .zmmBcst10 p d a ad m imm => .zmmBcst10 p d a ad m (imm &&& 0x0F#8)
  | .zmmSae p d a b m imm => .zmmSae p d a b m (imm &&& 0x0F#8)

/-! ## When an instruction may execute -/

/-- The launch requirements 2 to 5 of R141 for a form of this vector length: it raises neither `#UD` nor `#NM` at
decode time. -/
def launchReady (s : State) (vl : VLen) : Bool := enabled s.env vl && !s.env.cr0Ts

/-- The prerequisites of every form that do not concern its operands' values: a valid writemask (R66, R71), an imm8 that the
policy accepts (R68) and the launch requirements (R141). -/
def mayExecute (s : State) (vl : VLen) (m : Writemask) (imm : Byte) : Prop :=
  m.wellFormed = true ∧ imm8Refused s imm = false ∧ launchReady s vl = true

/-- `Access` lets the `n` bytes at `a` be read as an operand (R32, R141 row 8). -/
def operandReadable (s : State) (p : Prefixes) (r : MemRef) (a : Word) (n : Nat) : Prop :=
  accessAnswer s (dataQuery s p r a n) = none

/-! ## What a completed instruction leaves -/

/-- Element values: `RangeDP` on element `j` of `SRC1` and the given element of `SRC2` (R80, R90). -/
def rangeOf (s : State) (a : VReg) (imm : Byte) (src2 : Nat → Word) (j : Nat) : RangeOut :=
  rangeDP (elem (readZmm s a) j) (src2 j) (imm.extractLsb' 0 2) (imm.extractLsb' 2 2) (s.mxcsr.getLsbD 6)

/-- The eight bytes at a linear address, lowest address least significant (R31). -/
def wordAt (m : Memory) (a : Word) : Word :=
  let b := fun i : Nat => (Memory.read m (a + BitVec.ofNat 64 i).toNat).getD 0#8
  b 7 ++ b 6 ++ b 5 ++ b 4 ++ b 3 ++ b 2 ++ b 1 ++ b 0

/-- Some active element below `KL` has the property: what is OR-ed over the active elements (R90, R111). -/
def detected (s : State) (vl : VLen) (m : Writemask) (cond : Nat → Bool) : Prop :=
  ∃ j, j < elems vl ∧ maskBit s m j = true ∧ cond j = true

/-- A detected condition is unmasked: `(IEall = 1 and MXCSR.IM = 0) or (DEall = 1 and MXCSR.DM = 0)` (R91). -/
def unmaskedDetected (s : State) (vl : VLen) (m : Writemask) (out : Nat → RangeOut) : Prop :=
  (detected s vl m (fun j => (out j).ie) ∧ mxIM s.mxcsr = false) ∨
  (detected s vl m (fun j => (out j).de) ∧ mxDM s.mxcsr = false)

/-- Every component of the state but the vector registers, MXCSR and `pc` is as before (R22). -/
structure SameElsewhere (s t : State) : Prop where
  k : t.k = s.k
  x : t.x = s.x
  fsbase : t.fsbase = s.fsbase
  gsbase : t.gsbase = s.gsbase
  rflagsAC : t.rflagsAC = s.rflagsAC
  cpl : t.cpl = s.cpl
  memory : ∀ a, Memory.read t.mem a = Memory.read s.mem a
  mem : t.mem = s.mem
  mode : t.mode = s.mode
  env : t.env = s.env
  params : t.params = s.params

/-- MXCSR after an instruction that detected these conditions: IE and DE are OR-ed in, no other bit changes (R14, R91). -/
structure FlagsOred (s t : State) (ie de : Prop) : Prop where
  ie : mxIE t.mxcsr = true ↔ mxIE s.mxcsr = true ∨ ie
  de : mxDE t.mxcsr = true ↔ mxDE s.mxcsr = true ∨ de
  others : ∀ i, 2 ≤ i → t.mxcsr.getLsbD i = s.mxcsr.getLsbD i

/-- What a VRANGEPD of vector length `vl` with these element results leaves: the destination by the element loop (R90), 0
above `VL`, no other vector register, the sticky flags unless suppressed (R91, R95), `pc` past the instruction (R99), and
the frame (R22). -/
structure RangeResult (s t : State) (vl : VLen) (sae : Bool) (d : VReg) (m : Writemask) (len : Nat)
    (out : Nat → RangeOut) : Prop where
  active : ∀ j, j < elems vl → maskBit s m j = true → elem (readZmm t d) j = (out j).result
  merged : ∀ j, j < elems vl → maskBit s m j = false → m.z = false → elem (readZmm t d) j = elem (readZmm s d) j
  zeroed : ∀ j, j < elems vl → maskBit s m j = false → m.z = true → elem (readZmm t d) j = 0#64
  above : ∀ j, elems vl ≤ j → j < 8 → elem (readZmm t d) j = 0#64
  otherRegs : ∀ r, r ≠ d → readZmm t r = readZmm s r
  flags : FlagsOred s t (sae = false ∧ detected s vl m (fun j => (out j).ie))
    (sae = false ∧ detected s vl m (fun j => (out j).de))
  pc : t.pc = s.pc + BitVec.ofNat 64 len
  same : SameElsewhere s t

/-- The claim that an instruction completes with that result. -/
def completesWith (i : Instr) (s : State) (vl : VLen) (sae : Bool) (d : VReg) (m : Writemask)
    (out : Nat → RangeOut) : Prop :=
  ∃ t, exec i s = .next t ∧ RangeResult s t vl sae d m i.length out

/-- The state of a floating-point fault: only MXCSR differs, with the flag of every detected condition set (R112, R120). -/
structure FlaggedOnly (s t : State) (ie de : Prop) : Prop where
  flags : FlagsOred s t ie de
  zmm : t.zmm = s.zmm
  pc : t.pc = s.pc
  same : SameElsewhere s t

/-! ## What the machine keeps -/

/-- The invariant of the machine: memory in its canonical form, and the reserved bits of MXCSR zero (R14, R141 row 7). -/
def MachineInv (s : State) : Prop := Memory.wf s.mem = true ∧ mxReserved s.mxcsr = 0#16

end Sys2Proof.Machine
end

