-- ==== Sys2Proof/Certificates/Slice0/Obligations.lean ====
section
/-! DEFINITION. The statements about the machine, each with the rule of spec/ it rests on. "Log <n>" is
notes/assumptions/<n>.md. -/

open Sys2Proof Sys2Proof.Machine

/-! ## Encoding -/

/-- Decoding the bytes of a well-formed instruction gives it back, whatever follows (R50 to R73). -/
def Obligations.DecodeInvertsEncode : Prop :=
  ∀ (i : Instr) (rest : List Byte), i.wellFormed = true → decode (encode i ++ rest) = .ok i rest

/-- The encoder writes as many bytes as R69 counts. -/
def Obligations.EncodedLengthIsInstructionLength : Prop :=
  ∀ i : Instr, (encode i).length = i.length

/-- The decoder answers only well-formed instructions (R60, R66, R71). -/
def Obligations.DecodedInstructionIsWellFormed : Prop :=
  ∀ (bs : List Byte) (i : Instr) (rest : List Byte), decode bs = .ok i rest → i.wellFormed = true

/-- The decoder takes exactly the bytes that R69 counts and leaves the others; given too few of them it asks for more, up to
at most that length (R40: "up to the length the decoder determines"). It asks for the whole of it once the prefixes and the
six bytes to ModRM are there, unless ModRM has `mod = 00b` and `rm = 100b`: then once the SIB byte is there too. -/
def Obligations.DecodeTakesExactlyTheLength : Prop :=
  (∀ (bs : List Byte) (i : Instr) (rest : List Byte), decode bs = .ok i rest →
    bs.length = i.length + rest.length ∧ bs.drop i.length = rest) ∧
  (∀ (bs ext : List Byte) (i : Instr) (rest : List Byte), decode (bs ++ ext) = .ok i rest → bs.length < i.length →
    ∃ need, decode bs = .truncated need ∧ bs.length < need ∧ need ≤ i.length ∧
      ((formOf i).pre.count + 7 ≤ bs.length → need = i.length) ∧
      (∀ modrm, bs[(formOf i).pre.count + 5]? = some modrm → modrm &&& 0xC7#8 ≠ 0x04#8 → need = i.length))

/-- The six bytes after the prefixes match the instruction's row of the opcode table, first byte most significant (R73). -/
def Obligations.EncodingMatchesItsOpcodeRow : Prop :=
  ∀ i : Instr, ∃ pre six tail : List Byte, encode i = pre ++ six ++ tail ∧ pre.length ≤ 2 ∧ six.length = 6 ∧
    bigEndian six &&& i.row.1 = i.row.2

/-- No 48-bit value belongs to two of the 22 rows of the opcode table: a value that matches the rows of two instructions
matches one row, that of their one constructor (R73). -/
def Obligations.NoWordBelongsToTwoRows : Prop :=
  ∀ (i j : Instr) (w : Nat), w &&& i.row.1 = i.row.2 → w &&& j.row.1 = j.row.2 → i.ctorIdx = j.ctorIdx

/-- With no legacy prefix, five bytes are no VRANGEPD candidate exactly when they miss mask `FF 0F 87 00 FF`, match
`62 03 85 00 50` (R55, R72). -/
def Obligations.CandidateTestIsMaskAndMatch : Prop :=
  ∀ (e p0 p1 p2 op : Byte) (rest : List Byte), prefixClass e = .other →
    ((∃ n, decode (e :: p0 :: p1 :: p2 :: op :: rest) = .notVrangepd n) ↔
      bigEndian [e, p0, p1, p2, op] &&& 0xFF0F8700FF ≠ 0x6203850050)

/-- Register operands: the numbers are `R':R:reg`, `V':vvvv`, `X:B:rm` with the stored bits inverted; `b = 1` is the `{sae}`
form whatever `L'L` holds, and with `b = 0` `L'L` chooses the length or is reserved (R56 to R59, R71). -/
def Obligations.RegisterFormFieldsDecode : Prop :=
  ∀ (p0 p1 p2 : Byte) (reg rm : BitVec 3) (imm : Byte) (rest : List Byte),
    p0Ok p0 = true → p1Ok p1 = true → ¬ (p2.getLsbD 7 = true ∧ p2.extractLsb' 0 3 = 0#3) →
    ∃ (d a b : VReg) (k : KReg),
      d.val = (if p0.getLsbD 4 then 0 else 16) + (if p0.getLsbD 7 then 0 else 8) + reg.toNat ∧
      a.val = (if p2.getLsbD 3 then 0 else 16) + (15 - (p1.extractLsb' 3 4).toNat) ∧
      b.val = (if p0.getLsbD 6 then 0 else 16) + (if p0.getLsbD 5 then 0 else 8) + rm.toNat ∧
      k.val = (p2.extractLsb' 0 3).toNat ∧
      decode (0x62#8 :: p0 :: p1 :: p2 :: 0x50#8 :: (0b11#2 ++ reg ++ rm) :: imm :: rest) =
        if p2.getLsbD 4 then .ok (.zmmSae ⟨none, false⟩ d a b ⟨k, p2.getLsbD 7⟩ imm) rest
        else if p2.extractLsb' 5 2 = 0b00#2 then .ok (.xmmReg ⟨none, false⟩ d a b ⟨k, p2.getLsbD 7⟩ imm) rest
        else if p2.extractLsb' 5 2 = 0b01#2 then .ok (.ymmReg ⟨none, false⟩ d a b ⟨k, p2.getLsbD 7⟩ imm) rest
        else if p2.extractLsb' 5 2 = 0b10#2 then .ok (.zmmReg ⟨none, false⟩ d a b ⟨k, p2.getLsbD 7⟩ imm) rest
        else .invalid .reservedLength imm rest

/-- A candidate with a reserved EVEX setting, complete with operand 3 and imm8, is invalid (R71); six bytes after ModRM are
always enough (R69). -/
def Obligations.ReservedSettingsAreInvalid : Prop :=
  ∀ (p0 p1 p2 modrm : Byte) (bs : List Byte), p0Ok p0 = true → p1Ok p1 = true →
    ((p2.extractLsb' 5 2 = 0b11#2 ∧ ¬ (modrm.extractLsb' 6 2 = 0b11#2 ∧ p2.getLsbD 4 = true)) ∨
      (p2.getLsbD 7 = true ∧ p2.extractLsb' 0 3 = 0#3)) →
    (∀ rm imm rest, decodeRM (!p0.getLsbD 6) (!p0.getLsbD 5) (modrm.extractLsb' 6 2) (modrm.extractLsb' 0 3) bs =
        some (rm, imm :: rest) →
      ∃ why, decode (0x62#8 :: p0 :: p1 :: p2 :: 0x50#8 :: modrm :: bs) = .invalid why imm rest) ∧
    (6 ≤ bs.length →
      ∃ why imm rest, decode (0x62#8 :: p0 :: p1 :: p2 :: 0x50#8 :: modrm :: bs) = .invalid why imm rest)

/-- LOCK, 66h, F2h or F3h before an instruction, or a REX byte immediately before its EVEX byte, makes it invalid, with the
instruction's own imm8 (R70, R71). The first clause has no other prefix. That admitted prefixes beside the illegal one,
before it (second clause) or after it (third), change nothing is the model's reading of R70 (log 15). -/
def Obligations.IllegalPrefixMakesInvalid : Prop :=
  ∀ (i : Instr) (x : Byte), i.wellFormed = true →
    let illegal := x = 0xF0#8 ∨ x = 0x66#8 ∨ x = 0xF2#8 ∨ x = 0xF3#8
    let rex := x.extractLsb' 4 4 = 0x4#4
    ((formOf i).pre = ⟨none, false⟩ → illegal ∨ rex →
      decode (x :: encode i) = .invalid .illegalPrefix (formOf i).imm []) ∧
    (∀ p : Prefixes, (formOf i).pre = ⟨none, false⟩ → illegal ∨ rex →
      decode (p.bytes ++ x :: encode i) = .invalid .illegalPrefix (formOf i).imm []) ∧
    (illegal → decode (x :: encode i) = .invalid .illegalPrefix (formOf i).imm [])

/-- Two segment overrides or two `67h` are refused, adjacent or not, whatever follows; one of each, in either order, or one
alone, before an instruction without prefixes gives that instruction with these prefixes (R70). That the refusal also comes
where what follows is no candidate is the model's choice (log 15). -/
def Obligations.RepeatedPrefixesAreRefused : Prop :=
  (∀ (g h : SegPrefix) (bs : List Byte),
    decode (g.byte :: h.byte :: bs) = .repeatedPrefix 2 ∧
    decode (0x67#8 :: 0x67#8 :: bs) = .repeatedPrefix 2 ∧
    decode (g.byte :: 0x67#8 :: h.byte :: bs) = .repeatedPrefix 3 ∧
    decode (0x67#8 :: g.byte :: h.byte :: bs) = .repeatedPrefix 3 ∧
    decode (0x67#8 :: g.byte :: 0x67#8 :: bs) = .repeatedPrefix 3 ∧
    decode (g.byte :: 0x67#8 :: 0x67#8 :: bs) = .repeatedPrefix 3 ∧
    decode (g.byte :: 0x67#8 :: bs) = decode (0x67#8 :: g.byte :: bs)) ∧
  (∀ (g : SegPrefix) (i : Instr) (rest : List Byte), i.wellFormed = true → (formOf i).pre = ⟨none, false⟩ →
    (∃ j, formOf j = { formOf i with pre := ⟨some g, true⟩, len := (formOf i).len + 2 } ∧
      decode (g.byte :: 0x67#8 :: (encode i ++ rest)) = .ok j rest ∧
      decode (0x67#8 :: g.byte :: (encode i ++ rest)) = .ok j rest) ∧
    (∃ j, formOf j = { formOf i with pre := ⟨some g, false⟩, len := (formOf i).len + 1 } ∧
      decode (g.byte :: (encode i ++ rest)) = .ok j rest) ∧
    (∃ j, formOf j = { formOf i with pre := ⟨none, true⟩, len := (formOf i).len + 1 } ∧
      decode (0x67#8 :: (encode i ++ rest)) = .ok j rest))

/-- Five rows of 95_test_vectors.md T4, one for each kind of operand 3 and a prefixed one. -/
def Obligations.TestVectorBytesDecode : Prop :=
  decode [0x62#8, 0xF3#8, 0xED#8, 0x89#8, 0x50#8, 0xCB#8, 0x05#8] =
    .ok (.xmmReg ⟨none, false⟩ 1 2 3 ⟨1, true⟩ 0x05#8) [] ∧
  decode [0x62#8, 0x73#8, 0xED#8, 0x22#8, 0x50#8, 0x4C#8, 0x98#8, 0x02#8, 0x0B#8] =
    .ok (.ymmMem01 ⟨none, false⟩ 9 18 (.sib 0 (some ⟨3, 2#2⟩) 0x02#8) ⟨2, false⟩ 0x0B#8) [] ∧
  decode [0x62#8, 0x63#8, 0x95#8, 0x50#8, 0x50#8, 0x71#8, 0x01#8, 0x01#8] =
    .ok (.zmmBcst01 ⟨none, false⟩ 30 29 (.base 1 0x01#8) ⟨0, false⟩ 0x01#8) [] ∧
  decode [0x62#8, 0xF3#8, 0xED#8, 0x78#8, 0x50#8, 0xCB#8, 0x02#8] =
    .ok (.zmmSae ⟨none, false⟩ 1 2 3 ⟨0, false⟩ 0x02#8) [] ∧
  decode [0x67#8, 0x62#8, 0xF3#8, 0xED#8, 0x48#8, 0x50#8, 0x08#8, 0x02#8] =
    .ok (.zmmMem00 ⟨none, true⟩ 1 2 (.base 0) ⟨0, false⟩ 0x02#8) []

/-! ## The element function -/

/-- R81: a signaling NaN is quieted, the first source's first, with Invalid and no Denormal, whatever the controls and DAZ. -/
def Obligations.SignalingNaNIsQuieted : Prop :=
  ∀ (s1 s2 : Word) (cmp sc : BitVec 2) (daz : Bool),
    (isSNaN s1 = true → rangeDP s1 s2 cmp sc daz = ⟨s1 ||| 0x0008000000000000#64, true, false⟩) ∧
    (isSNaN s1 = false → isSNaN s2 = true → rangeDP s1 s2 cmp sc daz = ⟨s2 ||| 0x0008000000000000#64, true, false⟩)

/-- R89 (a), (b): when Invalid and Denormal are detected, and that never both for one element. -/
def Obligations.ElementConditions : Prop :=
  ∀ (s1 s2 : Word) (cmp sc : BitVec 2) (daz : Bool),
    ((rangeDP s1 s2 cmp sc daz).ie = true ↔ isSNaN s1 = true ∨ isSNaN s2 = true) ∧
    ((rangeDP s1 s2 cmp sc daz).de = true ↔ daz = false ∧ isSNaN s1 = false ∧ isSNaN s2 = false ∧
      ((isDenormal s1 = true ∧ isQNaN s2 = false) ∨ (isDenormal s2 = true ∧ isQNaN s1 = false))) ∧
    ¬ ((rangeDP s1 s2 cmp sc daz).ie = true ∧ (rangeDP s1 s2 cmp sc daz).de = true)

/-- R82: with DAZ a denormal is replaced by the zero of its sign for every later step, which is `RangeDP` without DAZ on the
substituted operands, and no Denormal is signalled; without DAZ Denormal is signalled for a denormal whose other operand is
no quiet NaN, when neither operand is signaling. -/
def Obligations.DazReplacesDenormalsFirst : Prop :=
  ∀ (s1 s2 a b : Word) (cmp sc : BitVec 2),
    a = (if isDenormal s1 then BitVec.ofBool (s1.getLsbD 63) ++ 0#63 else s1) →
    b = (if isDenormal s2 then BitVec.ofBool (s2.getLsbD 63) ++ 0#63 else s2) →
    rangeDP s1 s2 cmp sc true = rangeDP a b cmp sc false ∧ (rangeDP s1 s2 cmp sc true).de = false ∧
    (isSNaN s1 = false → isSNaN s2 = false →
      ((rangeDP s1 s2 cmp sc false).de = true ↔
        (isDenormal s1 = true ∧ isQNaN s2 = false) ∨ (isDenormal s2 = true ∧ isQNaN s1 = false)))

/-- R83: with a quiet NaN and no signaling one the compare result is the substituted other operand, the first of two quiet
NaNs; no Invalid; and the sign selection applies to it, so that `sc = 00b` takes the sign of the first source. -/
def Obligations.QuietNaNGivesTheOtherOperand : Prop :=
  ∀ (s1 s2 tmp : Word) (cmp : BitVec 2) (daz : Bool), isSNaN s1 = false → isSNaN s2 = false →
    (isQNaN s2 = true ∧ tmp = dazOperand daz s1 ∨
      isQNaN s2 = false ∧ isQNaN s1 = true ∧ tmp = dazOperand daz s2) →
    (∀ sc, (rangeDP s1 s2 cmp sc daz).ie = false) ∧
    (rangeDP s1 s2 cmp 0b00#2 daz).result = BitVec.ofBool (s1.getLsbD 63) ++ tmp.extractLsb' 0 63 ∧
    (rangeDP s1 s2 cmp 0b01#2 daz).result = tmp ∧
    (rangeDP s1 s2 cmp 0b10#2 daz).result = 0b0#1 ++ tmp.extractLsb' 0 63 ∧
    (rangeDP s1 s2 cmp 0b11#2 daz).result = 0b1#1 ++ tmp.extractLsb' 0 63

/-- R84, Table 5-20: opposite-signed zeros, after the DAZ substitution, compare to -0 for MIN and MIN_ABS and to +0 for MAX
and MAX_ABS. The compare result is read off with `sc = 01b`. -/
def Obligations.OppositeZerosFollowTable520 : Prop :=
  ∀ (s1 s2 : Word) (cmp : BitVec 2) (daz : Bool), isNaN s1 = false → isNaN s2 = false →
    fmag (dazOperand daz s1) = 0#63 → fmag (dazOperand daz s2) = 0#63 → s1.getLsbD 63 ≠ s2.getLsbD 63 →
    (rangeDP s1 s2 cmp 0b01#2 daz).result =
      if cmp = 0b00#2 ∨ cmp = 0b10#2 then 0x8000000000000000#64 else 0#64

/-- R85, Table 5-21: for operands of equal non-zero magnitude and opposite sign MIN_ABS gives the negative one and MAX_ABS the
positive one, whichever position they have; MIN and MAX, compared in the ordinary way (R86), give the same two. -/
def Obligations.OppositeEqualsFollowTable521 : Prop :=
  ∀ (s1 s2 a b : Word) (daz : Bool), isNaN s1 = false → isNaN s2 = false →
    a = dazOperand daz s1 → b = dazOperand daz s2 →
    fmag a = fmag b → fmag a ≠ 0#63 → a.getLsbD 63 = false → b.getLsbD 63 = true →
    (rangeDP s1 s2 0b10#2 0b01#2 daz).result = b ∧ (rangeDP s1 s2 0b11#2 0b01#2 daz).result = a ∧
    (rangeDP s2 s1 0b10#2 0b01#2 daz).result = b ∧ (rangeDP s2 s1 0b11#2 0b01#2 daz).result = a ∧
    (rangeDP s1 s2 0b00#2 0b01#2 daz).result = b ∧ (rangeDP s1 s2 0b01#2 0b01#2 daz).result = a ∧
    (rangeDP s2 s1 0b00#2 0b01#2 daz).result = b ∧ (rangeDP s2 s1 0b01#2 0b01#2 daz).result = a

/-- R84 to R86 together: without NaNs the compare result has the smaller or larger key for MIN and MAX, and the smaller or
larger magnitude for MIN_ABS and MAX_ABS, and is one of the two operands or a zero. -/
def Obligations.CompareResultIsMinOrMax : Prop :=
  ∀ (s1 s2 a b : Word) (daz : Bool), isNaN s1 = false → isNaN s2 = false →
    a = dazOperand daz s1 → b = dazOperand daz s2 →
    fkey (rangeDP s1 s2 0b00#2 0b01#2 daz).result = min (fkey a) (fkey b) ∧
    fkey (rangeDP s1 s2 0b01#2 0b01#2 daz).result = max (fkey a) (fkey b) ∧
    (fmag (rangeDP s1 s2 0b10#2 0b01#2 daz).result).toNat = min (fmag a).toNat (fmag b).toNat ∧
    (fmag (rangeDP s1 s2 0b11#2 0b01#2 daz).result).toNat = max (fmag a).toNat (fmag b).toNat ∧
    ∀ cmp : BitVec 2, (rangeDP s1 s2 cmp 0b01#2 daz).result = a ∨ (rangeDP s1 s2 cmp 0b01#2 daz).result = b

/-- R87: without a signaling NaN the sign selection replaces bit 63 of the compare result `TMP` (which `sc = 01b` returns) by
the first source's sign, keeps it, clears it or sets it, and the magnitude is that of `TMP`; with a signaling NaN the
selection is not applied. -/
def Obligations.SignSelectionReplacesOnlyTheSign : Prop :=
  ∀ (s1 s2 tmp : Word) (cmp : BitVec 2) (daz : Bool), tmp = (rangeDP s1 s2 cmp 0b01#2 daz).result →
    (isSNaN s1 = false → isSNaN s2 = false →
      (rangeDP s1 s2 cmp 0b00#2 daz).result = BitVec.ofBool (s1.getLsbD 63) ++ tmp.extractLsb' 0 63 ∧
      (rangeDP s1 s2 cmp 0b10#2 daz).result = 0b0#1 ++ tmp.extractLsb' 0 63 ∧
      (rangeDP s1 s2 cmp 0b11#2 daz).result = 0b1#1 ++ tmp.extractLsb' 0 63) ∧
    (isSNaN s1 = true ∨ isSNaN s2 = true → ∀ sc, (rangeDP s1 s2 cmp sc daz).result = tmp)

/-- R89 (c): without Invalid the result's magnitude is that of a (substituted) operand or zero; nothing is rounded. -/
def Obligations.NoNewMagnitudeIsProduced : Prop :=
  ∀ (s1 s2 : Word) (cmp sc : BitVec 2) (daz : Bool), (rangeDP s1 s2 cmp sc daz).ie = false →
    fmag (rangeDP s1 s2 cmp sc daz).result = fmag (dazOperand daz s1) ∨
    fmag (rangeDP s1 s2 cmp sc daz).result = fmag (dazOperand daz s2) ∨
    fmag (rangeDP s1 s2 cmp sc daz).result = 0#63

/-- R89 (d): the result is a NaN exactly when an operand is signaling or both are quiet, and then it is quiet; a single quiet
NaN never propagates. -/
def Obligations.NaNResultsOnlyFromNaNs : Prop :=
  ∀ (s1 s2 : Word) (cmp sc : BitVec 2) (daz : Bool),
    (isNaN (rangeDP s1 s2 cmp sc daz).result = true ↔
      isSNaN s1 = true ∨ isSNaN s2 = true ∨ (isQNaN s1 = true ∧ isQNaN s2 = true)) ∧
    isSNaN (rangeDP s1 s2 cmp sc daz).result = false

/-- R89 (f): without NaNs the compare result does not depend on the order of the operands. -/
def Obligations.CompareResultIsSymmetric : Prop :=
  ∀ (s1 s2 : Word) (cmp : BitVec 2) (daz : Bool), isNaN s1 = false → isNaN s2 = false →
    (rangeDP s1 s2 cmp 0b01#2 daz).result = (rangeDP s2 s1 cmp 0b01#2 daz).result

/-- R100, the source's clamp: `imm8 = 02h` against a positive normal bound `c`, with DAZ = 0. -/
def Obligations.ClampExample : Prop :=
  ∀ (s1 c : Word), isNormal c = true → c.getLsbD 63 = false →
    (isNaN s1 = false → (fmag s1).toNat < (fmag c).toNat →
      (rangeDP s1 c (cmpOf 0x02#8) (scOf 0x02#8) false).result = s1) ∧
    (isNaN s1 = false → (fmag c).toNat ≤ (fmag s1).toNat →
      (rangeDP s1 c (cmpOf 0x02#8) (scOf 0x02#8) false).result = BitVec.ofBool (s1.getLsbD 63) ++ c.extractLsb' 0 63) ∧
    (isQNaN s1 = true →
      (rangeDP s1 c (cmpOf 0x02#8) (scOf 0x02#8) false).result = BitVec.ofBool (s1.getLsbD 63) ++ c.extractLsb' 0 63) ∧
    (isSNaN s1 = true → (rangeDP s1 c (cmpOf 0x02#8) (scOf 0x02#8) false).result = quiet s1 ∧
      (rangeDP s1 c (cmpOf 0x02#8) (scOf 0x02#8) false).ie = true)

/-- R98: an element compared with itself gives that element (after DAZ) with the selected sign, or the quieted NaN. -/
def Obligations.SelfComparisonKeepsTheValue : Prop :=
  ∀ (v : Word) (cmp sc : BitVec 2) (daz : Bool),
    (isSNaN v = false → (rangeDP v v cmp sc daz).result = selectSign sc v (dazOperand daz v) ∧
      (rangeDP v v cmp sc daz).ie = false) ∧
    (isSNaN v = true → (rangeDP v v cmp sc daz).result = quiet v ∧ (rangeDP v v cmp sc daz).ie = true)

/-! ## Addresses -/

/-- R60, R62, with 64-bit addresses: the effective address of every address form; `mod = 01b` scales its displacement by `N`. -/
def Obligations.EffectiveAddressOfEveryForm : Prop :=
  ∀ (s : State) (sg : Option SegPrefix) (len n : Nat) (b : GReg) (g : GReg) (sc : BitVec 2) (d8 : BitVec 8)
    (d32 : BitVec 32),
    effectiveAddress s ⟨sg, false⟩ len (memRef00 (.base b)) = readX s b ∧
    effectiveAddress s ⟨sg, false⟩ len (memRef00 (.rip d32)) = s.pc + BitVec.ofNat 64 len + d32.signExtend 64 ∧
    effectiveAddress s ⟨sg, false⟩ len (memRef00 (.sib b none)) = readX s b ∧
    effectiveAddress s ⟨sg, false⟩ len (memRef00 (.sib b (some ⟨g, sc⟩))) = readX s b + readX s g <<< sc.toNat ∧
    effectiveAddress s ⟨sg, false⟩ len (memRef00 (.sibNoBase none d32)) = d32.signExtend 64 ∧
    effectiveAddress s ⟨sg, false⟩ len (memRef00 (.sibNoBase (some ⟨g, sc⟩) d32)) =
      readX s g <<< sc.toNat + d32.signExtend 64 ∧
    effectiveAddress s ⟨sg, false⟩ len (memRef01 n (.base b d8)) =
      readX s b + d8.signExtend 64 * BitVec.ofNat 64 n ∧
    effectiveAddress s ⟨sg, false⟩ len (memRef01 n (.sib b none d8)) =
      readX s b + d8.signExtend 64 * BitVec.ofNat 64 n ∧
    effectiveAddress s ⟨sg, false⟩ len (memRef01 n (.sib b (some ⟨g, sc⟩) d8)) =
      readX s b + readX s g <<< sc.toNat + d8.signExtend 64 * BitVec.ofNat 64 n ∧
    effectiveAddress s ⟨sg, false⟩ len (memRef10 (.base b d32)) = readX s b + d32.signExtend 64 ∧
    effectiveAddress s ⟨sg, false⟩ len (memRef10 (.sib b none d32)) = readX s b + d32.signExtend 64 ∧
    effectiveAddress s ⟨sg, false⟩ len (memRef10 (.sib b (some ⟨g, sc⟩) d32)) =
      readX s b + readX s g <<< sc.toNat + d32.signExtend 64

/-- R63: with `67h` the effective address is the low 32 bits of the 64-bit one, zero-extended, for every address form. -/
def Obligations.AddressSize32IsTheLowHalf : Prop :=
  ∀ (s : State) (sg : Option SegPrefix) (len : Nat) (r : MemRef),
    effectiveAddress s ⟨sg, true⟩ len r = ((effectiveAddress s ⟨sg, false⟩ len r).setWidth 32).setWidth 64

/-- R64: FS and GS overrides add their base and become the segment in use; the four other overrides change neither the
address nor the segment, which is SS for a base RSP or RBP and DS otherwise. The last clause gives their prefix bytes. -/
def Obligations.SegmentOverrides : Prop :=
  (∀ (s : State) (a32 : Bool) (len : Nat) (r : MemRef),
    linearAddress s ⟨some .fs, a32⟩ len r = s.fsbase + effectiveAddress s ⟨some .fs, a32⟩ len r ∧
    linearAddress s ⟨some .gs, a32⟩ len r = s.gsbase + effectiveAddress s ⟨some .gs, a32⟩ len r ∧
    segmentInUse ⟨some .fs, a32⟩ r = .fs ∧ segmentInUse ⟨some .gs, a32⟩ r = .gs ∧
    (∀ sg, sg = none ∨ sg = some .es ∨ sg = some .cs ∨ sg = some .ss ∨ sg = some .ds →
      linearAddress s ⟨sg, a32⟩ len r = effectiveAddress s ⟨sg, a32⟩ len r ∧
      (r.base = .reg 4 ∨ r.base = .reg 5 → segmentInUse ⟨sg, a32⟩ r = .ss) ∧
      (r.base ≠ .reg 4 → r.base ≠ .reg 5 → segmentInUse ⟨sg, a32⟩ r = .ds))) ∧
  SegPrefix.fs.byte = 0x64#8 ∧ SegPrefix.gs.byte = 0x65#8 ∧ SegPrefix.es.byte = 0x26#8 ∧ SegPrefix.cs.byte = 0x2E#8 ∧
    SegPrefix.ss.byte = 0x36#8 ∧ SegPrefix.ds.byte = 0x3E#8

/-- R61: the scale of a compressed displacement is 16, 32, 64 or, for a broadcast, 8: "`N` equals the number of bytes the
operand read touches". -/
def Obligations.DisplacementScaleIsTheOperandSize : Prop :=
  dispScale .v128 false = 16 ∧ dispScale .v256 false = 32 ∧ dispScale .v512 false = 64 ∧
  (∀ vl, dispScale vl true = 8) ∧ (∀ vl, dispScale vl false = vlBytes vl)

/-! ## Memory reads and Access -/

/-- R32: a read asks `Access`; if it answers `ok` every byte is in the domain of memory and the read gives these bytes, else
the read raises the fault named, which is `#SS(0)`, `#GP(0)` or `#PF`. -/
def Obligations.MemReadAsksAccess : Prop :=
  ∀ (s : State) (q : AccessQuery),
    (∀ x, accessAnswer s q = some x → memRead s q = .error x ∧ (x = .ss0 ∨ x = .gp0 ∨ ∃ c a, x = .pf c a)) ∧
    (accessAnswer s q = none → ∃ bs, memRead s q = .ok bs ∧ bs.length = q.n ∧
      ∀ m, m < q.n → Memory.read s.mem (q.a + BitVec.ofNat 64 m).toNat = bs[m]?)

/-- D6: with no rule in the table `Access` is `ok` exactly when all bytes are in the domain of memory, and else a page fault;
that its code says "not present" and its address is the lowest missing byte is the model's choice (log 9). -/
def Obligations.SimplestAccessIsTheMemoryDomain : Prop :=
  ∀ (s : State) (q : AccessQuery), s.params.access = [] →
    (accessAnswer s q = none ↔ ∀ m, m < q.n → (Memory.read s.mem (q.a + BitVec.ofNat 64 m).toNat).isSome = true) ∧
    (∀ m, m < q.n → Memory.read s.mem (q.a + BitVec.ofNat 64 m).toNat = none →
      (∀ l, l < m → (Memory.read s.mem (q.a + BitVec.ofNat 64 l).toNat).isSome = true) →
      ∃ code, accessAnswer s q = some (.pf code (q.a + BitVec.ofNat 64 m)) ∧ code.getLsbD 0 = false)

/-- R115, R118: a non-canonical address is `#SS(0)` in the SS segment and `#GP(0)` in any other, before any page fault. -/
def Obligations.NonCanonicalComesBeforePageFaults : Prop :=
  ∀ (s : State) (q : AccessQuery) (r : AccessRule) (a : Word), r ∈ s.params.access → r.denial = .nonCanonical →
    r.hit q = some a → accessAnswer s q = some (if q.seg = .ss then .ss0 else .gp0)

/-- R116: in the error code of every page fault W/R is 0, U/S is `CPL = 3`, and I/D is 1 only on a fetch. -/
def Obligations.PageFaultErrorCode : Prop :=
  ∀ (s : State) (q : AccessQuery) (code : BitVec 6) (a : Word), accessAnswer s q = some (.pf code a) →
    code.getLsbD 1 = false ∧ (code.getLsbD 2 = true ↔ q.cpl = 3#2) ∧ (code.getLsbD 4 = true → q.kind = .fetch)

/-- R31, R33: a full-width operand that `Access` lets be read has as element `j` the eight bytes at `a + 8j`, lowest address
least significant. -/
def Obligations.FullWidthReadIsLittleEndian : Prop :=
  ∀ (s : State) (f : Form) (r : MemRef) (a : Word), s.params.faultSuppression = false →
    a = linearAddress s f.pre f.len r → operandReadable s f.pre r a (vlBytes f.vl) →
    ∃ v, readFull s f r = .ok v ∧ ∀ j, j < elems f.vl → elem v j = wordAt s.mem (a + BitVec.ofNat 64 (8 * j))

/-! ## Instructions that complete -/

/-- R92 to R94 with a register as operand 3 (xmmReg, ymmReg, zmmReg): when the form may execute and no unmasked condition is
detected, it completes with the element results of R90, the sticky flags of R91, `pc` past it, and nothing else changed. -/
def Obligations.RegisterFormsComplete : Prop :=
  ∀ (p : Prefixes) (d a b : VReg) (m : Writemask) (imm : Byte) (s : State) (out : Nat → RangeOut),
    out = rangeOf s a imm (elem (readZmm s b)) →
    (mayExecute s .v128 m imm → ¬ unmaskedDetected s .v128 m out →
      completesWith (.xmmReg p d a b m imm) s .v128 false d m out) ∧
    (mayExecute s .v256 m imm → ¬ unmaskedDetected s .v256 m out →
      completesWith (.ymmReg p d a b m imm) s .v256 false d m out) ∧
    (mayExecute s .v512 m imm → ¬ unmaskedDetected s .v512 m out →
      completesWith (.zmmReg p d a b m imm) s .v512 false d m out)

/-- R95 (zmmSae): when the form may execute it completes, whatever MXCSR masks, with the same element results and MXCSR
unchanged. -/
def Obligations.SaeFormCompletes : Prop :=
  ∀ (p : Prefixes) (d a b : VReg) (m : Writemask) (imm : Byte) (s : State), mayExecute s .v512 m imm →
    ∃ t, exec (.zmmSae p d a b m imm) s = .next t ∧ t.mxcsr = s.mxcsr ∧
      RangeResult s t .v512 true d m (Instr.zmmSae p d a b m imm).length (rangeOf s a imm (elem (readZmm s b)))

/-- R92 to R94 with a full-width memory operand, `FAULT_SUPPRESSION = off`: when the form may execute, all its `VL/8` bytes are
readable at its address and no unmasked condition is detected, it completes with element `j` of operand 3 the eight bytes
at `a + 8j`. -/
def Obligations.FullMemoryFormsComplete : Prop :=
  ∀ (p : Prefixes) (d a : VReg) (m : Writemask) (imm : Byte) (s : State), s.params.faultSuppression = false →
    let ok := fun (i : Instr) (vl : VLen) (r : MemRef) =>
      let ad := linearAddress s p i.length r
      let out := rangeOf s a imm fun j => wordAt s.mem (ad + BitVec.ofNat 64 (8 * j))
      mayExecute s vl m imm → operandReadable s p r ad (vlBytes vl) → ¬ unmaskedDetected s vl m out →
        completesWith i s vl false d m out
    (∀ ad, ok (.xmmMem00 p d a ad m imm) .v128 (memRef00 ad) ∧ ok (.ymmMem00 p d a ad m imm) .v256 (memRef00 ad) ∧
      ok (.zmmMem00 p d a ad m imm) .v512 (memRef00 ad)) ∧
    (∀ ad, ok (.xmmMem01 p d a ad m imm) .v128 (memRef01 16 ad) ∧ ok (.ymmMem01 p d a ad m imm) .v256 (memRef01 32 ad) ∧
      ok (.zmmMem01 p d a ad m imm) .v512 (memRef01 64 ad)) ∧
    (∀ ad, ok (.xmmMem10 p d a ad m imm) .v128 (memRef10 ad) ∧ ok (.ymmMem10 p d a ad m imm) .v256 (memRef10 ad) ∧
      ok (.zmmMem10 p d a ad m imm) .v512 (memRef10 ad))

/-- R35 for full-width operands, `FAULT_SUPPRESSION = on`: only the bytes of active elements need be readable; with no active
element nothing is read. -/
def Obligations.SuppressedFullMemoryFormsComplete : Prop :=
  ∀ (p : Prefixes) (d a : VReg) (m : Writemask) (imm : Byte) (s : State), s.params.faultSuppression = true →
    let ok := fun (i : Instr) (vl : VLen) (r : MemRef) =>
      let ad := linearAddress s p i.length r
      let out := rangeOf s a imm fun j => wordAt s.mem (ad + BitVec.ofNat 64 (8 * j))
      mayExecute s vl m imm →
        (∀ j, j < elems vl → maskBit s m j = true → operandReadable s p r (ad + BitVec.ofNat 64 (8 * j)) 8) →
        ¬ unmaskedDetected s vl m out → completesWith i s vl false d m out
    (∀ ad, ok (.xmmMem00 p d a ad m imm) .v128 (memRef00 ad) ∧ ok (.ymmMem00 p d a ad m imm) .v256 (memRef00 ad) ∧
      ok (.zmmMem00 p d a ad m imm) .v512 (memRef00 ad)) ∧
    (∀ ad, ok (.xmmMem01 p d a ad m imm) .v128 (memRef01 16 ad) ∧ ok (.ymmMem01 p d a ad m imm) .v256 (memRef01 32 ad) ∧
      ok (.zmmMem01 p d a ad m imm) .v512 (memRef01 64 ad)) ∧
    (∀ ad, ok (.xmmMem10 p d a ad m imm) .v128 (memRef10 ad) ∧ ok (.ymmMem10 p d a ad m imm) .v256 (memRef10 ad) ∧
      ok (.zmmMem10 p d a ad m imm) .v512 (memRef10 ad))

/-- R92 to R94 with a broadcast element: when the form may execute, the eight bytes at its address are readable (not needed
under `FAULT_SUPPRESSION = on` with no active element, R35), the address is no multiple of 8 only with alignment checking
off (R34), and no unmasked condition is detected, it completes with that element for every position. -/
def Obligations.BroadcastFormsComplete : Prop :=
  ∀ (p : Prefixes) (d a : VReg) (m : Writemask) (imm : Byte) (s : State),
    let ok := fun (i : Instr) (vl : VLen) (r : MemRef) =>
      let ad := linearAddress s p i.length r
      let out := rangeOf s a imm fun _ => wordAt s.mem ad
      mayExecute s vl m imm →
        (operandReadable s p r ad 8 ∨
          (s.params.faultSuppression = true ∧ ∀ j, j < elems vl → maskBit s m j = false)) →
        (alignmentCheckingOn s = true → ad.toNat % 8 = 0) →
        ¬ unmaskedDetected s vl m out → completesWith i s vl false d m out
    (∀ ad, ok (.xmmBcst00 p d a ad m imm) .v128 (memRef00 ad) ∧ ok (.ymmBcst00 p d a ad m imm) .v256 (memRef00 ad) ∧
      ok (.zmmBcst00 p d a ad m imm) .v512 (memRef00 ad)) ∧
    (∀ ad, ok (.xmmBcst01 p d a ad m imm) .v128 (memRef01 8 ad) ∧ ok (.ymmBcst01 p d a ad m imm) .v256 (memRef01 8 ad) ∧
      ok (.zmmBcst01 p d a ad m imm) .v512 (memRef01 8 ad)) ∧
    (∀ ad, ok (.xmmBcst10 p d a ad m imm) .v128 (memRef10 ad) ∧ ok (.ymmBcst10 p d a ad m imm) .v256 (memRef10 ad) ∧
      ok (.zmmBcst10 p d a ad m imm) .v512 (memRef10 ad))

/-- R95: the `{sae}` form writes what the plain 512-bit form writes, for the same register operands. -/
def Obligations.SaeWritesThePlainResult : Prop :=
  ∀ (p : Prefixes) (d a b : VReg) (m : Writemask) (imm : Byte) (s t u : State),
    exec (.zmmReg p d a b m imm) s = .next t → exec (.zmmSae p d a b m imm) s = .next u →
    u.zmm = t.zmm ∧ u.pc = t.pc ∧ u.mxcsr = s.mxcsr

/-! ## Instructions that fault or are refused -/

/-- R68: with `imm8[7:4]` nonzero every form is refused under `IMM8_HI_POLICY = refuse`, and under `ignore` does what it does
with `imm8[7:4]` = 0000b. -/
def Obligations.HighImmediateBitsFollowThePolicy : Prop :=
  ∀ (i : Instr) (s : State),
    (s.params.imm8Hi = .refuse → (formOf i).imm.extractLsb' 4 4 ≠ 0#4 → exec i s = .refused .imm8HighNonzero) ∧
    (s.params.imm8Hi = .ignore → exec i s = exec (lowImm i) s)

/-- R113 rows 1 to 4: a failing enabling condition or zeroing without a mask raises `#UD`, vector 6 with no error code
(R110), with nothing changed, also when CR0.TS is 1 or memory would fault. -/
def Obligations.FailedEnablingRaisesUD : Prop :=
  ∀ (i : Instr) (s : State), imm8Refused s (formOf i).imm = false →
    (s.env.cr4Osxsave = false ∨ s.env.xcr0.getLsbD 1 = false ∨ s.env.xcr0.getLsbD 2 = false ∨
      s.env.xcr0.getLsbD 5 = false ∨ s.env.xcr0.getLsbD 6 = false ∨ s.env.xcr0.getLsbD 7 = false ∨
      s.env.cpuidAvx512f = false ∨ s.env.cpuidAvx512dq = false ∨
      (s.env.cpuidAvx512vl = false ∧ (formOf i).vl ≠ .v512) ∨
      ((formOf i).wm.z = true ∧ (formOf i).wm.aaa = 0)) →
    exec i s = .fault (.invalidOpcode s) ∧ faultInfo (.invalidOpcode s) = (6, none, none)

/-- R114: CR0.TS = 1 raises `#NM`, vector 7 with no error code, after the `#UD` checks and before any operand is read. -/
def Obligations.TaskSwitchedRaisesNM : Prop :=
  ∀ (i : Instr) (s : State), imm8Refused s (formOf i).imm = false → (formOf i).wm.wellFormed = true →
    enabled s.env (formOf i).vl = true → s.env.cr0Ts = true →
    exec i s = .fault (.deviceNotAvailable s) ∧ faultInfo (.deviceNotAvailable s) = (7, none, none)

/-- R33, R35, R115, R116, R118: when a form may execute and `Access` denies a read it makes, its fault is raised with the
state unchanged: no MXCSR flag, whatever the sources hold. First clause: the one read of a full-width operand without fault
suppression, or of a broadcast (under suppression with an active element). Second: under suppression, of an active element
of a full-width operand, what `Access` answers to one of the active elements, `#SS(0)` or `#GP(0)` if it answers that to any
(R118); which of several page faults is the model's choice (log 17). The rest: the vector, error code and CR2 of R110, R119. -/
def Obligations.MemoryFaultLeavesTheState : Prop :=
  (∀ (i : Instr) (s : State) (r : MemRef) (n : Nat) (x : Exn),
    mayExecute s (formOf i).vl (formOf i).wm (formOf i).imm →
    ((formOf i).op3 = .full r ∧ n = vlBytes (formOf i).vl ∧ s.params.faultSuppression = false ∨
      (formOf i).op3 = .bcst r ∧ n = 8 ∧
        (s.params.faultSuppression = false ∨ ∃ j, j < elems (formOf i).vl ∧ maskBit s (formOf i).wm j = true)) →
    accessAnswer s (dataQuery s (formOf i).pre r (linearAddress s (formOf i).pre i.length r) n) = some x →
    exec i s = raise x s) ∧
  (∀ (i : Instr) (s : State) (r : MemRef) (j : Nat) (x : Exn),
    let answer := fun e : Nat => accessAnswer s (dataQuery s (formOf i).pre r
      (linearAddress s (formOf i).pre i.length r + BitVec.ofNat 64 (8 * e)) 8)
    mayExecute s (formOf i).vl (formOf i).wm (formOf i).imm → s.params.faultSuppression = true →
    (formOf i).op3 = .full r → j < elems (formOf i).vl → maskBit s (formOf i).wm j = true → answer j = some x →
    ∃ e y, e < elems (formOf i).vl ∧ maskBit s (formOf i).wm e = true ∧ answer e = some y ∧ exec i s = raise y s ∧
      (x = .ss0 ∨ x = .gp0 → y = x)) ∧
  (∀ s : State, raise .ss0 s = .fault (.stackFault s) ∧ faultInfo (.stackFault s) = (12, some 0#6, none) ∧
    raise .gp0 s = .fault (.generalProtection s) ∧ faultInfo (.generalProtection s) = (13, some 0#6, none) ∧
    ∀ c a, raise (.pf c a) s = .fault (.pageFault c a s) ∧ faultInfo (.pageFault c a s) = (14, some c, some a))

/-- R117: a readable broadcast element at an address that is no multiple of 8 raises `#AC(0)`, vector 17 with error code 0
(R110), when CR0.AM = 1, CPL = 3 and RFLAGS.AC = 1. -/
def Obligations.MisalignedBroadcastRaisesAC : Prop :=
  ∀ (i : Instr) (s : State) (r : MemRef), mayExecute s (formOf i).vl (formOf i).wm (formOf i).imm →
    (formOf i).op3 = .bcst r → s.env.cr0Am = true → s.cpl = 3#2 → s.rflagsAC = true →
    (linearAddress s (formOf i).pre i.length r).toNat % 8 ≠ 0 →
    operandReadable s (formOf i).pre r (linearAddress s (formOf i).pre i.length r) 8 →
    exec i s = .fault (.alignmentCheck s) ∧ faultInfo (.alignmentCheck s) = (17, some 0#6, none)

/-- R91, R112: an unmasked detected condition, in any form but `{sae}`, raises `#XM` (vector 19) if CR4.OSXMMEXCPT is 1 and
`#UD` (vector 6) if it is 0, neither with an error code (R110), with the flag of every detected condition set, masked or not,
and nothing else changed. -/
def Obligations.UnmaskedConditionFaults : Prop :=
  ∀ (i : Instr) (s : State) (v : ZWord) (out : Nat → RangeOut),
    mayExecute s (formOf i).vl (formOf i).wm (formOf i).imm → (formOf i).sae = false → readSrc2 s (formOf i) = .ok v →
    out = rangeOf s (formOf i).src1 (formOf i).imm (src2Elem (formOf i) v) →
    unmaskedDetected s (formOf i).vl (formOf i).wm out →
    ∃ t, exec i s = .fault (if s.env.cr4Osxmmexcpt then .simdFloatingPoint t else .invalidOpcode t) ∧
      faultInfo (.simdFloatingPoint t) = (19, none, none) ∧ faultInfo (.invalidOpcode t) = (6, none, none) ∧
      FlaggedOnly s t (detected s (formOf i).vl (formOf i).wm fun j => (out j).ie)
        (detected s (formOf i).vl (formOf i).wm fun j => (out j).de)

/-! ## Steps -/

/-- In 64-bit mode, with the run not done and the fetch permitted, a step whose bytes at `pc` decode to a well-formed
instruction is `exec` of it, and nothing is added around it: `pc` is moved by the instruction itself (R97, R99). -/
def Obligations.StepRunsTheDecodedInstruction : Prop :=
  ∀ (s : State) (i : Instr) (rest : List Byte), s.mode = .bits64 → runDone s = false →
    decode (fetchWindow s.mem 15 s.pc) = .ok i rest → i.wellFormed = true →
    accessAnswer s (fetchQuery s i.length) = none → step s = exec i s

/-- R40, R118 step 1: a fetch that `Access` denies raises its fault before anything else, with the state unchanged. An
instruction's fetch asks for its length, and so does that of bytes that end outside memory where they determine the length
(`need` of DecodeTakesExactlyTheLength); such a fetch is always denied (R141 row 8). How far the fetch of an invalid
candidate, or of bytes that are no candidate, asks is the model's choice (log 19). -/
def Obligations.FetchFaultComesFirst : Prop :=
  ∀ (s : State) (w : List Byte), s.mode = .bits64 → runDone s = false → w = fetchWindow s.mem 15 s.pc →
    (∀ (n : Nat) (x : Exn),
      ((∃ i rest, decode w = .ok i rest ∧ n = i.length) ∨
        (∃ why imm rest, decode w = .invalid why imm rest ∧ n = w.length - rest.length) ∨
        decode w = .notVrangepd n ∨ decode w = .repeatedPrefix n ∨ decode w = .truncated n) →
      accessAnswer s (fetchQuery s n) = some x → step s = raise x s ∧ ∃ f, raise x s = .fault f ∧ f.after = s) ∧
    (∀ need, decode w = .truncated need → ∃ x, accessAnswer s (fetchQuery s need) = some x ∧ step s = raise x s)

/-- R70, R71, R72: at a fetch that is permitted, bytes that are no candidate and repeated prefixes are refused, and an invalid
candidate raises `#UD` unless its imm8 is refused first. The order is R97's (log 14); how many bytes the fetch of such bytes
asks for (`n`, the whole of an invalid candidate) is the model's choice (log 19). -/
def Obligations.StepOnRejectedBytes : Prop :=
  ∀ (s : State), s.mode = .bits64 → runDone s = false →
    (∀ n, decode (fetchWindow s.mem 15 s.pc) = .notVrangepd n → accessAnswer s (fetchQuery s n) = none →
      step s = .refused .notVrangepd) ∧
    (∀ n, decode (fetchWindow s.mem 15 s.pc) = .repeatedPrefix n → accessAnswer s (fetchQuery s n) = none →
      step s = .refused .repeatedPrefix) ∧
    (∀ why imm rest, decode (fetchWindow s.mem 15 s.pc) = .invalid why imm rest →
      accessAnswer s (fetchQuery s ((fetchWindow s.mem 15 s.pc).length - rest.length)) = none →
      step s = if s.params.imm8Hi = .refuse ∧ imm.extractLsb' 4 4 ≠ 0#4 then .refused .imm8HighNonzero
        else .fault (.invalidOpcode s))

/-- R22, first half: a step that completes an instruction changes at most `ZMM[dest]` of that instruction, bits 0 and 1 of
MXCSR (0 to 1 only), and `pc`, by the instruction's length; a step of a run that is done changes nothing (log 12). -/
def Obligations.StepFrame : Prop :=
  ∀ s t : State, step s = .next t →
    (runDone s = true ∧ t = s) ∨
    (runDone s = false ∧ ∃ i, fetch s = .ok (.instr i) ∧ SameElsewhere s t ∧
      (∀ r, r ≠ (formOf i).dest → readZmm t r = readZmm s r) ∧ t.pc = s.pc + BitVec.ofNat 64 i.length ∧
      (∀ n, 2 ≤ n → t.mxcsr.getLsbD n = s.mxcsr.getLsbD n) ∧
      (∀ n, s.mxcsr.getLsbD n = true → t.mxcsr.getLsbD n = true))

/-- R22 second half, R120: every fault leaves the state as it was before the instruction, `pc` included, except that `#XM`
(CR4.OSXMMEXCPT = 1), or `#UD` in its place (CR4.OSXMMEXCPT = 0), may have set MXCSR.IE and MXCSR.DE. -/
def Obligations.FaultsArePrecise : Prop :=
  ∀ (s : State) (f : Fault), step s = .fault f →
    f.after = s ∨
    ((f = .simdFloatingPoint f.after ∧ s.env.cr4Osxmmexcpt = true ∨
        f = .invalidOpcode f.after ∧ s.env.cr4Osxmmexcpt = false) ∧
      f.after.zmm = s.zmm ∧ f.after.pc = s.pc ∧ SameElsewhere s f.after ∧
      (∀ n, 2 ≤ n → f.after.mxcsr.getLsbD n = s.mxcsr.getLsbD n) ∧
      (∀ n, s.mxcsr.getLsbD n = true → f.after.mxcsr.getLsbD n = true))

/-- R99, R18: an instruction that completes moves `pc` past itself, modulo `2^64`; one that faults keeps it. -/
def Obligations.CompletionAdvancesPc : Prop :=
  ∀ (i : Instr) (s : State),
    (∀ t, exec i s = .next t → t.pc = s.pc + BitVec.ofNat 64 i.length) ∧
    (∀ f, exec i s = .fault f → f.after.pc = s.pc)

/-- Every step keeps the invariant: memory in its canonical form and the reserved bits of MXCSR zero. -/
def Obligations.StepKeepsTheMachineInvariant : Prop :=
  ∀ s t : State, MachineInv s → step s = .next t → MachineInv t

/-- The invariant holds at reset, and in the state that the model's own launch from reset (`State.withFetchWord`, log 1 and
log 20) gives with any table word. -/
def Obligations.ResetHasTheMachineInvariant : Prop :=
  MachineInv State.reset ∧ ∀ nbits w, MachineInv (State.reset.withFetchWord nbits w)

/-- R38 (b): in a run of any length memory keeps its launch value, so that every read of an address returns the same byte at
every step; and the sticky flags never clear (R14). -/
def Obligations.RunsKeepMemoryAndStickyFlags : Prop :=
  ∀ (n : Nat) (s t : State), Host.Core.run Sys2Proof.core n s = .next t →
    t.mem = s.mem ∧ (∀ a, Memory.read t.mem a = Memory.read s.mem a) ∧
    (mxIE s.mxcsr = true → mxIE t.mxcsr = true) ∧ (mxDE s.mxcsr = true → mxDE t.mxcsr = true)

/-! ## What an instruction does not depend on -/

/-- R15: results, flags set, `pc` and the kind of outcome do not depend on the bits of MXCSR other than DAZ, IM and DM: not
on RC, FTZ, any flag or another mask. A flag that both MXCSR values hold alike is alike afterwards. -/
def Obligations.OtherMxcsrBitsHaveNoEffect : Prop :=
  ∀ (i : Instr) (s : State) (v : BitVec 32),
    (∀ n, n = 6 ∨ n = 7 ∨ n = 8 → v.getLsbD n = s.mxcsr.getLsbD n) →
    (∀ t, exec i s = .next t → ∃ u, exec i (writeMxcsr s v) = .next u ∧ u.zmm = t.zmm ∧ u.pc = t.pc ∧
      ∀ n, v.getLsbD n = s.mxcsr.getLsbD n → u.mxcsr.getLsbD n = t.mxcsr.getLsbD n) ∧
    (∀ f, exec i s = .fault f → ∃ g, exec i (writeMxcsr s v) = .fault g ∧ g.vector = f.vector ∧ g.cr2 = f.cr2 ∧
      ∀ n, v.getLsbD n = s.mxcsr.getLsbD n → g.after.mxcsr.getLsbD n = f.after.mxcsr.getLsbD n)

/-- R12, I8: bits `511:VL` of every vector register, sources and destination, have no effect on the result. -/
def Obligations.HighVectorBitsHaveNoEffect : Prop :=
  ∀ (i : Instr) (s t : State) (r : VReg) (v : ZWord),
    (∀ j, j < elems (formOf i).vl → elem v j = elem (readZmm s r) j) → exec i s = .next t →
    ∃ u, exec i (writeZmm s r v) = .next u ∧ readZmm u (formOf i).dest = readZmm t (formOf i).dest ∧
      u.mxcsr = t.mxcsr ∧ u.pc = t.pc

/-- R13, I8: only bits `KL-1:0` of the opmask register named by `aaa` matter: replacing the whole opmask file by one that
agrees on them changes neither results nor flags, and with `aaa = 000b` no opmask register matters. -/
def Obligations.OtherOpmaskBitsHaveNoEffect : Prop :=
  ∀ (i : Instr) (s t : State) (ks : Vector KWord 8),
    ((formOf i).wm.aaa = 0 ∨
      ∀ j, j < elems (formOf i).vl → (ks[(formOf i).wm.aaa]).getLsbD j = (readK s (formOf i).wm.aaa).getLsbD j) →
    exec i s = .next t →
    ∃ u, exec i { s with k := ks } = .next u ∧ u.zmm = t.zmm ∧ u.mxcsr = t.mxcsr ∧ u.pc = t.pc

/-! ## Reset -/

/-- R24, R20: the power-up values that the spec gives. The last clause, that memory lists nothing, is the model's choice: R24
says "unspecified" (log 1, log 11). -/
def Obligations.ResetValues : Prop :=
  (∀ r : VReg, readZmm State.reset r = 0#512) ∧ (∀ r : KReg, readK State.reset r = 0#64) ∧
  State.reset.mxcsr = 0x00001F80#32 ∧ (∀ g : GReg, g ≠ 2 → readX State.reset g = 0#64) ∧
  State.reset.pc = 0x000000000000FFF0#64 ∧ State.reset.fsbase = 0#64 ∧ State.reset.gsbase = 0#64 ∧
  State.reset.rflagsAC = false ∧ State.reset.cpl = 0#2 ∧ State.reset.mode = .realAddress ∧
  State.reset.env.cr4Osxsave = false ∧ State.reset.env.xcr0 = 0x1#64 ∧ State.reset.env.cr0Ts = false ∧
  State.reset.env.cr4Osxmmexcpt = false ∧ State.reset.env.cr0Am = false ∧ State.reset.mem = []

/-- R24: "At power-up VRANGEPD is therefore not executable": every form with a valid imm8 raises `#UD`; and the machine, which
runs in 64-bit mode only, refuses to step in every other mode (R141 row 1, D1), at reset among them (log 4). -/
def Obligations.NothingExecutesAtPowerUp : Prop :=
  (∀ i : Instr, (formOf i).imm.extractLsb' 4 4 = 0#4 → exec i State.reset = .fault (.invalidOpcode State.reset)) ∧
  (∀ s : State, s.mode ≠ .bits64 → step s = .refused .notIn64BitMode) ∧
  step State.reset = .refused .notIn64BitMode
end

