-- ==== Sys2Proof/Laws/Decode.lean ====
section
/-! SUPPORT. Fields of the encoding, read back from the bytes the encoder writes (30_encoding.md R52 to R60). -/

namespace Sys2Proof

/-! ## Payload bytes -/

/-- Any `R~ X~ B~ R'~` with `mm = 11b` passes the candidate test (R52, R55). -/
@[simp] theorem p0Ok_p0Byte (f : EvexFields) : p0Ok (p0Byte f) = true := by
  obtain ⟨rr, r, x, b, vvvv, z, ll, bc, vv, aaa⟩ := f
  revert rr r x b
  simp only [p0Byte]
  decide

/-- Any `vvvv~` with `W = 1`, `pp = 01b` passes the candidate test (R53, R55). -/
@[simp] theorem p1Ok_p1Byte (f : EvexFields) : p1Ok (p1Byte f) = true := by
  obtain ⟨rr, r, x, b, vvvv, z, ll, bc, vv, aaa⟩ := f
  revert vvvv
  simp only [p1Byte]
  decide

theorem p0Byte_bits : ∀ rr r x b : Bool,
    let p : Byte := BitVec.ofBool (!r) ++ BitVec.ofBool (!x) ++ BitVec.ofBool (!b) ++ BitVec.ofBool (!rr) ++ 0b0011#4
    (!p.getLsbD 4) = rr ∧ (!p.getLsbD 7) = r ∧ (!p.getLsbD 6) = x ∧ (!p.getLsbD 5) = b := by
  decide

theorem p1Byte_bits : ∀ v : BitVec 4, ~~~((0b1#1 ++ ~~~v ++ 0b101#3 : Byte).extractLsb' 3 4) = v := by
  decide

theorem p2Byte_bits : ∀ (z : Bool) (ll : BitVec 2) (bc vv : Bool) (aaa : BitVec 3),
    let p : Byte := BitVec.ofBool z ++ ll ++ BitVec.ofBool bc ++ BitVec.ofBool (!vv) ++ aaa
    p.getLsbD 7 = z ∧ p.extractLsb' 5 2 = ll ∧ p.getLsbD 4 = bc ∧ (!p.getLsbD 3) = vv ∧
      p.extractLsb' 0 3 = aaa := by
  decide

/-- The payload bytes give back the fields they were built from (R52 to R54). -/
@[simp] theorem fieldsOf_bytes (f : EvexFields) : fieldsOf (p0Byte f) (p1Byte f) (p2Byte f) = f := by
  obtain ⟨rr, r, x, b, vvvv, z, ll, bc, vv, aaa⟩ := f
  obtain ⟨a1, a2, a3, a4⟩ := p0Byte_bits rr r x b
  have b1 := p1Byte_bits vvvv
  obtain ⟨c1, c2, c3, c4, c5⟩ := p2Byte_bits z ll bc vv aaa
  simp only [fieldsOf, p0Byte, p1Byte, p2Byte]
  simp only [a1, a2, a3, a4, b1, c1, c2, c3, c4, c5]

/-! ## Register numbers -/

/-- A vector register number from its bits `hi : mid : low` (R57, R59). -/
@[simp] theorem vregOf_bits : ∀ r : VReg,
    vregOf (VReg.bits r)[4] (VReg.bits r)[3] ((VReg.bits r).extractLsb' 0 3) = r := by
  decide

/-- A first-source number from its bits `V' : vvvv` (R58). -/
@[simp] theorem vregOfV_bits : ∀ r : VReg,
    vregOfV (VReg.bits r)[4] ((VReg.bits r).extractLsb' 0 4) = r := by
  decide

/-- A general register number from its bits (R60). -/
@[simp] theorem gregOf_bits : ∀ g : GReg, gregOf (GReg.bits g)[3] ((GReg.bits g).extractLsb' 0 3) = g := by
  decide

/-- The low field of a general register is 100b exactly for RSP and R12 (R60). -/
theorem low_eq_four_iff : ∀ g : GReg, (GReg.bits g).extractLsb' 0 3 = 0b100#3 ↔ GReg.low3 g = 4 := by
  decide

/-- The low field of a general register is 101b exactly for RBP and R13 (R60). -/
theorem low_eq_five_iff : ∀ g : GReg, (GReg.bits g).extractLsb' 0 3 = 0b101#3 ↔ GReg.low3 g = 5 := by
  decide

/-! ## ModRM, SIB and displacement -/

theorem modrm_bits : ∀ (mod : BitVec 2) (reg rm : BitVec 3),
    (mod ++ reg ++ rm : Byte).extractLsb' 6 2 = mod ∧ (mod ++ reg ++ rm : Byte).extractLsb' 3 3 = reg ∧
      (mod ++ reg ++ rm : Byte).extractLsb' 0 3 = rm := by
  decide

/-- The `mod` field of the ModRM byte. -/
@[simp] theorem modrmByte_mod (d : VReg) (rm : RM) : (modrmByte d rm).extractLsb' 6 2 = rm.mod := (modrm_bits _ _ _).1

/-- The `reg` field of the ModRM byte. -/
@[simp] theorem modrmByte_reg (d : VReg) (rm : RM) : (modrmByte d rm).extractLsb' 3 3 = (VReg.bits d).extractLsb' 0 3 :=
  (modrm_bits _ _ _).2.1

/-- The `rm` field of the ModRM byte. -/
@[simp] theorem modrmByte_rm (d : VReg) (rm : RM) : (modrmByte d rm).extractLsb' 0 3 = rm.rmField := (modrm_bits _ _ _).2.2

/-- The base field of a SIB byte. -/
@[simp] theorem sibByte_base (i : Option Index) (base : BitVec 3) : (sibByte i base).extractLsb' 0 3 = base := by
  cases i with
  | none => exact (modrm_bits _ _ _).2.2
  | some i => exact (modrm_bits _ _ _).2.2

/-- The index of a SIB byte, for an index that is not RSP (R60). -/
theorem sibIndex_sibByte (i : Option Index) (base : BitVec 3) (h : indexWellFormed i = true) :
    sibIndex (indexX i) (sibByte i base) = i := by
  cases i with
  | none =>
    have h3 : (sibByte none base).extractLsb' 3 3 = 0b100#3 := (modrm_bits _ _ _).2.1
    simp only [sibIndex, h3, indexX]
    rfl
  | some i =>
    obtain ⟨g, sc⟩ := i
    have h3 : (sibByte (some ⟨g, sc⟩) base).extractLsb' 3 3 = (GReg.bits g).extractLsb' 0 3 := (modrm_bits _ _ _).2.1
    have h2 : (sibByte (some ⟨g, sc⟩) base).extractLsb' 6 2 = sc := (modrm_bits _ _ _).1
    have hg : g ≠ 4 := by simpa [indexWellFormed, Index.wellFormed] using h
    simp [sibIndex, h3, h2, indexX, hg]

/-- A 32-bit displacement read back from its bytes (R60). -/
@[simp] theorem takeDisp32_disp32Bytes (d : BitVec 32) (r : List Byte) : takeDisp32 (disp32Bytes d ++ r) = some (d, r) := by
  have h : d.extractLsb' 24 8 ++ d.extractLsb' 16 8 ++ d.extractLsb' 8 8 ++ d.extractLsb' 0 8 = d := by
    apply BitVec.eq_of_getLsbD_eq
    intro i hi
    simp only [BitVec.getLsbD_append, BitVec.getLsbD_extractLsb']
    repeat' split
    · simp [*]
    · rename_i h1 h2
      simp only [h2, decide_true, Bool.true_and]
      congr 1
      omega
    · rename_i h1 h2 h3
      simp only [h3, decide_true, Bool.true_and]
      congr 1
      omega
    · rename_i h1 h2 h3
      have h4 : i - 8 - 8 - 8 < 8 := by omega
      simp only [h4, decide_true, Bool.true_and]
      congr 1
      omega
  simp only [disp32Bytes, List.cons_append, List.nil_append, takeDisp32]
  rw [h]

/-- The address forms that some encoding stands for (R60). -/
def RM.wellFormed : RM → Bool
  | .reg _ => true
  | .m00 ad => ad.wellFormed
  | .m01 ad => ad.wellFormed
  | .m10 ad => ad.wellFormed

/-- Operand 3 read back from the ModRM fields, the SIB byte and the displacement that the encoder writes (R59, R60). -/
theorem decodeRM_tail (rm : RM) (rest : List Byte) (h : rm.wellFormed = true) :
    decodeRM rm.xBit rm.bBit rm.mod rm.rmField (rm.tail ++ rest) = some (rm, rest) := by
  cases rm with
  | reg r => simp [decodeRM, RM.mod, RM.xBit, RM.bBit, RM.rmField, RM.tail]
  | m00 ad =>
    cases ad with
    | base g =>
      simp only [RM.wellFormed, Addr00.wellFormed, Bool.and_eq_true, bne_iff_ne, ne_eq] at h
      have h4 : ¬ (GReg.bits g).extractLsb' 0 3 = 0b100#3 := fun e => h.1 ((low_eq_four_iff g).mp e)
      have h5 : ¬ (GReg.bits g).extractLsb' 0 3 = 0b101#3 := fun e => h.2 ((low_eq_five_iff g).mp e)
      simp [decodeRM, RM.mod, RM.bBit, RM.rmField, RM.tail, h4, h5]
    | rip d => simp [decodeRM, RM.mod, RM.rmField, RM.tail]
    | sib g i =>
      simp only [RM.wellFormed, Addr00.wellFormed, Bool.and_eq_true, bne_iff_ne, ne_eq] at h
      have h5 : ¬ (GReg.bits g).extractLsb' 0 3 = 0b101#3 := fun e => h.1 ((low_eq_five_iff g).mp e)
      simp [decodeRM, decodeSib, RM.mod, RM.xBit, RM.bBit, RM.rmField, RM.tail, sibIndex_sibByte _ _ h.2, h5]
    | sibNoBase i d =>
      simp only [RM.wellFormed, Addr00.wellFormed] at h
      simp [decodeRM, decodeSib, RM.mod, RM.xBit, RM.rmField, RM.tail, sibIndex_sibByte _ _ h]
  | m01 ad =>
    cases ad with
    | base g d =>
      simp only [RM.wellFormed, AddrDisp.wellFormed, bne_iff_ne, ne_eq] at h
      have h4 : ¬ (GReg.bits g).extractLsb' 0 3 = 0b100#3 := fun e => h ((low_eq_four_iff g).mp e)
      simp [decodeRM, RM.mod, RM.bBit, RM.rmField, RM.tail, h4]
    | sib g i d =>
      simp only [RM.wellFormed, AddrDisp.wellFormed] at h
      simp [decodeRM, decodeSib, RM.mod, RM.xBit, RM.bBit, RM.rmField, RM.tail, sibIndex_sibByte _ _ h]
  | m10 ad =>
    cases ad with
    | base g d =>
      simp only [RM.wellFormed, AddrDisp.wellFormed, bne_iff_ne, ne_eq] at h
      have h4 : ¬ (GReg.bits g).extractLsb' 0 3 = 0b100#3 := fun e => h ((low_eq_four_iff g).mp e)
      simp [decodeRM, RM.mod, RM.bBit, RM.rmField, RM.tail, h4]
    | sib g i d =>
      simp only [RM.wellFormed, AddrDisp.wellFormed] at h
      simp [decodeRM, decodeSib, RM.mod, RM.xBit, RM.bBit, RM.rmField, RM.tail, sibIndex_sibByte _ _ h]

/-- The EVEX part that the encoder writes, read back up to the validity checks (R50 to R60). -/
theorem decodeEvex_encodeFields (st : PrefixScan) (n : Nat) (ll : BitVec 2) (bc : Bool) (d a : VReg) (rm : RM)
    (m : Writemask) (imm : Byte) (rest : List Byte) (h : rm.wellFormed = true) :
    decodeEvex st n (0x62#8 :: p0Byte (encodeFields ll bc d a rm m) :: p1Byte (encodeFields ll bc d a rm m) ::
        p2Byte (encodeFields ll bc d a rm m) :: 0x50#8 :: modrmByte d rm :: (rm.tail ++ [imm] ++ rest)) =
      classify st (encodeFields ll bc d a rm m) ((VReg.bits d).extractLsb' 0 3) rm imm rest := by
  simp only [decodeEvex, p0Ok_p0Byte, p1Ok_p1Byte]
  simp only [ne_eq, not_true, if_false, Bool.not_true, Bool.false_eq_true, fieldsOf_bytes, decodeModRM, modrmByte_mod,
    modrmByte_rm, modrmByte_reg]
  have := decodeRM_tail rm ([imm] ++ rest) h
  rw [← List.append_assoc] at this
  rw [show (encodeFields ll bc d a rm m).x = rm.xBit from rfl, show (encodeFields ll bc d a rm m).b = rm.bBit from rfl,
    this]
  rfl

/-- A complete candidate with the fields of a valid instruction is that instruction (R71). -/
theorem classify_encodeFields (p : Prefixes) (ll : BitVec 2) (bc : Bool) (d a : VReg) (rm : RM) (m : Writemask)
    (imm : Byte) (rest : List Byte) (i : Instr) (hw : m.wellFormed = true)
    (hi : instrOf ll bc rm p d a m imm = some i) :
    classify ⟨p, false⟩ (encodeFields ll bc d a rm m) ((VReg.bits d).extractLsb' 0 3) rm imm rest = .ok i rest := by
  have h1 : ((encodeFields ll bc d a rm m).z && (encodeFields ll bc d a rm m).aaa == 0#3) = false := by
    obtain ⟨k, z⟩ := m
    simp only [Writemask.wellFormed, Bool.not_eq_true'] at hw
    rw [← hw]
    show (z && BitVec.ofFin k == 0#3) = (z && k == 0)
    have key : ∀ k : KReg, (BitVec.ofFin k == 0#3) = (k == 0) := by decide
    rw [key]
  have h2 : vregOf (encodeFields ll bc d a rm m).rr (encodeFields ll bc d a rm m).r ((VReg.bits d).extractLsb' 0 3) = d :=
    vregOf_bits d
  have h3 : vregOfV (encodeFields ll bc d a rm m).vv (encodeFields ll bc d a rm m).vvvv = a := vregOfV_bits a
  have h4 : (⟨(encodeFields ll bc d a rm m).aaa.toFin, (encodeFields ll bc d a rm m).z⟩ : Writemask) = m := rfl
  simp only [classify, h1, h2, h3, h4]
  simp only [Bool.false_eq_true, if_false]
  rw [show (encodeFields ll bc d a rm m).ll = ll from rfl, show (encodeFields ll bc d a rm m).bc = bc from rfl, hi]

/-! ## What the decoder has read when it answers -/

/-- The number of bytes of SIB and displacement (R69). -/
theorem tail_length (rm : RM) : rm.tail.length = match rm with
    | .reg _ => 0
    | .m00 ad => ad.extra
    | .m01 ad => ad.extra
    | .m10 ad => ad.extra := by
  rcases rm with r | (b | d | ⟨b, i⟩ | ⟨i, d⟩) | (⟨b, d⟩ | ⟨b, i, d⟩) | (⟨b, d⟩ | ⟨b, i, d⟩) <;> rfl

/-- A displacement takes four bytes. -/
theorem takeDisp32_inv {bs : List Byte} {d : BitVec 32} {r : List Byte} (h : takeDisp32 bs = some (d, r)) :
    ∃ pre, bs = pre ++ r ∧ pre.length = 4 := by
  unfold takeDisp32 at h
  split at h
  · cases h; exact ⟨[_, _, _, _], rfl, rfl⟩
  · cases h

/-- A SIB byte never names RSP as index (R60). -/
theorem sibIndex_wellFormed (x : Bool) (sib : Byte) : indexWellFormed (sibIndex x sib) = true := by
  unfold sibIndex
  dsimp only
  split
  · rfl
  · rename_i h
    simpa [indexWellFormed, Index.wellFormed] using h

/-- The low field of a register number from its bits (R60). -/
theorem low3_gregOf : ∀ (b : Bool) (l : BitVec 3),
    (GReg.low3 (gregOf b l) = 4 ↔ l = 0b100#3) ∧ (GReg.low3 (gregOf b l) = 5 ↔ l = 0b101#3) := by
  decide

/-- Everything the SIB forms can answer: a well-formed operand, after the SIB byte and the displacement. -/
theorem decodeSib_inv {x b : Bool} {mod : BitVec 2} {sib : Byte} {bs : List Byte} {rm : RM} {rest : List Byte}
    (h : decodeSib x b mod sib bs = some (rm, rest)) :
    rm.wellFormed = true ∧ ∃ pre, sib :: bs = pre ++ rest ∧ pre.length = rm.tail.length := by
  unfold decodeSib at h
  dsimp only at h
  split at h
  · split at h
    · split at h
      · cases h
      · rename_i hd
        cases h
        obtain ⟨pre, rfl, hl⟩ := takeDisp32_inv hd
        exact ⟨sibIndex_wellFormed _ _, sib :: pre, rfl, by simp [RM.tail, disp32Bytes, hl]⟩
    · rename_i hne
      cases h
      refine ⟨?_, [sib], rfl, rfl⟩
      have := (low3_gregOf b (sib.extractLsb' 0 3)).2
      simp [RM.wellFormed, Addr00.wellFormed, sibIndex_wellFormed, this, hne]
  · split at h
    · split at h
      · cases h
      · cases h; exact ⟨sibIndex_wellFormed _ _, [_, _], rfl, rfl⟩
    · split at h
      · cases h
      · rename_i hd
        cases h
        obtain ⟨pre, rfl, hl⟩ := takeDisp32_inv hd
        exact ⟨sibIndex_wellFormed _ _, sib :: pre, rfl, by simp [RM.tail, disp32Bytes, hl]⟩

/-- Everything that reading operand 3 can answer. -/
theorem decodeRM_inv {x b : Bool} {mod : BitVec 2} {rmf : BitVec 3} {bs : List Byte} {rm : RM} {rest : List Byte}
    (h : decodeRM x b mod rmf bs = some (rm, rest)) :
    rm.wellFormed = true ∧ ∃ pre, bs = pre ++ rest ∧ pre.length = rm.tail.length := by
  unfold decodeRM at h
  split at h
  · cases h; exact ⟨rfl, [], rfl, rfl⟩
  · split at h
    · split at h
      · cases h
      · exact decodeSib_inv h
    · rename_i h4
      have h4' := (low3_gregOf b rmf).1
      have h5' := (low3_gregOf b rmf).2
      split at h
      · split at h
        · split at h
          · cases h
          · rename_i hd
            cases h
            obtain ⟨pre, rfl, hl⟩ := takeDisp32_inv hd
            exact ⟨rfl, pre, rfl, by simp [RM.tail, disp32Bytes, hl]⟩
        · rename_i h5
          cases h
          exact ⟨by simp [RM.wellFormed, Addr00.wellFormed, h4', h5', h4, h5], [], rfl, rfl⟩
      · split at h
        · split at h
          · cases h
          · cases h; exact ⟨by simp [RM.wellFormed, AddrDisp.wellFormed, h4', h4], [_], rfl, rfl⟩
        · split at h
          · cases h
          · rename_i hd
            cases h
            obtain ⟨pre, rfl, hl⟩ := takeDisp32_inv hd
            exact ⟨by simp [RM.wellFormed, AddrDisp.wellFormed, h4', h4], pre, rfl, by simp [RM.tail, disp32Bytes, hl]⟩

/-- The instruction of a row, its well-formedness and its length, from its operands (R69, R73). -/
theorem instrOf_inv {ll : BitVec 2} {bc : Bool} {rm : RM} {p : Prefixes} {d a : VReg} {m : Writemask} {imm : Byte}
    {i : Instr} (h : instrOf ll bc rm p d a m imm = some i) :
    i.wellFormed = (rm.wellFormed && m.wellFormed) ∧ i.length = lengthWith p rm.tail.length := by
  unfold instrOf at h
  split at h <;> cases h <;> exact ⟨by simp [Instr.wellFormed, RM.wellFormed], by simp [Instr.length, tail_length]⟩

/-- When a complete candidate is an instruction (R71). -/
theorem classify_inv {st : PrefixScan} {f : EvexFields} {reg : BitVec 3} {rm : RM} {imm : Byte} {rest rest' : List Byte}
    {i : Instr} (hr : rm.wellFormed = true) (h : classify st f reg rm imm rest = .ok i rest') :
    st.illegal = false ∧ rest' = rest ∧ i.wellFormed = true ∧ i.length = lengthWith st.pre rm.tail.length := by
  unfold classify at h
  split at h
  · cases h
  · rename_i hi
    split at h
    · cases h
    · rename_i hz
      split at h
      · rename_i ho
        cases h
        obtain ⟨h1, h2⟩ := instrOf_inv ho
        refine ⟨by simpa using hi, rfl, ?_, h2⟩
        rw [h1, hr]
        simp only [Writemask.wellFormed, Bool.true_and, Bool.not_eq_true']
        have key : ∀ k : BitVec 3, (k.toFin == (0 : KReg)) = (k == 0#3) := by decide
        show (f.z && f.aaa.toFin == (0 : KReg)) = false
        rw [key]
        simpa using hz
      · cases h

/-! ## The length that the decoder determines (R40, R69) -/

/-- A displacement is there exactly when four bytes are. -/
theorem takeDisp32_eq (bs : List Byte) :
    (bs.length < 4 ∧ takeDisp32 bs = none) ∨ (4 ≤ bs.length ∧ ∃ d, takeDisp32 bs = some (d, bs.drop 4)) := by
  rcases bs with _ | ⟨a, _ | ⟨b, _ | ⟨c, _ | ⟨d, r⟩⟩⟩⟩
  · exact .inl ⟨by simp, rfl⟩
  · exact .inl ⟨by simp, rfl⟩
  · exact .inl ⟨by simp, rfl⟩
  · exact .inl ⟨by simp, rfl⟩
  · exact .inr ⟨by simp, _, rfl⟩

/-- ModRM alone determines the length of operand 3, but with `mod = 00b` and `rm = 100b` (R69). -/
theorem tailLength_none {mod : BitVec 2} {rmf : BitVec 3} {bs : List Byte} (h : tailLength mod rmf bs = none) :
    mod = 0b00#2 ∧ rmf = 0b100#3 ∧ bs = [] := by
  have key : ∀ m : BitVec 2, m ≠ 0b11#2 → m ≠ 0b10#2 → m ≠ 0b01#2 → m = 0b00#2 := by decide
  unfold tailLength at h
  repeat' split at h
  all_goals cases h
  exact ⟨key _ ‹_› ‹_› ‹_›, ‹_›, rfl⟩

/-- Everything `tailLength` says of operand 3: where it has no answer there is no SIB byte; else the operand takes that many
bytes, and it is not complete when fewer are there (R60, R69). -/
theorem tailLength_cases (x b : Bool) (mod : BitVec 2) (rmf : BitVec 3) (bs : List Byte) :
    (tailLength mod rmf bs = none ∧ bs = [] ∧ decodeRM x b mod rmf bs = none) ∨
    ∃ e, tailLength mod rmf bs = some e ∧ e ≤ 5 ∧
      ((bs.length < e ∧ decodeRM x b mod rmf bs = none) ∨
        (e ≤ bs.length ∧ ∃ rm, decodeRM x b mod rmf bs = some (rm, bs.drop e))) := by
  have hmod : mod = 0b00#2 ∨ mod = 0b01#2 ∨ mod = 0b10#2 ∨ mod = 0b11#2 := by revert mod; decide
  by_cases h4 : rmf = 0b100#3
  · rcases bs with _ | ⟨sib, r⟩
    · rcases hmod with rfl | rfl | rfl | rfl <;> simp [tailLength, decodeRM, h4]
    · have key := takeDisp32_eq r
      rcases hmod with rfl | rfl | rfl | rfl
      · by_cases h5 : sib.extractLsb' 0 3 = 0b101#3
        · rcases key with ⟨h1, h2⟩ | ⟨h1, d, h2⟩ <;> simp [tailLength, decodeRM, decodeSib, h4, h5, h2] <;> omega
        · simp [tailLength, decodeRM, decodeSib, h4, h5]
      · rcases r with _ | ⟨d, r⟩ <;> simp [tailLength, decodeRM, decodeSib, h4]
      · rcases key with ⟨h1, h2⟩ | ⟨h1, d, h2⟩ <;> simp [tailLength, decodeRM, decodeSib, h4, h2] <;> omega
      · simp [tailLength, decodeRM]
  · have key := takeDisp32_eq bs
    rcases hmod with rfl | rfl | rfl | rfl
    · by_cases h5 : rmf = 0b101#3
      · rcases key with ⟨h1, h2⟩ | ⟨h1, d, h2⟩ <;> simp [tailLength, decodeRM, h5, h2] <;> omega
      · simp [tailLength, decodeRM, h4, h5]
    · rcases bs with _ | ⟨d, r⟩ <;> simp [tailLength, decodeRM, h4]
    · rcases key with ⟨h1, h2⟩ | ⟨h1, d, h2⟩ <;> simp [tailLength, decodeRM, h4, h2] <;> omega
    · simp [tailLength, decodeRM]

/-- What is known of bytes that end after ModRM: more are needed than are there, at most `n + 12`. -/
theorem decodeModRM_truncated {st : PrefixScan} {n : Nat} {f : EvexFields} {modrm : Byte} {bs : List Byte} {need : Nat}
    (h : decodeModRM st n f modrm bs = .truncated need) : n + 6 + bs.length < need ∧ need ≤ n + 12 := by
  have hneed : need = neededBytes n (modrm.extractLsb' 6 2) (modrm.extractLsb' 0 3) bs ∧
      ∀ rm imm rest, decodeRM f.x f.b (modrm.extractLsb' 6 2) (modrm.extractLsb' 0 3) bs ≠ some (rm, imm :: rest) := by
    unfold decodeModRM at h
    split at h
    · rename_i hr
      cases h
      exact ⟨rfl, fun _ _ _ e => by rw [hr] at e; cases e⟩
    · rename_i hr
      split at h
      · cases h
        exact ⟨rfl, fun _ _ _ e => by rw [hr] at e; cases e⟩
      · unfold classify at h
        repeat' split at h
        all_goals cases h
  obtain ⟨rfl, hno⟩ := hneed
  unfold neededBytes
  rcases tailLength_cases f.x f.b (modrm.extractLsb' 6 2) (modrm.extractLsb' 0 3) bs with
    ⟨h1, rfl, _⟩ | ⟨e, h1, he, ⟨h2, _⟩ | ⟨h2, rm, h3⟩⟩
  · rw [h1]; simp
  · rw [h1]; simp only; omega
  · rw [h1]
    have : (bs.drop e).length = 0 := by
      cases hd : bs.drop e with
      | nil => rfl
      | cons i r => exact absurd (hd ▸ h3) (hno _ _ _)
    rw [List.length_drop] at this
    simp only
    omega

/-- The same of the EVEX part. -/
theorem decodeEvex_truncated {st : PrefixScan} {n : Nat} {bs : List Byte} {need : Nat}
    (h : decodeEvex st n bs = .truncated need) : n + bs.length < need ∧ need ≤ n + 12 := by
  unfold decodeEvex at h
  repeat' split at h
  all_goals first
    | (cases h <;> simp)
    | (have := decodeModRM_truncated h; simp; omega)

/-- How many more legacy prefixes the scan admits. -/
def PrefixScan.left (st : PrefixScan) : Nat :=
  (if st.pre.seg.isSome then 0 else 1) + (if st.pre.addr32 then 0 else 1) + (if st.illegal then 0 else 1)

/-- Bytes that end inside the instruction are too few, and 15 bytes are always enough (R69). -/
theorem decodeFrom_truncated {bs : List Byte} : ∀ {st : PrefixScan} {n need : Nat},
    decodeFrom st n bs = .truncated need → n + bs.length < need ∧ need ≤ n + st.left + 12 := by
  induction bs with
  | nil => intro st n need h; cases h; simp; omega
  | cons x bs ih =>
    intro st n need h
    obtain ⟨⟨sg, a⟩, il⟩ := st
    unfold decodeFrom at h
    split at h
    · split at h
      · cases h
      · rename_i hc
        have := ih h
        simp only [PrefixScan.left] at this ⊢
        simp_all; omega
    · split at h
      · cases h
      · rename_i hc
        have := ih h
        simp only [PrefixScan.left] at this ⊢
        simp_all; omega
    · split at h
      · cases h
      · rename_i hc
        have := ih h
        simp only [PrefixScan.left] at this ⊢
        simp_all; omega
    · split at h
      · cases h; simp; omega
      · split at h
        · cases h
        · split at h
          · cases h
          · rename_i hc
            have := ih h
            simp only [PrefixScan.left] at this ⊢
            simp_all; omega
    · have := decodeEvex_truncated h
      omega

/-- Bytes that end inside the instruction are too few, and 15 bytes are always enough (R69). -/
theorem decode_truncated {bs : List Byte} {need : Nat} (h : decode bs = .truncated need) :
    bs.length < need ∧ need ≤ 15 := by
  have := decodeFrom_truncated h
  simp only [PrefixScan.left, PrefixScan.start] at this
  simp at this
  omega

/-! ## Prefixes -/

/-- The class of a segment-override byte (R70). -/
@[simp] theorem prefixClass_byte (sg : SegPrefix) : prefixClass sg.byte = .seg sg := by cases sg <;> rfl

/-- The number of bytes the encoder writes for the prefixes (R69). -/
@[simp] theorem bytes_length (p : Prefixes) : p.bytes.length = p.count := by
  obtain ⟨sg, a⟩ := p
  cases sg <;> cases a <;> rfl

/-- The scan over the prefix bytes that the encoder writes, up to a byte that is no prefix (R70). -/
theorem decodeFrom_bytes (p : Prefixes) (x : Byte) (bs : List Byte) (h : prefixClass x = .other) :
    decode (p.bytes ++ x :: bs) = decodeEvex ⟨p, false⟩ p.count (x :: bs) := by
  obtain ⟨sg, a⟩ := p
  cases sg <;> cases a <;>
    simp [decode, Prefixes.bytes, decodeFrom, PrefixScan.start, Prefixes.count, h,
      show prefixClass 0x67#8 = PrefixClass.addr32 from rfl]

end Sys2Proof
end

