-- ==== Sys2Proof/Laws/State.lean ====
section
/-! SUPPORT. One lemma per field per update of the state, so that no later proof unfolds a record update. -/

namespace Sys2Proof.Machine

@[simp] theorem writeZmm_zmm (s : State) (r : VReg) (v : ZWord) : (writeZmm s r v).zmm = s.zmm.set r v := rfl
@[simp] theorem writeZmm_k (s : State) (r : VReg) (v : ZWord) : (writeZmm s r v).k = s.k := rfl
@[simp] theorem writeZmm_mxcsr (s : State) (r : VReg) (v : ZWord) : (writeZmm s r v).mxcsr = s.mxcsr := rfl
@[simp] theorem writeZmm_x (s : State) (r : VReg) (v : ZWord) : (writeZmm s r v).x = s.x := rfl
@[simp] theorem writeZmm_pc (s : State) (r : VReg) (v : ZWord) : (writeZmm s r v).pc = s.pc := rfl
@[simp] theorem writeZmm_fsbase (s : State) (r : VReg) (v : ZWord) : (writeZmm s r v).fsbase = s.fsbase := rfl
@[simp] theorem writeZmm_gsbase (s : State) (r : VReg) (v : ZWord) : (writeZmm s r v).gsbase = s.gsbase := rfl
@[simp] theorem writeZmm_rflagsAC (s : State) (r : VReg) (v : ZWord) : (writeZmm s r v).rflagsAC = s.rflagsAC := rfl
@[simp] theorem writeZmm_cpl (s : State) (r : VReg) (v : ZWord) : (writeZmm s r v).cpl = s.cpl := rfl
@[simp] theorem writeZmm_mem (s : State) (r : VReg) (v : ZWord) : (writeZmm s r v).mem = s.mem := rfl
@[simp] theorem writeZmm_mode (s : State) (r : VReg) (v : ZWord) : (writeZmm s r v).mode = s.mode := rfl
@[simp] theorem writeZmm_env (s : State) (r : VReg) (v : ZWord) : (writeZmm s r v).env = s.env := rfl
@[simp] theorem writeZmm_params (s : State) (r : VReg) (v : ZWord) : (writeZmm s r v).params = s.params := rfl

@[simp] theorem advancePc_zmm (s : State) (len : Nat) : (advancePc s len).zmm = s.zmm := rfl
@[simp] theorem advancePc_k (s : State) (len : Nat) : (advancePc s len).k = s.k := rfl
@[simp] theorem advancePc_mxcsr (s : State) (len : Nat) : (advancePc s len).mxcsr = s.mxcsr := rfl
@[simp] theorem advancePc_x (s : State) (len : Nat) : (advancePc s len).x = s.x := rfl
@[simp] theorem advancePc_pc (s : State) (len : Nat) : (advancePc s len).pc = s.pc + BitVec.ofNat 64 len := rfl
@[simp] theorem advancePc_fsbase (s : State) (len : Nat) : (advancePc s len).fsbase = s.fsbase := rfl
@[simp] theorem advancePc_gsbase (s : State) (len : Nat) : (advancePc s len).gsbase = s.gsbase := rfl
@[simp] theorem advancePc_rflagsAC (s : State) (len : Nat) : (advancePc s len).rflagsAC = s.rflagsAC := rfl
@[simp] theorem advancePc_cpl (s : State) (len : Nat) : (advancePc s len).cpl = s.cpl := rfl
@[simp] theorem advancePc_mem (s : State) (len : Nat) : (advancePc s len).mem = s.mem := rfl
@[simp] theorem advancePc_mode (s : State) (len : Nat) : (advancePc s len).mode = s.mode := rfl
@[simp] theorem advancePc_env (s : State) (len : Nat) : (advancePc s len).env = s.env := rfl
@[simp] theorem advancePc_params (s : State) (len : Nat) : (advancePc s len).params = s.params := rfl

@[simp] theorem writeMxcsr_zmm (s : State) (v : BitVec 32) : (writeMxcsr s v).zmm = s.zmm := rfl
@[simp] theorem writeMxcsr_k (s : State) (v : BitVec 32) : (writeMxcsr s v).k = s.k := rfl
@[simp] theorem writeMxcsr_mxcsr (s : State) (v : BitVec 32) : (writeMxcsr s v).mxcsr = v := rfl
@[simp] theorem writeMxcsr_x (s : State) (v : BitVec 32) : (writeMxcsr s v).x = s.x := rfl
@[simp] theorem writeMxcsr_pc (s : State) (v : BitVec 32) : (writeMxcsr s v).pc = s.pc := rfl
@[simp] theorem writeMxcsr_fsbase (s : State) (v : BitVec 32) : (writeMxcsr s v).fsbase = s.fsbase := rfl
@[simp] theorem writeMxcsr_gsbase (s : State) (v : BitVec 32) : (writeMxcsr s v).gsbase = s.gsbase := rfl
@[simp] theorem writeMxcsr_rflagsAC (s : State) (v : BitVec 32) : (writeMxcsr s v).rflagsAC = s.rflagsAC := rfl
@[simp] theorem writeMxcsr_cpl (s : State) (v : BitVec 32) : (writeMxcsr s v).cpl = s.cpl := rfl
@[simp] theorem writeMxcsr_mem (s : State) (v : BitVec 32) : (writeMxcsr s v).mem = s.mem := rfl
@[simp] theorem writeMxcsr_mode (s : State) (v : BitVec 32) : (writeMxcsr s v).mode = s.mode := rfl
@[simp] theorem writeMxcsr_env (s : State) (v : BitVec 32) : (writeMxcsr s v).env = s.env := rfl
@[simp] theorem writeMxcsr_params (s : State) (v : BitVec 32) : (writeMxcsr s v).params = s.params := rfl

@[simp] theorem placeAtPc_zmm (s : State) (bs : List Byte) : (placeAtPc s bs).zmm = s.zmm := rfl
@[simp] theorem placeAtPc_k (s : State) (bs : List Byte) : (placeAtPc s bs).k = s.k := rfl
@[simp] theorem placeAtPc_mxcsr (s : State) (bs : List Byte) : (placeAtPc s bs).mxcsr = s.mxcsr := rfl
@[simp] theorem placeAtPc_x (s : State) (bs : List Byte) : (placeAtPc s bs).x = s.x := rfl
@[simp] theorem placeAtPc_pc (s : State) (bs : List Byte) : (placeAtPc s bs).pc = s.pc := rfl
@[simp] theorem placeAtPc_fsbase (s : State) (bs : List Byte) : (placeAtPc s bs).fsbase = s.fsbase := rfl
@[simp] theorem placeAtPc_gsbase (s : State) (bs : List Byte) : (placeAtPc s bs).gsbase = s.gsbase := rfl
@[simp] theorem placeAtPc_rflagsAC (s : State) (bs : List Byte) : (placeAtPc s bs).rflagsAC = s.rflagsAC := rfl
@[simp] theorem placeAtPc_cpl (s : State) (bs : List Byte) : (placeAtPc s bs).cpl = s.cpl := rfl
@[simp] theorem placeAtPc_mem (s : State) (bs : List Byte) : (placeAtPc s bs).mem = Memory.writeBytes s.mem s.pc bs := rfl
@[simp] theorem placeAtPc_mode (s : State) (bs : List Byte) : (placeAtPc s bs).mode = s.mode := rfl
@[simp] theorem placeAtPc_env (s : State) (bs : List Byte) : (placeAtPc s bs).env = s.env := rfl
@[simp] theorem placeAtPc_params (s : State) (bs : List Byte) : (placeAtPc s bs).params = s.params := rfl

@[simp] theorem readK_writeZmm (s : State) (r : VReg) (v : ZWord) (i : KReg) : readK (writeZmm s r v) i = readK s i := rfl
@[simp] theorem readK_advancePc (s : State) (n : Nat) (i : KReg) : readK (advancePc s n) i = readK s i := rfl
@[simp] theorem readK_writeMxcsr (s : State) (v : BitVec 32) (i : KReg) : readK (writeMxcsr s v) i = readK s i := rfl
@[simp] theorem readX_writeZmm (s : State) (r : VReg) (v : ZWord) (i : GReg) : readX (writeZmm s r v) i = readX s i := rfl
@[simp] theorem readX_advancePc (s : State) (n : Nat) (i : GReg) : readX (advancePc s n) i = readX s i := rfl
@[simp] theorem readX_writeMxcsr (s : State) (v : BitVec 32) (i : GReg) : readX (writeMxcsr s v) i = readX s i := rfl
@[simp] theorem readZmm_advancePc (s : State) (n : Nat) (r : VReg) : readZmm (advancePc s n) r = readZmm s r := rfl
@[simp] theorem readZmm_writeMxcsr (s : State) (v : BitVec 32) (r : VReg) :
    readZmm (writeMxcsr s v) r = readZmm s r := rfl

/-- A vector register reads what was just written to it. -/
@[simp] theorem readZmm_writeZmm_self (s : State) (r : VReg) (v : ZWord) : readZmm (writeZmm s r v) r = v := by
  simp [readZmm, writeZmm]

/-- Writing one vector register leaves every other alone. -/
theorem readZmm_writeZmm_ne (s : State) (r q : VReg) (v : ZWord) (h : q ≠ r) :
    readZmm (writeZmm s r v) q = readZmm s q := by
  have h' : (r : Nat) ≠ (q : Nat) := fun e => h (Fin.ext e.symm)
  simp [readZmm, writeZmm, h']

/-- Both cases of reading a vector register after a write. -/
theorem readZmm_writeZmm (s : State) (r q : VReg) (v : ZWord) :
    readZmm (writeZmm s r v) q = if q = r then v else readZmm s q := by
  by_cases h : q = r
  · subst h; simp
  · simp [h, readZmm_writeZmm_ne]

end Sys2Proof.Machine
end

