-- ==== Sys2Proof/Laws/Memory.lean ====
section
/-! SUPPORT. Memory: read after write, and the canonical form that every memory operation keeps (10_state.md R21). -/

namespace Sys2Proof.Machine

/-- A read after a write to the same address gives the byte written. -/
@[simp] theorem read_write_self (m : Memory) (a : Nat) (v : Byte) : Memory.read (Memory.write m a v) a = some v := by
  induction m with
  | nil => simp [Memory.write, Memory.read]
  | cons e r ih =>
    obtain ⟨c, w⟩ := e
    simp only [Memory.write]
    split
    · simp [Memory.read]
    · split
      · simp [Memory.read]
      · rename_i h1 h2
        have : c ≠ a := fun e => h2 e.symm
        simp [Memory.read, this, ih]

/-- A write leaves every other address alone. -/
theorem read_write_ne (m : Memory) (a b : Nat) (v : Byte) (h : b ≠ a) :
    Memory.read (Memory.write m a v) b = Memory.read m b := by
  induction m with
  | nil => simp [Memory.write, Memory.read, h.symm]
  | cons e r ih =>
    obtain ⟨c, w⟩ := e
    simp only [Memory.write]
    split
    · simp [Memory.read, h.symm]
    · split
      · rename_i h1 h2
        subst h2
        simp [Memory.read, h.symm]
      · simp [Memory.read, ih]

/-- A write below `2^64` keeps the canonical form. -/
theorem write_risingFrom (m : Memory) (lo a : Nat) (v : Byte) (h : Memory.risingFrom lo m = true) (ha : lo ≤ a)
    (hb : a < 2 ^ 64) : Memory.risingFrom lo (Memory.write m a v) = true := by
  induction m generalizing lo with
  | nil => simp [Memory.write, Memory.risingFrom, ha]; omega
  | cons e r ih =>
    obtain ⟨c, w⟩ := e
    simp only [Memory.risingFrom, Bool.and_eq_true, decide_eq_true_eq] at h
    obtain ⟨⟨h1, h2⟩, h3⟩ := h
    simp only [Memory.write]
    split
    · simp only [Memory.risingFrom, Bool.and_eq_true, decide_eq_true_eq]
      exact ⟨⟨ha, hb⟩, ⟨by omega, h2⟩, h3⟩
    · split
      · rename_i h4 h5
        subst h5
        simp only [Memory.risingFrom, Bool.and_eq_true, decide_eq_true_eq]
        exact ⟨⟨ha, hb⟩, h3⟩
      · simp only [Memory.risingFrom, Bool.and_eq_true, decide_eq_true_eq]
        exact ⟨⟨h1, h2⟩, ih (c + 1) h3 (by omega)⟩

/-- Writing a byte at a linear address keeps the canonical form. -/
theorem write_wf (m : Memory) (a : Word) (v : Byte) (h : Memory.wf m = true) :
    Memory.wf (Memory.write m a.toNat v) = true :=
  write_risingFrom m 0 a.toNat v h (Nat.zero_le _) a.isLt

/-- Writing consecutive bytes keeps the canonical form. -/
theorem writeBytes_wf (m : Memory) (a : Word) (bs : List Byte) (h : Memory.wf m = true) :
    Memory.wf (Memory.writeBytes m a bs) = true := by
  induction bs generalizing m a with
  | nil => exact h
  | cons v r ih => exact ih _ _ (write_wf m a v h)

/-- Memory at reset has the canonical form. -/
theorem reset_wf : Memory.wf State.reset.mem = true := rfl

/-- In canonical form an address below every entry is unlisted. -/
theorem read_of_risingFrom (m : Memory) (lo a : Nat) (h : Memory.risingFrom lo m = true) (ha : a < lo) :
    Memory.read m a = none := by
  induction m generalizing lo with
  | nil => rfl
  | cons e r ih =>
    obtain ⟨c, w⟩ := e
    simp only [Memory.risingFrom, Bool.and_eq_true, decide_eq_true_eq] at h
    have hc : c ≠ a := by omega
    simp [Memory.read, hc, ih (c + 1) h.2 (by omega)]

/-- Memories in canonical form that read the same everywhere are equal data. -/
theorem eq_of_read_eq (m n : Memory) (lo : Nat) (hm : Memory.risingFrom lo m = true)
    (hn : Memory.risingFrom lo n = true) (h : ∀ a, Memory.read m a = Memory.read n a) : m = n := by
  induction m generalizing n lo with
  | nil =>
    cases n with
    | nil => rfl
    | cons e r =>
      obtain ⟨c, w⟩ := e
      have := h c
      simp [Memory.read, unlistedByte] at this
  | cons e r ih =>
    obtain ⟨c, w⟩ := e
    simp only [Memory.risingFrom, Bool.and_eq_true, decide_eq_true_eq] at hm
    cases n with
    | nil =>
      have := h c
      simp [Memory.read, unlistedByte] at this
    | cons e' r' =>
      obtain ⟨c', w'⟩ := e'
      simp only [Memory.risingFrom, Bool.and_eq_true, decide_eq_true_eq] at hn
      have hcc : c = c' := by
        rcases Nat.lt_trichotomy c c' with hlt | heq | hgt
        · have h1 := h c
          have h2 : c' ≠ c := by omega
          simp [Memory.read, h2, read_of_risingFrom r' (c' + 1) c hn.2 (by omega)] at h1
        · exact heq
        · have h1 := h c'
          have h2 : c ≠ c' := by omega
          simp [Memory.read, h2, read_of_risingFrom r (c + 1) c' hm.2 (by omega)] at h1
      subst hcc
      have hw : w = w' := by simpa [Memory.read] using h c
      subst hw
      congr 1
      refine ih r' (c + 1) hm.2 hn.2 fun a => ?_
      by_cases hca : c = a
      · subst hca
        rw [read_of_risingFrom r (c + 1) c hm.2 (by omega), read_of_risingFrom r' (c + 1) c hn.2 (by omega)]
      · simpa [Memory.read, hca] using h a

end Sys2Proof.Machine
end

