-- ==== Sys2Proof/Laws/Vector.lean ====
section
/-! SUPPORT. Elements of a vector (10_state.md R11): reading back what `ofElems` was built from, and equality by elements. -/

namespace Sys2Proof.Machine

/-- Bits of an element. -/
theorem elem_getLsbD (v : ZWord) (j i : Nat) : (elem v j).getLsbD i = (decide (i < 64) && v.getLsbD (64 * j + i)) := by
  simp [elem]

/-- Bits of a vector built from its elements. -/
theorem ofElems_getLsbD (f : Nat → Word) (n : Nat) (h : n < 512) :
    (ofElems f).getLsbD n = (f (n / 64)).getLsbD (n % 64) := by
  unfold ofElems
  have h8 : n / 64 < 8 := by omega
  obtain ⟨q, hq⟩ : ∃ q, q = n / 64 := ⟨_, rfl⟩
  obtain ⟨r, hr⟩ : ∃ r, r = n % 64 := ⟨_, rfl⟩
  have hn : n = 64 * q + r := by omega
  have hr64 : r < 64 := by omega
  rw [← hq] at h8
  rw [← hq, ← hr, hn]
  simp only [BitVec.getLsbD_append]
  interval_cases q
  all_goals
    repeat' split
  all_goals first
    | (exfalso; omega)
    | exact congrArg (BitVec.getLsbD _) (by omega)

/-- An element of a vector built from its elements. -/
@[simp] theorem elem_ofElems (f : Nat → Word) (j : Nat) (h : j < 8) : elem (ofElems f) j = f j := by
  apply BitVec.eq_of_getLsbD_eq
  intro i hi
  rw [elem_getLsbD, ofElems_getLsbD _ _ (by omega)]
  have h1 : (64 * j + i) / 64 = j := by omega
  have h2 : (64 * j + i) % 64 = i := by omega
  simp [h1, h2, hi]

/-- Two vectors with the same eight elements are equal. -/
theorem eq_of_elem_eq (v w : ZWord) (h : ∀ j, j < 8 → elem v j = elem w j) : v = w := by
  apply BitVec.eq_of_getLsbD_eq
  intro i hi
  have hj := congrArg (fun t => t.getLsbD (i % 64)) (h (i / 64) (by omega))
  simp only [elem_getLsbD] at hj
  have h1 : 64 * (i / 64) + i % 64 = i := by omega
  have h2 : i % 64 < 64 := by omega
  simpa [h1, h2] using hj

/-- `KL` is at most 8. -/
theorem elems_le (vl : VLen) : elems vl ≤ 8 := by cases vl <;> decide

/-- `KL` is at least 2. -/
theorem two_le_elems (vl : VLen) : 2 ≤ elems vl := by cases vl <;> decide

end Sys2Proof.Machine
end

