-- ==== Sys2Proof/Laws/Ops.lean ====
section
/-! SUPPORT. One lemma for each shared operation that says once everything it can do; later proofs cite these instead of
unfolding the operation. -/

namespace Sys2Proof.Machine

/-! ## Raising -/

/-- Raising ends the run with a fault whose state is the state it was raised in (60_exceptions.md R119, R120). -/
theorem raise_eq_fault (x : Exn) (s : State) : ∃ f, raise x s = .fault f ∧ f.after = s := by
  cases x <;> exact ⟨_, rfl, rfl⟩

/-- Raising never gives a next state. -/
theorem raise_ne_next (x : Exn) (s t : State) : raise x s ≠ .next t := by
  cases x <;> simp [raise]

/-- Raising never refuses. -/
theorem raise_ne_refused (x : Exn) (s : State) (r : Refusal) : raise x s ≠ .refused r := by
  cases x <;> simp [raise]

/-- The fault that raising gives carries the state it was raised in. -/
theorem after_of_raise {x : Exn} {s : State} {f : Fault} (h : raise x s = .fault f) : f.after = s := by
  obtain ⟨g, hg, hs⟩ := raise_eq_fault x s
  rw [hg] at h
  cases h
  exact hs

/-! ## Access and reads -/

/-- A query that `Access` lets through has every byte in the domain of memory (20_memory.md R32). -/
theorem isSome_of_accessAnswer {s : State} {q : AccessQuery} (h : accessAnswer s q = none) :
    ∀ a ∈ q.addrs, (Memory.read s.mem a.toNat).isSome = true := by
  unfold accessAnswer at h
  split at h
  · cases h
  · split at h
    · cases h
    · unfold domainAnswer at h
      split at h
      · rename_i hf
        intro a ha
        have := List.find?_eq_none.mp hf a ha
        exact Option.isSome_iff_ne_none.mpr (by simpa using this)
      · cases h

/-- With no rule in the table, `Access` is the simplest instance of D6. -/
theorem accessAnswer_of_no_rules {s : State} (q : AccessQuery) (h : s.params.access = []) :
    accessAnswer s q = domainAnswer s.mem q := by
  simp [accessAnswer, h, nonCanonicalAnswer, pageAnswer]

/-- A read that `Access` lets through gives the bytes. -/
theorem memRead_of_ok {s : State} {q : AccessQuery} (h : accessAnswer s q = none) :
    memRead s q = .ok (bytesAt s.mem q) := by
  simp [memRead, h]

/-- A read that `Access` denies raises what it names. -/
theorem memRead_of_denied {s : State} {q : AccessQuery} {x : Exn} (h : accessAnswer s q = some x) :
    memRead s q = .error x := by
  simp [memRead, h]

/-- Everything a read can do. -/
theorem memRead_cases (s : State) (q : AccessQuery) :
    (∃ x, accessAnswer s q = some x ∧ memRead s q = .error x) ∨
      (accessAnswer s q = none ∧ memRead s q = .ok (bytesAt s.mem q)) := by
  cases h : accessAnswer s q with
  | none => exact .inr ⟨rfl, memRead_of_ok h⟩
  | some x => exact .inl ⟨x, rfl, memRead_of_denied h⟩

/-- A non-canonical answer is `#SS(0)` or `#GP(0)`, by the segment of the query alone (R115). -/
theorem nonCanonicalAnswer_eq {rs : List AccessRule} {q : AccessQuery} {x : Exn}
    (h : nonCanonicalAnswer rs q = some x) : x = nonCanonicalExn q := by
  induction rs with
  | nil => cases h
  | cons r rest ih =>
    unfold nonCanonicalAnswer at h
    split at h
    · cases h; rfl
    · exact ih h

/-- The page rules answer with page faults (R116). -/
theorem pageAnswer_eq {rs : List AccessRule} {q : AccessQuery} {x : Exn} (h : pageAnswer rs q = some x) :
    ∃ p r i k a, x = .pf (pfCode p r i k q) a := by
  induction rs with
  | nil => cases h
  | cons r rest ih =>
    unfold pageAnswer at h
    split at h
    · cases h; exact ⟨_, _, _, _, _, rfl⟩
    · exact ih h

/-- The domain of memory answers with page faults (D6). -/
theorem domainAnswer_eq {m : Memory} {q : AccessQuery} {x : Exn} (h : domainAnswer m q = some x) :
    ∃ p r i k a, x = .pf (pfCode p r i k q) a := by
  unfold domainAnswer at h
  split at h <;> cases h
  exact ⟨_, _, _, _, _, rfl⟩

/-- Everything `Access` can answer: `ok`, the non-canonical fault, or a page fault when no rule calls the query
non-canonical (R32, R115, R116, R118). -/
theorem accessAnswer_cases (s : State) (q : AccessQuery) :
    (nonCanonicalAnswer s.params.access q = none ∧ accessAnswer s q = none) ∨
    (nonCanonicalAnswer s.params.access q = some (nonCanonicalExn q) ∧ accessAnswer s q = some (nonCanonicalExn q)) ∨
    (nonCanonicalAnswer s.params.access q = none ∧
      ∃ p r i k a, accessAnswer s q = some (.pf (pfCode p r i k q) a)) := by
  unfold accessAnswer
  cases h1 : nonCanonicalAnswer s.params.access q with
  | some x => exact .inr (.inl (by rw [nonCanonicalAnswer_eq h1]; exact ⟨rfl, rfl⟩))
  | none =>
    cases h2 : pageAnswer s.params.access q with
    | some x => obtain ⟨p, r, i, k, a, rfl⟩ := pageAnswer_eq h2; exact .inr (.inr ⟨rfl, p, r, i, k, a, rfl⟩)
    | none =>
      cases h3 : domainAnswer s.mem q with
      | some x => obtain ⟨p, r, i, k, a, rfl⟩ := domainAnswer_eq h3; exact .inr (.inr ⟨rfl, p, r, i, k, a, rfl⟩)
      | none => exact .inl ⟨rfl, rfl⟩

/-- Everything several reads can raise: nothing when all are permitted, else what `Access` answers to one of them, and a
non-canonical address of any of them first (R118). -/
theorem faultOfReads_cases (s : State) (qs : List AccessQuery) :
    ((∀ q ∈ qs, accessAnswer s q = none) ∧ faultOfReads s qs = none) ∨
    ∃ q ∈ qs, ∃ x, accessAnswer s q = some x ∧ faultOfReads s qs = some x ∧
      ((∃ q' ∈ qs, ∃ y, nonCanonicalAnswer s.params.access q' = some y) → nonCanonicalAnswer s.params.access q = some x) := by
  unfold faultOfReads
  cases h1 : qs.findSome? (nonCanonicalAnswer s.params.access) with
  | some x =>
    obtain ⟨q, hq, hx⟩ := List.exists_of_findSome?_eq_some h1
    refine .inr ⟨q, hq, x, ?_, rfl, fun _ => hx⟩
    simp [accessAnswer, hx]
  | none =>
    rw [List.findSome?_eq_none_iff] at h1
    cases h2 : qs.findSome? (accessAnswer s) with
    | some x =>
      obtain ⟨q, hq, hx⟩ := List.exists_of_findSome?_eq_some h2
      refine .inr ⟨q, hq, x, hx, rfl, ?_⟩
      rintro ⟨q', hq', y, hy⟩
      rw [h1 q' hq'] at hy
      cases hy
    | none => exact .inl ⟨by simpa using h2, rfl⟩

/-! ## MXCSR -/

/-- Bits of MXCSR after the flags are OR-ed in (40_vrangepd.md R91). -/
theorem setFlags_getLsbD (v : BitVec 32) (ie de : Bool) (i : Nat) :
    (setFlags v ie de).getLsbD i = (v.getLsbD i || (i == 0 && ie) || (i == 1 && de)) := by
  unfold setFlags
  simp only [BitVec.getLsbD_or, BitVec.getLsbD_setWidth, BitVec.getLsbD_append, BitVec.getLsbD_ofBool]
  rcases i with _ | _ | i
  · cases ie <;> cases de <;> simp
  · cases ie <;> cases de <;> simp
  · have h : ¬ i + 2 < 1 := by omega
    simp [h]

/-- With nothing detected MXCSR stays as it is. -/
@[simp] theorem setFlags_false (v : BitVec 32) : setFlags v false false = v := by
  apply BitVec.eq_of_getLsbD_eq
  intro i _
  simp [setFlags_getLsbD]

/-- The conditions OR-ed over the active elements, as a proposition. -/
theorem someActive_iff (s : State) (f : Form) (c : Nat → Bool) :
    someActive s f c = true ↔ detected s f.vl f.wm c := by
  simp [someActive, detected, List.any_eq_true]

/-! ## One execution -/

/-- Every instruction is one execution of VRANGEPD in its row's form (30_encoding.md R73). -/
theorem exec_eq_vrangepd (i : Instr) (s : State) : exec i s = vrangepd (formOf i) s := by
  cases i <;> rfl

/-- The length in a row's form is the instruction's (30_encoding.md R69). -/
theorem formOf_len (i : Instr) : (formOf i).len = i.length := by
  cases i <;> rfl

/-- What `complete` can do: the `{sae}` form finishes with MXCSR untouched; any other form faults with the flags set, or
finishes with the flags set (40_vrangepd.md R91, R95). -/
theorem complete_cases (s : State) (f : Form) (r : LoopOut) :
    (f.sae = true ∧ complete s f r = .next (finish s f r.new)) ∨
    (f.sae = false ∧ unmaskedCondition s.mxcsr r.ie r.de = true ∧
      complete s f r = raise (fpExn s.env) (writeMxcsr s (setFlags s.mxcsr r.ie r.de))) ∨
    (f.sae = false ∧ unmaskedCondition s.mxcsr r.ie r.de = false ∧
      complete s f r = .next (finish (writeMxcsr s (setFlags s.mxcsr r.ie r.de)) f r.new)) := by
  unfold complete
  cases hs : f.sae <;> cases hu : unmaskedCondition s.mxcsr r.ie r.de <;> simp

/-- What one execution can do, in the order of 40_vrangepd.md R97. -/
theorem vrangepd_cases (f : Form) (s : State) :
    (imm8Refused s f.imm = true ∧ vrangepd f s = .refused .imm8HighNonzero) ∨
    (imm8Refused s f.imm = false ∧ (f.wm.wellFormed && enabled s.env f.vl) = false ∧ vrangepd f s = raise .ud s) ∨
    (imm8Refused s f.imm = false ∧ (f.wm.wellFormed && enabled s.env f.vl) = true ∧ s.env.cr0Ts = true ∧
      vrangepd f s = raise .nm s) ∨
    (imm8Refused s f.imm = false ∧ (f.wm.wellFormed && enabled s.env f.vl) = true ∧ s.env.cr0Ts = false ∧
      ∃ x, readSrc2 s f = .error x ∧ vrangepd f s = raise x s) ∨
    (imm8Refused s f.imm = false ∧ (f.wm.wellFormed && enabled s.env f.vl) = true ∧ s.env.cr0Ts = false ∧
      ∃ v, readSrc2 s f = .ok v ∧ vrangepd f s = complete s f (elementLoop s f v)) := by
  unfold vrangepd
  cases h1 : imm8Refused s f.imm
  · cases h2 : (f.wm.wellFormed && enabled s.env f.vl)
    · simp
    · cases h3 : s.env.cr0Ts
      · cases h4 : readSrc2 s f <;> simp
      · simp
  · simp

/-- The prerequisites of a form, read as the checks that one execution makes. -/
theorem vrangepd_of_mayExecute {f : Form} {s : State} (h : mayExecute s f.vl f.wm f.imm) :
    vrangepd f s = match readSrc2 s f with
      | .error x => raise x s
      | .ok v => complete s f (elementLoop s f v) := by
  obtain ⟨h1, h2, h3⟩ := h
  simp only [launchReady, Bool.and_eq_true, Bool.not_eq_true'] at h3
  unfold vrangepd
  cases readSrc2 s f <;> simp [h1, h2, h3.1, h3.2]

/-- A next state of one execution comes from the completing cases of `complete`. -/
theorem next_of_vrangepd {f : Form} {s t : State} (h : vrangepd f s = .next t) :
    ∃ v, readSrc2 s f = .ok v ∧
      t = finish (if f.sae then s else
        writeMxcsr s (setFlags s.mxcsr (elementLoop s f v).ie (elementLoop s f v).de)) f (elementLoop s f v).new := by
  rcases vrangepd_cases f s with ⟨_, e⟩ | ⟨_, _, e⟩ | ⟨_, _, _, e⟩ | ⟨_, _, _, x, _, e⟩ | ⟨_, _, _, v, hv, e⟩
  · rw [e] at h; cases h
  · rw [e] at h; exact absurd h (raise_ne_next _ _ _)
  · rw [e] at h; exact absurd h (raise_ne_next _ _ _)
  · rw [e] at h; exact absurd h (raise_ne_next _ _ _)
  · refine ⟨v, hv, ?_⟩
    rw [e] at h
    rcases complete_cases s f (elementLoop s f v) with ⟨hs, e'⟩ | ⟨_, _, e'⟩ | ⟨hs, _, e'⟩
    · rw [e'] at h; cases h; simp [hs]
    · rw [e'] at h; exact absurd h (raise_ne_next _ _ _)
    · rw [e'] at h; cases h; simp [hs]

/-- A fault of one execution leaves the state as it was, but for the MXCSR flags of a floating-point fault. -/
theorem fault_of_vrangepd {f : Form} {s : State} {g : Fault} (h : vrangepd f s = .fault g) :
    g.after = s ∨ ∃ v, readSrc2 s f = .ok v ∧ f.sae = false ∧
      unmaskedCondition s.mxcsr (elementLoop s f v).ie (elementLoop s f v).de = true ∧
      raise (fpExn s.env) g.after = .fault g ∧
      g.after = writeMxcsr s (setFlags s.mxcsr (elementLoop s f v).ie (elementLoop s f v).de) := by
  rcases vrangepd_cases f s with ⟨_, e⟩ | ⟨_, _, e⟩ | ⟨_, _, _, e⟩ | ⟨_, _, _, x, _, e⟩ | ⟨_, _, _, v, hv, e⟩
  · rw [e] at h; cases h
  · rw [e] at h; exact .inl (after_of_raise h)
  · rw [e] at h; exact .inl (after_of_raise h)
  · rw [e] at h; exact .inl (after_of_raise h)
  · rw [e] at h
    rcases complete_cases s f (elementLoop s f v) with ⟨hs, e'⟩ | ⟨hs, hu, e'⟩ | ⟨hs, _, e'⟩
    · rw [e'] at h; cases h
    · rw [e'] at h
      have ha := after_of_raise h
      exact .inr ⟨v, hv, hs, hu, by rw [ha]; exact h, ha⟩
    · rw [e'] at h; cases h

/-! ## What a completed execution leaves -/

/-- The decision to fault, read off the active elements (40_vrangepd.md R91). -/
theorem unmaskedCondition_iff (s : State) (f : Form) (v : ZWord) :
    unmaskedCondition s.mxcsr (elementLoop s f v).ie (elementLoop s f v).de = true ↔
      unmaskedDetected s f.vl f.wm (rangeElem s f v) := by
  simp [unmaskedCondition, unmaskedDetected, elementLoop, ← someActive_iff]

/-- The flags OR-ed in are those of the detected conditions, and no other bit changes (40_vrangepd.md R91). -/
theorem flagsOred_setFlags (s t : State) (f : Form) (v : ZWord)
    (h : t.mxcsr = setFlags s.mxcsr (elementLoop s f v).ie (elementLoop s f v).de) :
    FlagsOred s t (detected s f.vl f.wm fun j => (rangeElem s f v j).ie)
      (detected s f.vl f.wm fun j => (rangeElem s f v j).de) := by
  constructor
  · simp only [mxIE, h, setFlags_getLsbD, elementLoop, ← someActive_iff]
    simp
  · simp only [mxDE, h, setFlags_getLsbD, elementLoop, ← someActive_iff]
    simp
  · intro n hn
    rw [h, setFlags_getLsbD]
    have h0 : (n == 0) = false := by simp; omega
    have h1 : (n == 1) = false := by simp; omega
    simp [h0, h1]

/-- The elements of the new destination (40_vrangepd.md R90). -/
theorem elem_elementLoop (s : State) (f : Form) (v : ZWord) (j : Nat) (h : j < 8) :
    elem (elementLoop s f v).new j = newElem s f v j := elem_ofElems _ _ h

/-! ## One step -/

/-- What a fetch that finds `f` can do. -/
theorem fetched_cases (s : State) (n : Nat) (f : Fetched) :
    (∃ x, accessAnswer s (fetchQuery s n) = some x ∧ fetched s n f = .error x) ∨
      (accessAnswer s (fetchQuery s n) = none ∧ fetched s n f = .ok f) := by
  unfold fetched
  cases h : accessAnswer s (fetchQuery s n) <;> simp

/-- What one step can do. -/
theorem step_cases (s : State) :
    (s.mode ≠ .bits64 ∧ step s = .refused .notIn64BitMode) ∨
    (s.mode = .bits64 ∧ runDone s = true ∧ step s = .next s) ∨
    (s.mode = .bits64 ∧ runDone s = false ∧
      ((∃ x, fetch s = .error x ∧ step s = raise x s) ∨
       (∃ i, fetch s = .ok (.instr i) ∧ step s = exec i s) ∨
       (∃ imm, fetch s = .ok (.invalid imm) ∧ step s = execInvalid imm s) ∨
       (fetch s = .ok .notVrangepd ∧ step s = .refused .notVrangepd) ∨
       (fetch s = .ok .repeatedPrefix ∧ step s = .refused .repeatedPrefix))) := by
  unfold step
  by_cases hm : s.mode = .bits64
  · cases hd : runDone s
    · rcases hf : fetch s with x | f
      · simp [hm]
      · cases f <;> simp [hm]
    · simp [hm]
  · simp [hm]

/-- An invalid candidate is refused or raises `#UD`; it never completes. -/
theorem execInvalid_cases (imm : Byte) (s : State) :
    (imm8Refused s imm = true ∧ execInvalid imm s = .refused .imm8HighNonzero) ∨
      (imm8Refused s imm = false ∧ execInvalid imm s = raise .ud s) := by
  unfold execInvalid
  cases imm8Refused s imm <;> simp

/-- A next state of one step is the state itself (a run that is done) or comes from the fetched instruction. -/
theorem next_of_step {s t : State} (h : step s = .next t) :
    (runDone s = true ∧ t = s) ∨ ∃ i, fetch s = .ok (.instr i) ∧ exec i s = .next t := by
  rcases step_cases s with ⟨_, e⟩ | ⟨_, hd, e⟩ | ⟨_, _, ⟨x, _, e⟩ | ⟨i, hi, e⟩ | ⟨imm, _, e⟩ | ⟨_, e⟩ | ⟨_, e⟩⟩
  · rw [e] at h; cases h
  · rw [e] at h; cases h; exact .inl ⟨hd, rfl⟩
  · rw [e] at h; exact absurd h (raise_ne_next _ _ _)
  · rw [e] at h; exact .inr ⟨i, hi, h⟩
  · rcases execInvalid_cases imm s with ⟨_, e'⟩ | ⟨_, e'⟩
    · rw [e, e'] at h; cases h
    · rw [e, e'] at h; exact absurd h (raise_ne_next _ _ _)
  · rw [e] at h; cases h
  · rw [e] at h; cases h

end Sys2Proof.Machine
end

