-- ==== Sys2Proof/Laws/Operands.lean ====
section
/-! SUPPORT. What the bytes of an operand are as elements (20_memory.md R31 to R35), and what operand 3 depends on. -/

namespace Sys2Proof.Machine

/-! ## Bytes and elements -/

/-- Bits of the little-endian value of a list of bytes (R31). -/
theorem littleEndian_testBit (bs : List Byte) (i : Nat) :
    (littleEndian bs).testBit i = ((bs[i / 8]?).getD 0#8).getLsbD (i % 8) := by
  induction bs generalizing i with
  | nil => simp [littleEndian]
  | cons b r ih =>
    simp only [littleEndian]
    rw [show b.toNat + 256 * littleEndian r = 2 ^ 8 * littleEndian r + b.toNat by omega,
      Nat.testBit_two_pow_mul_add _ b.isLt]
    split
    · rename_i h
      have h1 : i / 8 = 0 := by omega
      have h2 : i % 8 = i := by omega
      simp [h1, h2, BitVec.testBit_toNat]
    · rename_i h
      obtain ⟨k, rfl⟩ : ∃ k, i = k + 8 := ⟨i - 8, by omega⟩
      have h1 : (k + 8) / 8 = k / 8 + 1 := by omega
      rw [Nat.add_sub_cancel, ih, h1]
      simp

/-- The bytes of a query, one by one. -/
theorem bytesAt_getElem? (m : Memory) (q : AccessQuery) (k : Nat) :
    (bytesAt m q)[k]? = if k < q.n then some ((Memory.read m (q.a + BitVec.ofNat 64 k).toNat).getD 0#8) else none := by
  simp only [bytesAt, AccessQuery.addrs, List.map_map, List.getElem?_map]
  split
  · rename_i h
    simp [List.getElem?_range h]
  · rename_i h
    rw [List.getElem?_eq_none (by simpa using h)]
    rfl

/-- A query reads as many bytes as it asks for. -/
@[simp] theorem bytesAt_length (m : Memory) (q : AccessQuery) : (bytesAt m q).length = q.n := by
  simp [bytesAt, AccessQuery.addrs]

/-- Element `j` of a read is the eight bytes at `a + 8j` (R31, R33). -/
theorem elem_littleEndian (m : Memory) (q : AccessQuery) (j : Nat) (h1 : 8 * j + 8 ≤ q.n) (h2 : q.n ≤ 64) :
    elem (BitVec.ofNat 512 (littleEndian (bytesAt m q))) j = wordAt m (q.a + BitVec.ofNat 64 (8 * j)) := by
  apply BitVec.eq_of_getLsbD_eq
  intro i hi
  rw [elem_getLsbD]
  obtain ⟨B, hB⟩ : ∃ B : Nat → Byte, B = fun k =>
    (Memory.read m ((q.a + BitVec.ofNat 64 (8 * j)) + BitVec.ofNat 64 k).toNat).getD 0#8 := ⟨_, rfl⟩
  have hb : ∀ k, k < 8 → (bytesAt m q)[8 * j + k]? = some (B k) := by
    intro k hk
    subst hB
    rw [bytesAt_getElem?, if_pos (by omega), BitVec.ofNat_add, ← BitVec.add_assoc]
  have hw : wordAt m (q.a + BitVec.ofNat 64 (8 * j)) = B 7 ++ B 6 ++ B 5 ++ B 4 ++ B 3 ++ B 2 ++ B 1 ++ B 0 := by
    rw [hB]; rfl
  have hl : (BitVec.ofNat 512 (littleEndian (bytesAt m q))).getLsbD (64 * j + i) = (B (i / 8)).getLsbD (i % 8) := by
    rw [BitVec.getLsbD_ofNat, littleEndian_testBit]
    have e1 : (64 * j + i) / 8 = 8 * j + i / 8 := by omega
    have e2 : (64 * j + i) % 8 = i % 8 := by omega
    have e3 : 64 * j + i < 512 := by omega
    rw [e1, e2, hb _ (by omega)]
    simp [e3]
  rw [hw, hl]
  simp only [hi, decide_true, Bool.true_and, BitVec.getLsbD_append]
  obtain ⟨a, ha⟩ : ∃ a, a = i / 8 := ⟨_, rfl⟩
  obtain ⟨b, hb'⟩ : ∃ b, b = i % 8 := ⟨_, rfl⟩
  have hab : i = 8 * a + b := by omega
  have hb8 : b < 8 := by omega
  have ha8 : a < 8 := by omega
  rw [← ha, ← hb', hab]
  interval_cases a
  all_goals
    repeat first
      | rw [if_pos (by omega)]
      | rw [if_neg (by omega)]
  all_goals exact congrArg (BitVec.getLsbD _) (by omega)

/-- Eight bytes as one word. -/
theorem ofNat_littleEndian (m : Memory) (q : AccessQuery) (h : q.n = 8) :
    BitVec.ofNat 64 (littleEndian (bytesAt m q)) = wordAt m q.a := by
  have h1 := elem_littleEndian m q 0 (by omega) (by omega)
  rw [show BitVec.ofNat 64 (8 * 0) = 0#64 from rfl, BitVec.add_zero] at h1
  rw [← h1]
  apply BitVec.eq_of_getLsbD_eq
  intro i hi
  have : i < 512 := by omega
  rw [elem_getLsbD, BitVec.getLsbD_ofNat, BitVec.getLsbD_ofNat]
  simp [hi, this]

/-! ## Reads under fault suppression (R35) -/

/-- An active element's eight bytes (R31, R35). -/
theorem elem_activeValue (s : State) (f : Form) (r : MemRef) (a : Word) (j : Nat) (hj : j < elems f.vl)
    (hm : maskBit s f.wm j = true) : elem (activeValue s f r a) j = wordAt s.mem (a + BitVec.ofNat 64 (8 * j)) := by
  have h8 := elems_le f.vl
  rw [activeValue, elem_ofElems _ _ (by omega), if_pos ⟨hj, hm⟩]
  exact ofNat_littleEndian _ (elemQuery s f r a j) rfl

/-- Which queries an instruction makes for its active elements. -/
theorem mem_activeQueries (s : State) (f : Form) (r : MemRef) (a : Word) (q : AccessQuery) :
    q ∈ activeQueries s f r a ↔ ∃ j, j < elems f.vl ∧ maskBit s f.wm j = true ∧ elemQuery s f r a j = q := by
  simp [activeQueries, and_assoc]

/-- Everything the reads of active elements can do: all are permitted and give their bytes, or the fault of one of them is
raised, `#SS(0)` or `#GP(0)` before any `#PF` (R118). -/
theorem readFull_suppressed_cases (s : State) (f : Form) (r : MemRef) (h : s.params.faultSuppression = true) :
    ((∀ q ∈ activeQueries s f r (linearAddress s f.pre f.len r), accessAnswer s q = none) ∧
      readFull s f r = .ok (activeValue s f r (linearAddress s f.pre f.len r))) ∨
    ∃ q ∈ activeQueries s f r (linearAddress s f.pre f.len r), ∃ x, accessAnswer s q = some x ∧
      readFull s f r = .error x ∧
      ((∃ q' ∈ activeQueries s f r (linearAddress s f.pre f.len r), ∃ y, nonCanonicalAnswer s.params.access q' = some y) →
        nonCanonicalAnswer s.params.access q = some x) := by
  simp only [readFull, h, if_true]
  rcases faultOfReads_cases s (activeQueries s f r (linearAddress s f.pre f.len r)) with ⟨h1, h2⟩ | ⟨q, hq, x, h1, h2, h3⟩
  · exact .inl ⟨h1, by rw [h2]⟩
  · exact .inr ⟨q, hq, x, h1, by rw [h2], h3⟩

/-! ## What operand 3 depends on -/

/-- Two states that agree on what address formation, `Access` and memory read give the same value of a memory operand, and
fail in the same way (20_memory.md R32 to R35). -/
theorem readSrc2_congr (s u : State) (f : Form) (hx : u.x = s.x) (hpc : u.pc = s.pc) (hfs : u.fsbase = s.fsbase)
    (hgs : u.gsbase = s.gsbase) (hac : u.rflagsAC = s.rflagsAC) (hcpl : u.cpl = s.cpl) (hmem : u.mem = s.mem)
    (henv : u.env = s.env) (hpar : u.params = s.params)
    (hmk : ∀ j, j < elems f.vl → maskBit u f.wm j = maskBit s f.wm j) (hreg : ∀ r, f.op3 ≠ .reg r) :
    readSrc2 u f = readSrc2 s f := by
  have hlin : ∀ r, linearAddress u f.pre f.len r = linearAddress s f.pre f.len r := by
    intro r
    have hb : ∀ b, baseValue u f.len b = baseValue s f.len b := by
      intro b; cases b <;> simp [baseValue, readX, hx, hpc]
    have hi : ∀ i, indexValue u i = indexValue s i := by intro i; cases i <;> simp [indexValue, readX, hx]
    have hi2 : ∀ i, indexValue32 u i = indexValue32 s i := by intro i; cases i <;> simp [indexValue32, readX, hx]
    simp only [linearAddress, effectiveAddress, hb, hi, hi2]
    congr 1
    unfold segmentBase
    rw [hfs, hgs]
  have hmr : ∀ q, memRead u q = memRead s q := by intro q; simp only [memRead, accessAnswer, hpar, hmem]
  have hq : ∀ r a n, dataQuery u f.pre r a n = dataQuery s f.pre r a n := by intro r a n; simp [dataQuery, hcpl]
  have hel : ∀ r a, elemQuery u f r a = elemQuery s f r a := by intro r a; funext j; exact hq _ _ _
  have hqs : ∀ r a, activeQueries u f r a = activeQueries s f r a := by
    intro r a
    unfold activeQueries
    rw [hel, List.filter_congr (q := maskBit s f.wm) fun j hj => hmk j (by simpa using hj)]
  have hfr : ∀ qs, faultOfReads u qs = faultOfReads s qs := by
    intro qs
    have : accessAnswer u = accessAnswer s := by funext q; simp only [accessAnswer, hpar, hmem]
    simp only [faultOfReads, hpar, this]
  have hav : ∀ r a, activeValue u f r a = activeValue s f r a := by
    intro r a
    unfold activeValue
    congr 1
    funext j
    rw [hel, hmem]
    by_cases hj : j < elems f.vl
    · rw [hmk j hj]
    · simp [hj]
  have hany : anyActive u f = anyActive s f := by
    unfold anyActive
    rw [Bool.eq_iff_iff]
    simp only [List.any_eq_true, List.mem_range]
    constructor <;> (rintro ⟨j, h1, h2⟩; exact ⟨j, h1, by simpa [hmk j h1] using h2⟩)
  have hbe : ∀ r, readBcstElem u f r = readBcstElem s f r := by
    intro r; unfold readBcstElem; simp only [hpar, hany, hmr, hq, hlin]
  unfold readSrc2
  cases ho : f.op3 with
  | reg r => exact absurd ho (hreg r)
  | full r => unfold readFull; simp only [hlin, hpar, hmr, hq, hqs, hfr, hav]
  | bcst r =>
    unfold readBcst
    simp only [hbe, alignmentCheckingOn, alignCheck, henv, hcpl, hac, hlin]
    rfl

end Sys2Proof.Machine
end

