-- ==== Sys2Proof/Laws/PerInstr.lean ====
section
/-! SUPPORT. Statements for all instructions, one lemma per constructor of Instr. `LengthBounds`: 30_encoding.md R69, "So
`7 <= len <= 14`". -/

namespace Sys2Proof.Laws

/-- At most two legacy prefixes (R69, R70). -/
theorem count_le_two (p : Prefixes) : p.count ≤ 2 := by
  obtain ⟨sg, a⟩ := p
  cases sg <;> cases a <;> simp [Prefixes.count]

/-- SIB and displacement take at most five bytes (R69). -/
theorem extra00_le (ad : Addr00) : ad.extra ≤ 5 := by cases ad <;> simp [Addr00.extra]

/-- SIB and displacement take at most two bytes with an 8-bit displacement (R69). -/
theorem extra8_le (ad : AddrDisp 8) : ad.extra ≤ 5 := by cases ad <;> simp [AddrDisp.extra]

/-- SIB and displacement take at most five bytes with a 32-bit displacement (R69). -/
theorem extra32_le (ad : AddrDisp 32) : ad.extra ≤ 5 := by cases ad <;> simp [AddrDisp.extra]

/-- The bounds of R69 for any form. -/
theorem lengthWith_bounds (p : Prefixes) (e : Nat) (h : e ≤ 5) : 7 ≤ lengthWith p e ∧ lengthWith p e ≤ 14 := by
  have := count_le_two p
  unfold lengthWith
  omega

/-- R69: "So `7 <= len <= 14`". -/
def LengthBounds.Statement (i : Instr) : Prop := 7 ≤ i.length ∧ i.length ≤ 14

theorem LengthBounds.xmmReg (p : Prefixes) (d a b : VReg) (m : Writemask) (imm : Byte) :
    LengthBounds.Statement (.xmmReg p d a b m imm) := lengthWith_bounds p _ (by omega)
theorem LengthBounds.xmmMem00 (p : Prefixes) (d a : VReg) (ad : Addr00) (m : Writemask) (imm : Byte) :
    LengthBounds.Statement (.xmmMem00 p d a ad m imm) := lengthWith_bounds p _ (extra00_le ad)
theorem LengthBounds.xmmMem01 (p : Prefixes) (d a : VReg) (ad : AddrDisp 8) (m : Writemask) (imm : Byte) :
    LengthBounds.Statement (.xmmMem01 p d a ad m imm) := lengthWith_bounds p _ (extra8_le ad)
theorem LengthBounds.xmmMem10 (p : Prefixes) (d a : VReg) (ad : AddrDisp 32) (m : Writemask) (imm : Byte) :
    LengthBounds.Statement (.xmmMem10 p d a ad m imm) := lengthWith_bounds p _ (extra32_le ad)
theorem LengthBounds.xmmBcst00 (p : Prefixes) (d a : VReg) (ad : Addr00) (m : Writemask) (imm : Byte) :
    LengthBounds.Statement (.xmmBcst00 p d a ad m imm) := lengthWith_bounds p _ (extra00_le ad)
theorem LengthBounds.xmmBcst01 (p : Prefixes) (d a : VReg) (ad : AddrDisp 8) (m : Writemask) (imm : Byte) :
    LengthBounds.Statement (.xmmBcst01 p d a ad m imm) := lengthWith_bounds p _ (extra8_le ad)
theorem LengthBounds.xmmBcst10 (p : Prefixes) (d a : VReg) (ad : AddrDisp 32) (m : Writemask) (imm : Byte) :
    LengthBounds.Statement (.xmmBcst10 p d a ad m imm) := lengthWith_bounds p _ (extra32_le ad)
theorem LengthBounds.ymmReg (p : Prefixes) (d a b : VReg) (m : Writemask) (imm : Byte) :
    LengthBounds.Statement (.ymmReg p d a b m imm) := lengthWith_bounds p _ (by omega)
theorem LengthBounds.ymmMem00 (p : Prefixes) (d a : VReg) (ad : Addr00) (m : Writemask) (imm : Byte) :
    LengthBounds.Statement (.ymmMem00 p d a ad m imm) := lengthWith_bounds p _ (extra00_le ad)
theorem LengthBounds.ymmMem01 (p : Prefixes) (d a : VReg) (ad : AddrDisp 8) (m : Writemask) (imm : Byte) :
    LengthBounds.Statement (.ymmMem01 p d a ad m imm) := lengthWith_bounds p _ (extra8_le ad)
theorem LengthBounds.ymmMem10 (p : Prefixes) (d a : VReg) (ad : AddrDisp 32) (m : Writemask) (imm : Byte) :
    LengthBounds.Statement (.ymmMem10 p d a ad m imm) := lengthWith_bounds p _ (extra32_le ad)
theorem LengthBounds.ymmBcst00 (p : Prefixes) (d a : VReg) (ad : Addr00) (m : Writemask) (imm : Byte) :
    LengthBounds.Statement (.ymmBcst00 p d a ad m imm) := lengthWith_bounds p _ (extra00_le ad)
theorem LengthBounds.ymmBcst01 (p : Prefixes) (d a : VReg) (ad : AddrDisp 8) (m : Writemask) (imm : Byte) :
    LengthBounds.Statement (.ymmBcst01 p d a ad m imm) := lengthWith_bounds p _ (extra8_le ad)
theorem LengthBounds.ymmBcst10 (p : Prefixes) (d a : VReg) (ad : AddrDisp 32) (m : Writemask) (imm : Byte) :
    LengthBounds.Statement (.ymmBcst10 p d a ad m imm) := lengthWith_bounds p _ (extra32_le ad)
theorem LengthBounds.zmmReg (p : Prefixes) (d a b : VReg) (m : Writemask) (imm : Byte) :
    LengthBounds.Statement (.zmmReg p d a b m imm) := lengthWith_bounds p _ (by omega)
theorem LengthBounds.zmmMem00 (p : Prefixes) (d a : VReg) (ad : Addr00) (m : Writemask) (imm : Byte) :
    LengthBounds.Statement (.zmmMem00 p d a ad m imm) := lengthWith_bounds p _ (extra00_le ad)
theorem LengthBounds.zmmMem01 (p : Prefixes) (d a : VReg) (ad : AddrDisp 8) (m : Writemask) (imm : Byte) :
    LengthBounds.Statement (.zmmMem01 p d a ad m imm) := lengthWith_bounds p _ (extra8_le ad)
theorem LengthBounds.zmmMem10 (p : Prefixes) (d a : VReg) (ad : AddrDisp 32) (m : Writemask) (imm : Byte) :
    LengthBounds.Statement (.zmmMem10 p d a ad m imm) := lengthWith_bounds p _ (extra32_le ad)
theorem LengthBounds.zmmBcst00 (p : Prefixes) (d a : VReg) (ad : Addr00) (m : Writemask) (imm : Byte) :
    LengthBounds.Statement (.zmmBcst00 p d a ad m imm) := lengthWith_bounds p _ (extra00_le ad)
theorem LengthBounds.zmmBcst01 (p : Prefixes) (d a : VReg) (ad : AddrDisp 8) (m : Writemask) (imm : Byte) :
    LengthBounds.Statement (.zmmBcst01 p d a ad m imm) := lengthWith_bounds p _ (extra8_le ad)
theorem LengthBounds.zmmBcst10 (p : Prefixes) (d a : VReg) (ad : AddrDisp 32) (m : Writemask) (imm : Byte) :
    LengthBounds.Statement (.zmmBcst10 p d a ad m imm) := lengthWith_bounds p _ (extra32_le ad)
theorem LengthBounds.zmmSae (p : Prefixes) (d a b : VReg) (m : Writemask) (imm : Byte) :
    LengthBounds.Statement (.zmmSae p d a b m imm) := lengthWith_bounds p _ (by omega)

end Sys2Proof.Laws
end

