-- ==== Sys2Proof/Laws/RangeDP.lean ====
section
/-! SUPPORT. Binary64 values by sign and magnitude (00_scope.md R8): every class predicate as bounds on the magnitude, and
what each step of RangeDP does to sign and magnitude (40_vrangepd.md R82 to R87). -/

namespace Sys2Proof.Machine

/-! ## Sign and magnitude -/

/-- Equal signs and equal magnitudes are equal values. -/
theorem eq_of_fsign_fmag {v w : Word} (h1 : fsign v = fsign w) (h2 : fmag v = fmag w) : v = w := by
  apply BitVec.eq_of_getLsbD_eq
  intro i hi
  by_cases h : i = 63
  · subst h; exact h1
  · have hh := congrArg (fun t => t.getLsbD i) h2
    have hi' : i < 63 := by omega
    simpa only [fmag, BitVec.getLsbD_extractLsb', hi', decide_true, Bool.true_and, Nat.zero_add] using hh

/-- The magnitude of a sign bit before a magnitude. -/
theorem fmag_append (b : Bool) (m : BitVec 63) : fmag (BitVec.ofBool b ++ m) = m := by
  apply BitVec.eq_of_getLsbD_eq
  intro i hi
  simp only [fmag, BitVec.getLsbD_extractLsb', BitVec.getLsbD_append, hi, Nat.zero_add, decide_true, Bool.true_and,
    if_true]

/-- The sign of a sign bit before a magnitude. -/
theorem fsign_append (b : Bool) (m : BitVec 63) : fsign (BitVec.ofBool b ++ m) = b := by
  simp only [fsign, BitVec.getLsbD_append]
  simp

/-- Replacing the sign keeps the magnitude (R87). -/
theorem fmag_withSign (b : Bool) (v : Word) : fmag (withSign b v) = fmag v := fmag_append _ _

/-- Replacing the sign sets it (R87). -/
theorem fsign_withSign (b : Bool) (v : Word) : fsign (withSign b v) = b := fsign_append _ _

/-- A value with its own sign is itself. -/
theorem withSign_self (v : Word) : withSign (fsign v) v = v := eq_of_fsign_fmag (fsign_withSign _ _) (fmag_withSign _ _)

/-- The exponent is the high part of the magnitude. -/
theorem fexp_toNat (v : Word) : (fexp v).toNat = (fmag v).toNat / 2 ^ 52 := by
  simp only [fexp, fmag, BitVec.extractLsb'_toNat, Nat.shiftRight_eq_div_pow]
  have := v.isLt
  omega

/-- The fraction is the low part of the magnitude. -/
theorem ffrac_toNat (v : Word) : (ffrac v).toNat = (fmag v).toNat % 2 ^ 52 := by
  simp only [ffrac, fmag, BitVec.extractLsb'_toNat, Nat.shiftRight_eq_div_pow]
  have := v.isLt
  omega

/-- Bit 51, which tells quiet from signaling, as arithmetic on the magnitude. -/
theorem bit51_eq (v : Word) : v.getLsbD 51 = decide ((fmag v).toNat / 2 ^ 51 % 2 = 1) := by
  have : v.getLsbD 51 = (fmag v).getLsbD 51 := by simp [fmag]
  rw [this, ← BitVec.testBit_toNat, Nat.testBit_eq_decide_div_mod_eq]

/-! ## Classes as bounds on the magnitude -/

theorem isNaN_iff (v : Word) : isNaN v = true ↔ 0x7FF0000000000000 < (fmag v).toNat := by
  have h1 := fexp_toNat v
  have h2 := ffrac_toNat v
  have h3 := (fmag v).isLt
  simp only [isNaN, Bool.and_eq_true, beq_iff_eq, bne_iff_ne, ne_eq, ← BitVec.toNat_inj, h1, h2]
  norm_num
  omega

theorem isDenormal_iff (v : Word) : isDenormal v = true ↔ 0 < (fmag v).toNat ∧ (fmag v).toNat < 2 ^ 52 := by
  have h1 := fexp_toNat v
  have h2 := ffrac_toNat v
  have h3 := (fmag v).isLt
  simp only [isDenormal, Bool.and_eq_true, beq_iff_eq, bne_iff_ne, ne_eq, ← BitVec.toNat_inj, h1, h2]
  norm_num
  omega

theorem isQNaN_iff (v : Word) : isQNaN v = true ↔ 0x7FF8000000000000 ≤ (fmag v).toNat := by
  have h3 := (fmag v).isLt
  simp only [isQNaN, Bool.and_eq_true, isNaN_iff, bit51_eq, decide_eq_true_eq]
  omega

theorem isSNaN_iff (v : Word) :
    isSNaN v = true ↔ 0x7FF0000000000000 < (fmag v).toNat ∧ (fmag v).toNat < 0x7FF8000000000000 := by
  have h3 := (fmag v).isLt
  simp only [isSNaN, Bool.and_eq_true, isNaN_iff, bit51_eq, Bool.not_eq_true', decide_eq_false_iff_not]
  omega

/-- A NaN is signaling or quiet. -/
theorem isNaN_iff_signaling_or_quiet (v : Word) : isNaN v = true ↔ isSNaN v = true ∨ isQNaN v = true := by
  rw [isNaN_iff, isSNaN_iff, isQNaN_iff]
  omega

/-- Class predicates read the magnitude only. -/
theorem classes_eq_of_fmag {v w : Word} (h : fmag v = fmag w) :
    isNaN v = isNaN w ∧ isSNaN v = isSNaN w ∧ isQNaN v = isQNaN w := by
  refine ⟨?_, ?_, ?_⟩ <;> rw [Bool.eq_iff_iff]
  · rw [isNaN_iff, isNaN_iff, h]
  · rw [isSNaN_iff, isSNaN_iff, h]
  · rw [isQNaN_iff, isQNaN_iff, h]

/-- The magnitude of a quieted value. -/
theorem fmag_quiet (v : Word) : (fmag (quiet v)).toNat = (fmag v).toNat ||| 2 ^ 51 := by
  have : fmag (quiet v) = fmag v ||| 0x0008000000000000#63 := by
    unfold fmag quiet
    apply BitVec.eq_of_getLsbD_eq
    intro i hi
    simp only [BitVec.getLsbD_extractLsb', BitVec.getLsbD_or, hi, decide_true, Bool.true_and, Nat.zero_add]
    congr 1
  rw [this]
  rfl

/-- Quieting a signaling NaN gives a quiet one. -/
theorem isQNaN_quiet (v : Word) (h : isSNaN v = true) : isQNaN (quiet v) = true := by
  rw [isQNaN_iff, fmag_quiet]
  rw [isSNaN_iff] at h
  have hm := (fmag v).isLt
  have := Nat.left_le_or (n := (fmag v).toNat) (m := 2 ^ 51)
  have hb : ((fmag v).toNat ||| 2 ^ 51).testBit 51 = true := by
    rw [Nat.testBit_or, Nat.testBit_two_pow_self, Bool.or_true]
  rw [Nat.testBit_eq_decide_div_mod_eq, decide_eq_true_eq] at hb
  have hlt : ((fmag v).toNat ||| 2 ^ 51) < 2 ^ 63 := Nat.or_lt_two_pow hm (by norm_num)
  omega

/-! ## The DAZ substitution (R82) -/

/-- The substitution keeps the sign. -/
theorem fsign_dazOperand (daz : Bool) (v : Word) : fsign (dazOperand daz v) = fsign v := by
  unfold dazOperand
  split
  · rw [fsign_append]
  · rfl

/-- The substitution makes a denormal's magnitude 0 and keeps any other. -/
theorem fmag_dazOperand (daz : Bool) (v : Word) :
    (fmag (dazOperand daz v)).toNat = if isDenormal v && daz then 0 else (fmag v).toNat := by
  unfold dazOperand
  split
  · rw [fmag_append]; rfl
  · rfl

/-- Without DAZ nothing is substituted. -/
theorem dazOperand_false (v : Word) : dazOperand false v = v := by simp [dazOperand]

/-- Under DAZ no operand is a denormal. -/
theorem isDenormal_dazOperand_true (v : Word) : isDenormal (dazOperand true v) = false := by
  rw [Bool.eq_false_iff, ne_eq, isDenormal_iff, fmag_dazOperand]
  split
  · omega
  · rename_i h
    rw [Bool.and_true, isDenormal_iff] at h
    exact h

/-- The substitution does not change the NaN classes. -/
theorem nan_dazOperand (daz : Bool) (v : Word) :
    isNaN (dazOperand daz v) = isNaN v ∧ isSNaN (dazOperand daz v) = isSNaN v ∧
      isQNaN (dazOperand daz v) = isQNaN v := by
  by_cases h : (isDenormal v && daz) = true
  · have hd := fmag_dazOperand daz v
    rw [if_pos h] at hd
    simp only [Bool.and_eq_true, isDenormal_iff] at h
    refine ⟨?_, ?_, ?_⟩ <;> rw [Bool.eq_iff_iff]
    · rw [isNaN_iff, isNaN_iff]; omega
    · rw [isSNaN_iff, isSNaN_iff]; omega
    · rw [isQNaN_iff, isQNaN_iff]; omega
  · have : dazOperand daz v = v := by unfold dazOperand; rw [if_neg h]
    rw [this]
    exact ⟨rfl, rfl, rfl⟩

/-! ## Compare result and sign selection (R83 to R87) -/

/-- The compare result is an operand, or a zero of Table 5-20. -/
theorem compareResult_cases (cmp : BitVec 2) (s1 s2 a b : Word) :
    compareResult cmp s1 s2 a b = a ∨ compareResult cmp s1 s2 a b = b ∨
      (oppositeZeros a b = true ∧ isQNaN s1 = false ∧ isQNaN s2 = false ∧
        compareResult cmp s1 s2 a b = if cmp.getLsbD 0 then 0#64 else 0x8000000000000000#64) := by
  unfold compareResult
  cases h2 : isQNaN s2
  · cases h1 : isQNaN s1
    · cases hz : oppositeZeros a b
      · simp only [Bool.false_eq_true, if_false, false_and, or_false, compareGeneral]
        repeat' split
        all_goals simp
      · exact .inr (.inr ⟨rfl, rfl, rfl, rfl⟩)
    · exact .inr (.inl rfl)
  · exact .inl rfl

/-- The sign selection keeps the magnitude. -/
theorem fmag_selectSign (sc : BitVec 2) (s1 tmp : Word) : fmag (selectSign sc s1 tmp) = fmag tmp := by
  unfold selectSign
  repeat' split
  all_goals simp [fmag_withSign]

/-- A zero magnitude is one of the two zeros. -/
theorem eq_zero_of_fmag (v : Word) (h : fmag v = 0#63) : v = if fsign v then 0x8000000000000000#64 else 0#64 := by
  apply eq_of_fsign_fmag
  · split <;> rename_i h'
    · rw [h']; decide
    · simp only [Bool.not_eq_true] at h'
      rw [h']; decide
  · rw [h]
    split <;> decide

end Sys2Proof.Machine
end

