-- ==== Sys2Proof/Tests/Slice0.lean ====
section
/-! SUPPORT. The model's own tests: ill-formed terms that the checks refuse, words written out from the spec's encoding
(95_test_vectors.md T4, T7.1), derived vectors (T2, T3, T5), one step of a launched machine, and for every statement with
hypotheses a concrete state and operands that meet them. Expected values are the spec's. -/

namespace Sys2Proof.Tests

-- one theorem at a time: many at once ask for more threads than the memory limit allows
set_option Elab.async false

open Sys2Proof.Machine

/-! ## WellFormed: one ill-formed term for each check -/

/-- R71: zeroing without a writemask. -/
theorem test_zeroing_without_mask_refused : (Instr.xmmReg ⟨none, false⟩ 1 2 3 ⟨0, true⟩ 0).wellFormed = false := by decide +kernel
/-- R60: RSP is no index. -/
theorem test_rsp_index_refused :
    (Instr.ymmMem01 ⟨none, false⟩ 1 2 (.sib 0 (some ⟨4, 0⟩) 0) ⟨0, false⟩ 0).wellFormed = false := by decide +kernel
/-- R60: with `mod = 00b`, RSP, R12 as a plain base announce a SIB byte, RBP, R13 the RIP-relative form. -/
theorem test_mod00_base_refused : ∀ b : GReg, b = 4 ∨ b = 5 ∨ b = 12 ∨ b = 13 →
    (Instr.zmmMem00 ⟨none, false⟩ 1 2 (.base b) ⟨0, false⟩ 0).wellFormed = false := by decide +kernel
/-- R60: with `mod = 00b` a SIB base field 101b means no base. -/
theorem test_mod00_sib_base_refused : ∀ b : GReg, b = 5 ∨ b = 13 →
    (Instr.xmmBcst00 ⟨none, false⟩ 1 2 (.sib b none) ⟨0, false⟩ 0).wellFormed = false := by decide +kernel
/-- R60: with a displacement, RSP, R12 as a plain base announce a SIB byte. -/
theorem test_disp_base_refused : ∀ b : GReg, b = 4 ∨ b = 12 →
    (Instr.zmmMem10 ⟨none, false⟩ 1 2 (.base b 0) ⟨0, false⟩ 0).wellFormed = false := by decide +kernel

/-! ## Decode: words written out from R50 to R69 (T4 and T7.1 where they have the row) -/

/-- No legacy prefix. -/
def noPre : Prefixes := ⟨none, false⟩
/-- No writemask. -/
def noMask : Writemask := ⟨0, false⟩

/-- The decoder reads exactly this instruction from these bytes. -/
def reads (bs : List Byte) (i : Instr) : Bool := decide (decode bs = .ok i [])

theorem test_decode_xmmReg : -- T4 rows 2 and 4
    reads [0x62, 0xF3, 0xED, 0x89, 0x50, 0xCB, 0x05] (.xmmReg noPre 1 2 3 ⟨1, true⟩ 0x05) ∧
    reads [0x62, 0x43, 0xFD, 0x08, 0x50, 0xFF, 0x0F] (.xmmReg noPre 31 0 15 noMask 0x0F) := by decide +kernel
theorem test_decode_xmmMem00 : reads [0x62, 0xF3, 0xED, 0x08, 0x50, 0x08, 0x02] (.xmmMem00 noPre 1 2 (.base 0) noMask 2) := by
  decide +kernel
theorem test_decode_xmmMem01 :
    reads [0x62, 0xF3, 0xED, 0x08, 0x50, 0x48, 0xFF, 0x02] (.xmmMem01 noPre 1 2 (.base 0 0xFF) noMask 2) := by decide +kernel
theorem test_decode_xmmMem10 : reads [0x62, 0xF3, 0xED, 0x08, 0x50, 0x88, 0x44, 0x33, 0x22, 0x11, 0x02]
    (.xmmMem10 noPre 1 2 (.base 0 0x11223344) noMask 2) := by decide +kernel
theorem test_decode_xmmBcst00 :
    reads [0x62, 0xF3, 0xED, 0x18, 0x50, 0x0A, 0x04] (.xmmBcst00 noPre 1 2 (.base 2) noMask 4) := by decide +kernel
theorem test_decode_xmmBcst01 : -- T4: [rdx+0x10]
    reads [0x62, 0xF3, 0xED, 0x18, 0x50, 0x4A, 0x02, 0x04] (.xmmBcst01 noPre 1 2 (.base 2 2) noMask 4) := by decide +kernel
theorem test_decode_xmmBcst10 : reads [0x62, 0xF3, 0xED, 0x18, 0x50, 0x8A, 0x01, 0x00, 0x00, 0x80, 0x04]
    (.xmmBcst10 noPre 1 2 (.base 2 0x80000001) noMask 4) := by decide +kernel
theorem test_decode_ymmReg :
    reads [0x62, 0xF3, 0xED, 0x2B, 0x50, 0xCB, 0x02] (.ymmReg noPre 1 2 3 ⟨3, false⟩ 2) := by decide +kernel
theorem test_decode_ymmMem00 : -- RIP-relative
    reads [0x62, 0xF3, 0xED, 0x28, 0x50, 0x0D, 0x00, 0x01, 0x00, 0x00, 0x02]
      (.ymmMem00 noPre 1 2 (.rip 0x100) noMask 2) := by decide +kernel
theorem test_decode_ymmMem01 : -- T4: [rax+rbx*4+0x40], [rsp+0x20]
    reads [0x62, 0x73, 0xED, 0x22, 0x50, 0x4C, 0x98, 0x02, 0x0B]
      (.ymmMem01 noPre 9 18 (.sib 0 (some ⟨3, 2⟩) 2) ⟨2, false⟩ 0x0B) ∧
    reads [0x62, 0xF3, 0xED, 0x28, 0x50, 0x4C, 0x24, 0x01, 0x02] (.ymmMem01 noPre 1 2 (.sib 4 none 1) noMask 2) := by
  decide +kernel
theorem test_decode_ymmMem10 : reads [0x62, 0xF3, 0xED, 0x28, 0x50, 0x88, 0x44, 0x00, 0x00, 0x00, 0x02]
    (.ymmMem10 noPre 1 2 (.base 0 0x44) noMask 2) := by decide +kernel
theorem test_decode_ymmBcst00 :
    reads [0x62, 0xF3, 0xED, 0x38, 0x50, 0x08, 0x02] (.ymmBcst00 noPre 1 2 (.base 0) noMask 2) := by decide +kernel
theorem test_decode_ymmBcst01 :
    reads [0x62, 0xF3, 0xED, 0x38, 0x50, 0x48, 0x01, 0x02] (.ymmBcst01 noPre 1 2 (.base 0 1) noMask 2) := by decide +kernel
theorem test_decode_ymmBcst10 : reads [0x62, 0xF3, 0xED, 0x38, 0x50, 0x88, 0x08, 0x00, 0x00, 0x00, 0x02]
    (.ymmBcst10 noPre 1 2 (.base 0 8) noMask 2) := by decide +kernel
theorem test_decode_zmmReg : -- T4 row 1 and the row with zmm19
    reads [0x62, 0xF3, 0xED, 0x48, 0x50, 0xCB, 0x02] (.zmmReg noPre 1 2 3 noMask 2) ∧
    reads [0x62, 0xB3, 0xED, 0x48, 0x50, 0xCB, 0x02] (.zmmReg noPre 1 2 19 noMask 2) := by decide +kernel
theorem test_decode_zmmMem00 : -- T4: [r12], [rax+rax*1], [rbx*8+0x1000], [0x1000], [rip+0x100], fs:[rax], [eax]
    reads [0x62, 0xD3, 0xED, 0x48, 0x50, 0x0C, 0x24, 0x02] (.zmmMem00 noPre 1 2 (.sib 12 none) noMask 2) ∧
    reads [0x62, 0xF3, 0xED, 0x48, 0x50, 0x0C, 0x00, 0x02] (.zmmMem00 noPre 1 2 (.sib 0 (some ⟨0, 0⟩)) noMask 2) ∧
    reads [0x62, 0xF3, 0xED, 0x48, 0x50, 0x0C, 0xDD, 0x00, 0x10, 0x00, 0x00, 0x02]
      (.zmmMem00 noPre 1 2 (.sibNoBase (some ⟨3, 3⟩) 0x1000) noMask 2) ∧
    reads [0x62, 0xF3, 0xED, 0x48, 0x50, 0x0C, 0x25, 0x00, 0x10, 0x00, 0x00, 0x02]
      (.zmmMem00 noPre 1 2 (.sibNoBase none 0x1000) noMask 2) ∧
    reads [0x62, 0xF3, 0xED, 0x4F, 0x50, 0x0D, 0x00, 0x01, 0x00, 0x00, 0x02]
      (.zmmMem00 noPre 1 2 (.rip 0x100) ⟨7, false⟩ 2) ∧
    reads [0x64, 0x62, 0xF3, 0xED, 0x48, 0x50, 0x08, 0x02] (.zmmMem00 ⟨some .fs, false⟩ 1 2 (.base 0) noMask 2) ∧
    reads [0x67, 0x62, 0xF3, 0xED, 0x48, 0x50, 0x08, 0x02] (.zmmMem00 ⟨none, true⟩ 1 2 (.base 0) noMask 2) := by decide +kernel
theorem test_decode_zmmMem01 : -- T4: [r8+r9*8-0x80], [r13]
    reads [0x62, 0x83, 0xED, 0x48, 0x50, 0x4C, 0xC8, 0xFE, 0x02]
      (.zmmMem01 noPre 17 2 (.sib 8 (some ⟨9, 3⟩) 0xFE) noMask 2) ∧
    reads [0x62, 0xD3, 0xED, 0x48, 0x50, 0x4D, 0x00, 0x02] (.zmmMem01 noPre 1 2 (.base 13 0) noMask 2) := by decide +kernel
theorem test_decode_zmmMem10 : -- T4: [rax+0x44], [r13+r12*2+0x2000]
    reads [0x62, 0xF3, 0xED, 0x48, 0x50, 0x88, 0x44, 0x00, 0x00, 0x00, 0x02]
      (.zmmMem10 noPre 1 2 (.base 0 0x44) noMask 2) ∧
    reads [0x62, 0x93, 0xED, 0x48, 0x50, 0x8C, 0x65, 0x00, 0x20, 0x00, 0x00, 0x02]
      (.zmmMem10 noPre 1 2 (.sib 13 (some ⟨12, 1⟩) 0x2000) noMask 2) := by decide +kernel
theorem test_decode_zmmBcst00 : -- T5.12
    reads [0x62, 0xF3, 0xED, 0x58, 0x50, 0x08, 0x02] (.zmmBcst00 noPre 1 2 (.base 0) noMask 2) := by decide +kernel
theorem test_decode_zmmBcst01 : -- T4: [rcx+8]{1to8}
    reads [0x62, 0x63, 0x95, 0x50, 0x50, 0x71, 0x01, 0x01] (.zmmBcst01 noPre 30 29 (.base 1 1) noMask 1) := by decide +kernel
theorem test_decode_zmmBcst10 : reads [0x62, 0xF3, 0xED, 0x58, 0x50, 0x88, 0x08, 0x00, 0x00, 0x00, 0x02]
    (.zmmBcst10 noPre 1 2 (.base 0 8) noMask 2) := by decide +kernel
theorem test_decode_zmmSae : -- T4: L'L = 00b and 11b, and zmm6, zmm7, zmm8
    reads [0x62, 0xF3, 0xED, 0x18, 0x50, 0xCB, 0x02] (.zmmSae noPre 1 2 3 noMask 2) ∧
    reads [0x62, 0xF3, 0xED, 0x78, 0x50, 0xCB, 0x02] (.zmmSae noPre 1 2 3 noMask 2) ∧
    reads [0x62, 0xD3, 0xC5, 0x18, 0x50, 0xF0, 0x01] (.zmmSae noPre 6 7 8 noMask 1) := by decide +kernel

/-- The `#UD` rows of T4. -/
theorem test_decode_invalid :
    decode [0x62, 0xF3, 0xED, 0x68, 0x50, 0xCB, 0x02] = .invalid .reservedLength 2 [] ∧
    decode [0x62, 0xF3, 0xED, 0x78, 0x50, 0x08, 0x02] = .invalid .reservedLength 2 [] ∧
    decode [0x62, 0xF3, 0xED, 0xC8, 0x50, 0xCB, 0x02] = .invalid .zeroingWithoutMask 2 [] ∧
    decode [0xF0, 0x62, 0xF3, 0xED, 0x48, 0x50, 0x08, 0x02] = .invalid .illegalPrefix 2 [] ∧
    decode [0x66, 0x62, 0xF3, 0xED, 0x48, 0x50, 0xCB, 0x02] = .invalid .illegalPrefix 2 [] ∧
    decode [0x48, 0x62, 0xF3, 0xED, 0x48, 0x50, 0xCB, 0x02] = .invalid .illegalPrefix 2 [] := by decide +kernel

/-- The refused rows of T4. -/
theorem test_decode_refused :
    decode [0x62, 0xF7, 0xED, 0x48, 0x50, 0xCB, 0x02] = .notVrangepd 2 ∧
    decode [0x62, 0xFB, 0xED, 0x48, 0x50, 0xCB, 0x02] = .notVrangepd 2 ∧
    decode [0x62, 0xF3, 0xE9, 0x48, 0x50, 0xCB, 0x02] = .notVrangepd 3 ∧
    decode [0x62, 0xF3, 0x6D, 0x48, 0x50, 0xCB, 0x02] = .notVrangepd 3 ∧
    decode [0x62, 0xF3, 0xED, 0x08, 0x51, 0xCB, 0x02] = .notVrangepd 5 ∧
    decode [0x62, 0xF3, 0xEC, 0x48, 0x50, 0xCB, 0x02] = .notVrangepd 3 ∧
    decode [0x64, 0x65, 0x62, 0xF3, 0xED, 0x48, 0x50, 0x08, 0x02] = .repeatedPrefix 2 := by decide +kernel

/-- log 15, log 19: repeated prefixes before bytes that are no candidate, and an illegal prefix before REX and `62h`. -/
theorem test_decode_repeated : decode [0x66, 0x66, 0x90] = .repeatedPrefix 2 ∧
    decode [0xF0, 0x48, 0x62] = .repeatedPrefix 3 := by decide +kernel

/-- R69: the length is known from ModRM on; with `mod = 00b` and `rm = 100b` from the SIB byte on. -/
theorem test_decode_needs : decode [0x62, 0xF3, 0xED, 0x48, 0x50, 0x88] = .truncated 11 ∧
    decode [0x62, 0xF3, 0xED, 0x48, 0x50, 0x88, 1, 2, 3, 4] = .truncated 11 ∧
    decode [0x62, 0xF3, 0xED, 0x48, 0x50, 0x8C] = .truncated 12 ∧
    decode [0x67, 0x62, 0xF3, 0xED, 0x48, 0x50, 0x4C] = .truncated 10 ∧
    decode [0x62, 0xF3, 0xED, 0x48, 0x50, 0x0C] = .truncated 7 ∧
    decode [0x62, 0xF3, 0xED, 0x48, 0x50, 0x0C, 0x98] = .truncated 8 ∧
    decode [0x62, 0xF3, 0xED, 0x48, 0x50, 0x0C, 0x9D] = .truncated 12 := by decide +kernel

/-- R73: the table's own numbering of a word, first byte most significant. -/
theorem test_table_word : decodeTableWord 48 0x6203850050C0 = some (.xmmReg noPre 24 31 24 noMask 0) := by decide +kernel

/-! ## RangeDP: rows of T2 -/

/-- T2.1.4, T2.1.8, T2.2.9, T2.2.10, T2.3.11, T2.3.13. -/
theorem test_rangeDP_numbers :
    rangeDP 0x3FF8000000000000 0xC000000000000000 3 0 false = ⟨0x4000000000000000, false, false⟩ ∧
    rangeDP 0x3FF8000000000000 0xC000000000000000 3 1 false = ⟨0xC000000000000000, false, false⟩ ∧
    rangeDP 0 0x8000000000000000 0 0 false = ⟨0, false, false⟩ ∧
    rangeDP 0x8000000000000000 0 1 0 false = ⟨0x8000000000000000, false, false⟩ ∧
    rangeDP 0xFFF0000000000000 0x7FF0000000000000 2 1 false = ⟨0xFFF0000000000000, false, false⟩ ∧
    rangeDP 0xC000000000000000 0x4000000000000000 3 0 false = ⟨0xC000000000000000, false, false⟩ := by decide +kernel

/-- T2.4.2, T2.4.9, T2.4.12, T2.4.13, T2.4.18, T2.5.4, T2.5.9, T2.5.14, T2.5.18, T2.3.17. -/
theorem test_rangeDP_nan_denormal :
    rangeDP 0x7FF0000000000001 0x7FF8000000000002 0 1 false = ⟨0x7FF8000000000001, true, false⟩ ∧
    rangeDP 0xFFF4000000000000 0x3FF8000000000000 3 2 false = ⟨0xFFFC000000000000, true, false⟩ ∧
    rangeDP 1 0x7FF0000000000001 0 1 false = ⟨0x7FF8000000000001, true, false⟩ ∧
    rangeDP 0xFFF8000000000002 0x3FF8000000000000 0 0 false = ⟨0xBFF8000000000000, false, false⟩ ∧
    rangeDP 0x7FF8000000000001 0xFFF8000000000002 0 3 false = ⟨0xFFF8000000000001, false, false⟩ ∧
    rangeDP 1 0x7FF8000000000001 0 1 false = ⟨1, false, false⟩ ∧
    rangeDP 0x800FFFFFFFFFFFFF 1 0 0 false = ⟨0x800FFFFFFFFFFFFF, false, true⟩ ∧
    rangeDP 0x7FF8000000000001 0x800FFFFFFFFFFFFF 0 1 true = ⟨0x8000000000000000, false, false⟩ ∧
    rangeDP 0x800FFFFFFFFFFFFF 1 0 0 true = ⟨0x8000000000000000, false, false⟩ ∧
    rangeDP 1 0x8000000000000001 2 1 true = ⟨0x8000000000000000, false, false⟩ := by decide +kernel

/-! ## One execution: the data of T3 -/

/-- A vector from its elements, lowest first. -/
def vec (l : List Word) : ZWord := ofElems fun j => l.getD j 0

/-- `SRC1` of T3. -/
def src1 : ZWord := vec [0x3FF8000000000000, 0xC0B3880000000000, 0x40B3880000000000, 0x7FF0000000000001, 1,
  0x8000000000000000, 0x7FF8000000000001, 0xBFF0000000000000]
/-- `OLD` of T3. -/
def old : ZWord := vec [0x1111111111111111, 0x2222222222222222, 0x3333333333333333, 0x4444444444444444,
  0x5555555555555555, 0x6666666666666666, 0x7777777777777777, 0x8888888888888888]
/-- 1023.0, every element of `SRC2` of T3. -/
def bound : Word := 0x408FF80000000000
/-- The bytes of 1023.0, lowest address first. -/
def boundBytes : List Byte := [0x00, 0x00, 0x00, 0x00, 0x00, 0xF8, 0x8F, 0x40]

/-- A launched machine with the registers of T3 in `zmm1`, `zmm2`, `zmm3`, K1 = A5h, K2 = 0, K3 = E7h, and eight times
1023.0 at 2000h; `SRC1` again, in memory order, is not needed. -/
def st : State := { State.reset with
  mode := .bits64
  cpl := 3
  pc := 0x1000
  zmm := ((State.reset.zmm.set 1 old).set 2 src1).set 3 (ofElems fun _ => bound)
  k := ((State.reset.k.set 1 0xA5).set 3 0xE7)
  x := (((((State.reset.x.set 0 0x2000).set 1 0x2008).set 3 0x2010).set 6 0x2020).set 7 0x2040).set 8 0x1000
  mem := Memory.writeBytes [] 0x2000 (List.replicate 8 boundBytes).flatten
  env := { State.reset.env with cr4Osxsave := true, xcr0 := 0xE7, cr4Osxmmexcpt := true } }

/-- The outcome is a next state with this value in `zmm1`, this MXCSR and this pc. -/
def leaves (o : Host.Outcome State Fault Refusal) (v : ZWord) (mx : BitVec 32) (pc : Word) : Bool :=
  match nextOf o with
  | some t => readZmm t 1 == v && t.mxcsr == mx && t.pc == pc
  | none => false

/-- The results of T3.4, T3.5 and T3.1. -/
def r128 : ZWord := vec [0x3FF8000000000000, 0xC08FF80000000000]
/-- T3.5. -/
def r256 : ZWord := vec [0x3FF8000000000000, 0xC08FF80000000000, 0x408FF80000000000, 0x7FF8000000000001]
/-- T3.1. -/
def r512 : ZWord := vec [0x3FF8000000000000, 0xC08FF80000000000, 0x408FF80000000000, 0x7FF8000000000001, 1,
  0x8000000000000000, 0x408FF80000000000, 0xBFF0000000000000]

theorem test_exec_xmmReg : leaves (exec (.xmmReg noPre 1 2 3 noMask 2) st) r128 0x1F80 0x1007 := by decide +kernel
theorem test_exec_xmmMem00 : leaves (exec (.xmmMem00 noPre 1 2 (.base 0) noMask 2) st) r128 0x1F80 0x1007 := by
  decide +kernel
/-- `N = 16`: 2010h - 16. -/
theorem test_exec_xmmMem01 : leaves (exec (.xmmMem01 noPre 1 2 (.base 3 0xFF) noMask 2) st) r128 0x1F80 0x1008 := by
  decide +kernel
theorem test_exec_xmmMem10 : leaves (exec (.xmmMem10 noPre 1 2 (.base 8 0x1000) noMask 2) st) r128 0x1F80 0x100B := by
  decide +kernel
theorem test_exec_xmmBcst00 : leaves (exec (.xmmBcst00 noPre 1 2 (.base 0) noMask 2) st) r128 0x1F80 0x1007 := by
  decide +kernel
/-- `N = 8`: 2008h - 8. -/
theorem test_exec_xmmBcst01 : leaves (exec (.xmmBcst01 noPre 1 2 (.base 1 0xFF) noMask 2) st) r128 0x1F80 0x1008 := by
  decide +kernel
theorem test_exec_xmmBcst10 : leaves (exec (.xmmBcst10 noPre 1 2 (.base 8 0x1000) noMask 2) st) r128 0x1F80 0x100B := by
  decide +kernel
theorem test_exec_ymmReg : leaves (exec (.ymmReg noPre 1 2 3 noMask 2) st) r256 0x1F81 0x1007 := by decide +kernel
/-- RIP-relative: 1000h + 11 + 0FF5h = 2000h. -/
theorem test_exec_ymmMem00 : leaves (exec (.ymmMem00 noPre 1 2 (.rip 0xFF5) noMask 2) st) r256 0x1F81 0x100B := by
  decide +kernel
/-- `N = 32`: 2020h - 32. -/
theorem test_exec_ymmMem01 : leaves (exec (.ymmMem01 noPre 1 2 (.base 6 0xFF) noMask 2) st) r256 0x1F81 0x1008 := by
  decide +kernel
/-- With an index: 1000h + 1000h*1 + 0. -/
theorem test_exec_ymmMem10 : leaves (exec (.ymmMem10 noPre 1 2 (.sib 8 (some ⟨8, 0⟩) 0) noMask 2) st) r256 0x1F81 0x100C := by
  decide +kernel
theorem test_exec_ymmBcst00 : leaves (exec (.ymmBcst00 noPre 1 2 (.base 0) noMask 2) st) r256 0x1F81 0x1007 := by
  decide +kernel
theorem test_exec_ymmBcst01 : leaves (exec (.ymmBcst01 noPre 1 2 (.base 1 0xFF) noMask 2) st) r256 0x1F81 0x1008 := by
  decide +kernel
theorem test_exec_ymmBcst10 : leaves (exec (.ymmBcst10 noPre 1 2 (.base 8 0x1000) noMask 2) st) r256 0x1F81 0x100B := by
  decide +kernel
theorem test_exec_zmmReg : leaves (exec (.zmmReg noPre 1 2 3 noMask 2) st) r512 0x1F83 0x1007 := by decide +kernel
/-- T3.2 and T3.3: merging and zeroing under K1 = A5h. -/
theorem test_exec_zmmReg_masked :
    leaves (exec (.zmmReg noPre 1 2 3 ⟨1, false⟩ 2) st) (vec [0x3FF8000000000000, 0x2222222222222222,
      0x408FF80000000000, 0x4444444444444444, 0x5555555555555555, 0x8000000000000000, 0x7777777777777777,
      0xBFF0000000000000]) 0x1F80 0x1007 ∧
    leaves (exec (.zmmReg noPre 1 2 3 ⟨1, true⟩ 2) st) (vec [0x3FF8000000000000, 0, 0x408FF80000000000, 0, 0,
      0x8000000000000000, 0, 0xBFF0000000000000]) 0x1F80 0x1007 := by decide +kernel
/-- With an index: 0 + 1000h*2, and a 67h prefix. -/
theorem test_exec_zmmMem00 :
    leaves (exec (.zmmMem00 ⟨none, true⟩ 1 2 (.sibNoBase (some ⟨8, 1⟩) 0) noMask 2) st) r512 0x1F83 0x100D := by
  decide +kernel
/-- `N = 64`: 2040h - 64. -/
theorem test_exec_zmmMem01 : leaves (exec (.zmmMem01 noPre 1 2 (.base 7 0xFF) noMask 2) st) r512 0x1F83 0x1008 := by
  decide +kernel
/-- GSBASE is added with a 65h prefix. -/
theorem test_exec_zmmMem10 : leaves (exec (.zmmMem10 ⟨some .gs, false⟩ 1 2 (.base 8 0) noMask 2) { st with gsbase := 0x1000 })
    r512 0x1F83 0x100C := by decide +kernel
theorem test_exec_zmmBcst00 : leaves (exec (.zmmBcst00 noPre 1 2 (.base 0) noMask 2) st) r512 0x1F83 0x1007 := by
  decide +kernel
theorem test_exec_zmmBcst01 : leaves (exec (.zmmBcst01 noPre 1 2 (.base 1 0xFF) noMask 2) st) r512 0x1F83 0x1008 := by
  decide +kernel
theorem test_exec_zmmBcst10 : leaves (exec (.zmmBcst10 noPre 1 2 (.base 8 0x1000) noMask 2) st) r512 0x1F83 0x100B := by
  decide +kernel
/-- T3.9 and T3.17: `{sae}` changes no flag and raises nothing. -/
theorem test_exec_zmmSae : leaves (exec (.zmmSae noPre 1 2 3 noMask 2) st) r512 0x1F80 0x1007 ∧
    leaves (exec (.zmmSae noPre 1 2 3 noMask 2) { st with mxcsr := 0x1F00 }) r512 0x1F00 0x1007 := by decide +kernel

/-! ## Faults and refusals: rows of T3 and T5 -/

/-- The vector, the MXCSR of the fault state, and whether `zmm1` and `pc` were left alone. -/
def faultIs (o : Host.Outcome State Fault Refusal) (vector : Nat) (mx : BitVec 32) : Bool :=
  match faultOf o with
  | some f => f.vector == vector && f.after.mxcsr == mx && readZmm f.after 1 == old && f.after.pc == 0x1000
  | none => false

/-- T3.14, T3.16: an unmasked condition, with CR4.OSXMMEXCPT 1 and 0. -/
theorem test_unmasked_faults :
    faultIs (exec (.zmmReg noPre 1 2 3 noMask 2) { st with mxcsr := 0x1F00 }) 19 0x1F03 ∧
    faultIs (exec (.zmmReg noPre 1 2 3 noMask 2)
      { st with mxcsr := 0x1F00, env := { st.env with cr4Osxmmexcpt := false } }) 6 0x1F03 ∧
    faultIs (exec (.zmmReg noPre 1 2 3 noMask 2) { st with mxcsr := 0x1E80 }) 19 0x1E83 := by decide +kernel

/-- T5.5, T5.6: without AVX512VL the 128-bit form raises `#UD` and the `{sae}` form executes. -/
theorem test_no_avx512vl :
    faultIs (exec (.xmmReg noPre 1 2 3 noMask 2) { st with env := { st.env with cpuidAvx512vl := false } }) 6 0x1F80 ∧
    leaves (exec (.zmmSae noPre 1 2 3 noMask 2) { st with env := { st.env with cpuidAvx512vl := false } })
      r512 0x1F80 0x1007 := by decide +kernel

/-- T5.7, T5.8: `#NM`, and `#UD` before it. -/
theorem test_task_switched :
    faultIs (exec (.zmmMem00 noPre 1 2 (.base 0) noMask 2) { st with env := { st.env with cr0Ts := true } }) 7 0x1F80 ∧
    faultIs (exec (.zmmMem00 noPre 1 2 (.base 0) noMask 2)
      { st with env := { st.env with cr0Ts := true, cr4Osxsave := false } }) 6 0x1F80 := by decide +kernel

/-- Every non-canonical address of a 48-bit machine. -/
def nonCanonicalRule : AccessRule :=
  ⟨.touches 0x0000800000000000 0xFFFF7FFFFFFFFFFF, none, none, none, .nonCanonical⟩

/-- `st` with RAX and RBP non-canonical and an Access that says so. -/
def stNonCanonical : State := { st with
  x := (st.x.set 0 0x0000800000000000).set 5 0x0000800000000000
  params := { st.params with access := [nonCanonicalRule] } }

/-- T5.9 to T5.11: `#PF` with its address, `#GP(0)`, and `#SS(0)` for a base RBP. -/
theorem test_memory_faults :
    (faultOf (exec (.zmmMem00 noPre 1 2 (.base 1) noMask 2) st)).bind Fault.cr2 = some 0x2040 ∧
    faultIs (exec (.zmmMem00 noPre 1 2 (.base 1) noMask 2) st) 14 0x1F80 ∧
    faultIs (exec (.zmmMem00 noPre 1 2 (.base 0) noMask 2) stNonCanonical) 13 0x1F80 ∧
    faultIs (exec (.zmmMem01 noPre 1 2 (.base 5 0) noMask 2) stNonCanonical) 12 0x1F80 := by decide +kernel

/-- `st` with alignment checking on and RAX = 2004h. -/
def stAlign : State := { st with
  x := st.x.set 0 0x2004, rflagsAC := true, env := { st.env with cr0Am := true } }

/-- T5.12, T5.13: `#AC(0)` only with checking on; a full-width operand never raises it. -/
theorem test_alignment :
    faultIs (exec (.zmmBcst00 noPre 1 2 (.base 0) noMask 2) stAlign) 17 0x1F80 ∧
    (nextOf (exec (.zmmBcst00 noPre 1 2 (.base 0) noMask 2) { stAlign with rflagsAC := false })).isSome ∧
    (nextOf (exec (.xmmMem00 noPre 1 2 (.base 0) noMask 2) stAlign)).isSome := by decide +kernel

/-- T5.14, T5.15: the policy for imm8[7:4]. -/
theorem test_imm8_policy :
    refusalOf (exec (.zmmMem00 noPre 1 2 (.base 0) noMask 0xF2) st) = some .imm8HighNonzero ∧
    leaves (exec (.zmmMem00 noPre 1 2 (.base 0) noMask 0xF2) { st with params := { st.params with imm8Hi := .ignore } })
      r512 0x1F83 0x1007 := by decide +kernel

/-- `st` with only element 0 of the operand mapped, K3 = 01h and FAULT_SUPPRESSION on. -/
def stSuppress : State := { st with
  k := st.k.set 3 0x01
  mem := Memory.writeBytes [] 0x2000 boundBytes
  params := { st.params with faultSuppression := true } }

/-- T5.16, T5.17: masked-off elements fault or not. -/
theorem test_fault_suppression :
    faultIs (exec (.zmmMem00 noPre 1 2 (.base 0) ⟨3, false⟩ 2)
      { stSuppress with params := { st.params with faultSuppression := false } }) 14 0x1F80 ∧
    leaves (exec (.zmmMem00 noPre 1 2 (.base 0) ⟨3, false⟩ 2) stSuppress) (vec [0x3FF8000000000000, 0x2222222222222222,
      0x3333333333333333, 0x4444444444444444, 0x5555555555555555, 0x6666666666666666, 0x7777777777777777,
      0x8888888888888888]) 0x1F80 0x1007 := by decide +kernel

/-- R118: without a mask, element 0 at the last canonical address is not mapped and element 1 is not canonical: `#GP(0)`
comes before `#PF`. -/
theorem test_suppressed_order : faultIs (exec (.zmmMem00 noPre 1 2 (.base 0) noMask 2)
    { stNonCanonical with
      x := stNonCanonical.x.set 0 0x00007FFFFFFFFFF8
      params := { stNonCanonical.params with faultSuppression := true } }) 13 0x1F80 := by decide +kernel

/-! ## One step -/

/-- `st` with bytes placed at its program counter. -/
def running (bs : List Byte) : State := placeAtPc st bs

/-- P1: the source's clamp, fetched, decoded and executed. -/
theorem test_step_p1 : leaves (step (running [0x62, 0xF3, 0xED, 0x48, 0x50, 0xCB, 0x02])) r512 0x1F83 0x1007 := by
  decide +kernel

/-- Rejected bytes: an invalid candidate, no candidate, two overrides, a fetch outside memory, and outside 64-bit mode. -/
theorem test_step_rejected :
    faultIs (step (running [0x62, 0xF3, 0xED, 0x68, 0x50, 0xCB, 0x02])) 6 0x1F80 ∧
    refusalOf (step (running [0x62, 0xF3, 0x6D, 0x48, 0x50, 0xCB, 0x02])) = some .notVrangepd ∧
    refusalOf (step (running [0x64, 0x65, 0x62])) = some .repeatedPrefix ∧
    (faultOf (step (running [0x62, 0xF3, 0xED, 0x48]))).bind Fault.cr2 = some 0x1004 ∧
    refusalOf (step { running [0x62, 0xF3, 0xED, 0x48, 0x50, 0xCB, 0x02] with mode := .compatibility }) =
      some .notIn64BitMode := by decide +kernel

/-- R40: memory ends after ModRM of an 11-byte instruction and of a 12-byte one (with its SIB byte missing), and a rule calls
its last byte not canonical: `Access(pc, len)` answers `#GP(0)`. -/
theorem test_fetch_length : faultIs (step { running [0x62, 0xF3, 0xED, 0x48, 0x50, 0x88] with
      params := { st.params with access := [⟨.touches 0x100A 0x100A, none, none, none, .nonCanonical⟩] } }) 13 0x1F80 ∧
    faultIs (step { running [0x62, 0xF3, 0xED, 0x48, 0x50, 0x8C] with
      params := { st.params with access := [⟨.touches 0x100B 0x100B, none, none, none, .nonCanonical⟩] } }) 13 0x1F80 := by
  decide +kernel

/-- `END` reached: the run is done (D22). -/
theorem test_step_done : (nextOf (step { st with params := { st.params with endAt := some 0x1000 } })).isSome := by
  decide +kernel

/-- From reset with a table word placed, a register row completes; a memory row reads at the operand address 0, where
memory holds nothing, and raises `#PF`. -/
theorem test_first_instruction :
    (nextOf (step (State.reset.withFetchWord 48 0x6203850050C0))).map (fun t => t.pc) = some 0xFFF7 ∧
    (faultOf (step (State.reset.withFetchWord 48 0x620385005000))).bind Fault.cr2 = some 0 := by decide +kernel

/-! ## Witnesses: for every statement with hypotheses, values that meet them together, clause by clause -/

/-- A form with every operand at the end of its range. -/
def farInstr : Instr := .zmmMem01 ⟨some .gs, true⟩ 31 31 (.sib 15 (some ⟨15, 3⟩) 0x80) ⟨7, true⟩ 0xFF

theorem witness_DecodeInvertsEncode : farInstr.wellFormed = true := by decide +kernel

/-- The longest instruction, 14 bytes, with bytes after it. -/
theorem witness_DecodedInstruction :
    decode [0x65, 0x67, 0x62, 0xF3, 0xED, 0x48, 0x50, 0x8C, 0x58, 0x01, 0x02, 0x03, 0x84, 0x02, 0xAA] =
      .ok (.zmmMem10 ⟨some .gs, true⟩ 1 2 (.sib 0 (some ⟨3, 1⟩) 0x84030201) noMask 2) [0xAA] ∧
    [(0x65 : Byte), 0x67, 0x62, 0xF3, 0xED, 0x48, 0x50, 0x8C, 0x58].length = 2 + 7 ∧
    [(0x65 : Byte), 0x67, 0x62, 0xF3, 0xED, 0x48, 0x50, 0x8C][2 + 5]? = some 0x8C ∧ (0x8C : Byte) &&& 0xC7 ≠ 0x04 := by
  decide +kernel

theorem witness_NoWordBelongsToTwoRows :
    0x6203857050C0 &&& (Instr.zmmSae noPre 1 2 3 noMask 2).row.1 = (Instr.zmmSae noPre 1 2 3 noMask 2).row.2 := by
  decide +kernel

/-- A candidate and, with `W = 0`, none. -/
theorem witness_CandidateTest : prefixClass 0x62 = .other ∧
    bigEndian [0x62, 0xF3, 0xED, 0x48, 0x50] &&& 0xFF0F8700FF = 0x6203850050 ∧
    bigEndian [0x62, 0xF3, 0x6D, 0x48, 0x50] &&& 0xFF0F8700FF ≠ 0x6203850050 := by decide +kernel

/-- `b = 1`, each `L'L`, and zeroing with a mask. -/
theorem witness_RegisterFormFieldsDecode : p0Ok 0xF3 = true ∧ p0Ok 0x03 = true ∧ p1Ok 0xED = true ∧
    ∀ p2 : Byte, p2 ∈ [0x78, 0x08, 0x28, 0x48, 0x68, 0x89] → ¬ (p2.getLsbD 7 = true ∧ p2.extractLsb' 0 3 = 0#3) := by
  decide +kernel

/-- `L'L = 11b` with a register and `b = 0`, with memory and `b = 1`, and zeroing without a mask. -/
theorem witness_ReservedSettingsAreInvalid :
    ((0x68#8).extractLsb' 5 2 = 0b11#2 ∧ ¬ ((0xCB#8).extractLsb' 6 2 = 0b11#2 ∧ (0x68#8).getLsbD 4 = true)) ∧
    ((0x78#8).extractLsb' 5 2 = 0b11#2 ∧ ¬ ((0x08#8).extractLsb' 6 2 = 0b11#2 ∧ (0x78#8).getLsbD 4 = true)) ∧
    ((0xC8#8).getLsbD 7 = true ∧ (0xC8#8).extractLsb' 0 3 = 0#3) ∧
    p0Ok 0xF3 = true ∧ p1Ok 0xED = true ∧
    decodeRM true true ((0xCB#8).extractLsb' 6 2) ((0xCB#8).extractLsb' 0 3) [2] = some (.reg 27, [2]) ∧
    6 ≤ [(0x98 : Byte), 1, 2, 3, 4, 5].length := by decide +kernel

theorem witness_IllegalPrefixMakesInvalid : farInstr.wellFormed = true ∧ (0xF3#8 = 0xF3#8) ∧
    (Instr.xmmReg noPre 1 2 3 noMask 2).wellFormed = true ∧ (0x4F#8).extractLsb' 4 4 = 0x4#4 ∧
    (formOf (.xmmReg noPre 1 2 3 noMask 2)).pre = ⟨none, false⟩ := by decide +kernel

theorem witness_RepeatedPrefixesAreRefused : (Instr.xmmReg noPre 1 2 3 ⟨7, true⟩ 0xFF).wellFormed = true ∧
    (formOf (.xmmReg noPre 1 2 3 ⟨7, true⟩ 0xFF)).pre = ⟨none, false⟩ := by decide +kernel

/-- The smallest and largest signaling NaN. -/
theorem witness_SignalingNaNIsQuieted : isSNaN 0x7FF0000000000001 = true ∧ isSNaN 0x7FF8000000000000 = false ∧
    isSNaN 0xFFF7FFFFFFFFFFFF = true := by decide +kernel

/-- The smallest and largest denormal. -/
theorem witness_DazReplacesDenormalsFirst :
    (0x0#64) = (if isDenormal 0x1 then BitVec.ofBool ((0x1#64).getLsbD 63) ++ 0#63 else 0x1#64) ∧
    (0x8000000000000000#64) = (if isDenormal 0x800FFFFFFFFFFFFF then BitVec.ofBool ((0x800FFFFFFFFFFFFF#64).getLsbD 63) ++ 0#63
      else 0x800FFFFFFFFFFFFF#64) ∧ isSNaN 0x1 = false ∧ isSNaN 0x800FFFFFFFFFFFFF = false := by decide +kernel

/-- Two quiet NaNs (the smallest and the largest), and one beside an infinity. -/
theorem witness_QuietNaN : isSNaN 0x7FF8000000000000 = false ∧ isSNaN 0xFFFFFFFFFFFFFFFF = false ∧
    isQNaN 0xFFFFFFFFFFFFFFFF = true ∧ isQNaN 0x7FF8000000000000 = true ∧
    isSNaN 0x7FF0000000000000 = false ∧ isQNaN 0x7FF0000000000000 = false ∧
    dazOperand true 0x7FF8000000000000 = 0x7FF8000000000000 ∧ dazOperand true 0x7FF0000000000000 = 0x7FF0000000000000 := by
  decide +kernel

/-- Zeros, and under DAZ denormals that count as zeros. -/
theorem witness_OppositeZeros :
    (isNaN 0 = false ∧ isNaN 0x8000000000000000 = false ∧ fmag (dazOperand false 0) = 0#63 ∧
      fmag (dazOperand false 0x8000000000000000) = 0#63 ∧ (0#64).getLsbD 63 ≠ (0x8000000000000000#64).getLsbD 63) ∧
    (isNaN 1 = false ∧ isNaN 0x800FFFFFFFFFFFFF = false ∧ fmag (dazOperand true 1) = 0#63 ∧
      fmag (dazOperand true 0x800FFFFFFFFFFFFF) = 0#63 ∧
      (1#64).getLsbD 63 ≠ (0x800FFFFFFFFFFFFF#64).getLsbD 63) := by decide +kernel

/-- Infinities, and the smallest denormal without DAZ. -/
theorem witness_OppositeEquals : ∀ v : Word, v = 0x7FF0000000000000 ∨ v = 1 →
    isNaN v = false ∧ isNaN (v ||| 0x8000000000000000) = false ∧
    fmag (dazOperand false v) = fmag (dazOperand false (v ||| 0x8000000000000000)) ∧
    fmag (dazOperand false v) ≠ 0#63 ∧ (dazOperand false v).getLsbD 63 = false ∧
    (dazOperand false (v ||| 0x8000000000000000)).getLsbD 63 = true := by
  rintro v (rfl | rfl) <;> decide +kernel

/-- CompareResultIsMinOrMax, CompareResultIsSymmetric, SignSelectionReplacesOnlyTheSign: the largest non-NaN of each sign;
NoNewMagnitudeIsProduced: a quiet NaN raises no Invalid. -/
theorem witness_numbers : isNaN 0x7FF0000000000000 = false ∧ isNaN 0xFFF0000000000000 = false ∧
    isSNaN 0x7FF0000000000000 = false ∧ isSNaN 0xFFFFFFFFFFFFFFFF = false ∧ isSNaN 0x7FF0000000000001 = true ∧
    (rangeDP 0x7FF0000000000000 0xFFFFFFFFFFFFFFFF 0 0 false).ie = false := by decide +kernel

/-- Each clause of the clamp with the bound 1023.0: below it, at it, a quiet and a signaling NaN. -/
theorem witness_ClampExample : isNormal bound = true ∧ bound.getLsbD 63 = false ∧
    (isNaN 0xC08FF7FFFFFFFFFF = false ∧ (fmag 0xC08FF7FFFFFFFFFF).toNat < (fmag bound).toNat) ∧
    (isNaN 0xC08FF80000000000 = false ∧ (fmag bound).toNat ≤ (fmag 0xC08FF80000000000).toNat) ∧
    isQNaN 0x7FF8000000000000 = true ∧ isSNaN 0x7FF7FFFFFFFFFFFF = true := by decide +kernel

theorem witness_SelfComparison : isSNaN 0x7FF8000000000000 = false ∧ isSNaN 0x7FF0000000000001 = true := by decide +kernel

theorem witness_SegmentOverrides : (MemRef.mk (.reg 4) none 0).base = .reg 4 ∧ (MemRef.mk (.reg 5) none 0).base = .reg 5 ∧
    (MemRef.mk (.reg 13) none 0).base ≠ .reg 4 ∧ (MemRef.mk (.reg 13) none 0).base ≠ .reg 5 := by decide +kernel

/-- A read of `st`'s 64 bytes, and one that runs one byte past them. -/
def qIn : AccessQuery := ⟨0x2000, 64, 3, .data, .ds⟩
/-- The 64 bytes from 2001h on: the last is missing. -/
def qOut : AccessQuery := ⟨0x2001, 64, 3, .data, .ds⟩

theorem witness_MemReadAsksAccess : accessAnswer st qIn = none ∧ 63 < qIn.n ∧
    accessAnswer st qOut = some (.pf 0b000100#6 0x2040) := by decide +kernel

theorem witness_SimplestAccess : st.params.access = [] ∧ 63 < qOut.n ∧
    Memory.read st.mem (qOut.a + BitVec.ofNat 64 63).toNat = none ∧
    ∀ l, l < 63 → (Memory.read st.mem (qOut.a + BitVec.ofNat 64 l).toNat).isSome = true := by decide +kernel

/-- The first non-canonical byte of an operand, in SS and in DS. -/
theorem witness_NonCanonical : nonCanonicalRule ∈ stNonCanonical.params.access ∧ nonCanonicalRule.denial = .nonCanonical ∧
    nonCanonicalRule.hit ⟨0x00007FFFFFFFFFF8, 64, 3, .data, .ss⟩ = some 0x0000800000000000 ∧
    nonCanonicalRule.hit ⟨0xFFFF7FFFFFFFFFFF, 64, 3, .data, .ds⟩ = some 0xFFFF7FFFFFFFFFFF := by decide +kernel

/-- A page rule that reports every bit, on a fetch. -/
theorem witness_PageFaultErrorCode : accessAnswer
    { st with params := { st.params with access := [⟨.exactly 0x1000 7, none, none, none, .page true true true true none⟩] } }
    ⟨0x1000, 7, 3, .fetch, .cs⟩ = some (.pf 0b111101#6 0x1000) := by decide +kernel

/-- The address of operand 3 in a form. -/
def memRefOf (f : Form) : MemRef :=
  match f.op3 with
  | .reg _ => ⟨.none, none, 0⟩
  | .full r => r
  | .bcst r => r

/-- The linear address of operand 3 of an instruction. -/
def operandAddress (i : Instr) (s : State) : Word := linearAddress s (formOf i).pre i.length (memRefOf (formOf i))

/-- `Access` lets the instruction's operand be read. -/
def operandOk (i : Instr) (s : State) (off n : Nat) : Bool :=
  (accessAnswer s (dataQuery s (formOf i).pre (memRefOf (formOf i)) (operandAddress i s + BitVec.ofNat 64 off) n)).isNone

/-- `mayExecute` as a Bool. -/
def ready (i : Instr) (s : State) : Bool :=
  (formOf i).wm.wellFormed && !imm8Refused s (formOf i).imm && launchReady s (formOf i).vl

/-- No condition is unmasked: with IM and DM set (as in `st`), no unmasked condition can be detected. -/
theorem not_unmasked (s : State) (vl : VLen) (m : Writemask) (out : Nat → RangeOut) (h1 : mxIM s.mxcsr = true)
    (h2 : mxDM s.mxcsr = true) : ¬ unmaskedDetected s vl m out := by
  simp [unmaskedDetected, h1, h2]

theorem st_masks : mxIM st.mxcsr = true ∧ mxDM st.mxcsr = true ∧ mxIM stSuppress.mxcsr = true ∧
    mxDM stSuppress.mxcsr = true := by decide +kernel

/-- What `ready` means. -/
theorem mayExecute_of_ready {i : Instr} {s : State} (h : ready i s = true) :
    mayExecute s (formOf i).vl (formOf i).wm (formOf i).imm := by
  simpa [ready, mayExecute, and_assoc] using h

/-- The register forms, merged and zeroed by the highest mask register, with the last imm8 the policy accepts. -/
theorem witness_RegisterForms : ∀ i ∈ [Instr.xmmReg noPre 31 0 31 ⟨7, true⟩ 0x0F, .ymmReg noPre 1 2 3 ⟨1, false⟩ 0,
    .zmmReg noPre 1 2 3 noMask 2],
    mayExecute st (formOf i).vl (formOf i).wm (formOf i).imm ∧
      ∀ out, ¬ unmaskedDetected st (formOf i).vl (formOf i).wm out := by
  intro i hi
  refine ⟨mayExecute_of_ready ?_, fun out => not_unmasked _ _ _ _ st_masks.1 st_masks.2.1⟩
  revert i
  decide +kernel

/-- With IM and DM clear, and by the data of T3 an Invalid and a Denormal condition. -/
theorem witness_SaeForm : mayExecute { st with mxcsr := 0 } .v512 noMask 2 ∧
    unmaskedDetected { st with mxcsr := 0 } .v512 noMask (rangeOf { st with mxcsr := 0 } 2 2 (elem (readZmm st 3))) := by
  refine ⟨mayExecute_of_ready (i := .zmmSae noPre 1 2 3 noMask 2) (by decide +kernel), .inl ⟨⟨3, ?_, ?_, ?_⟩, ?_⟩⟩ <;>
    decide +kernel

/-- The full-width memory forms of the tests above. -/
def fullForms : List Instr := [.xmmMem00 noPre 1 2 (.base 0) noMask 2, .ymmMem00 noPre 1 2 (.rip 0xFF5) noMask 2,
  .zmmMem00 noPre 1 2 (.base 0) noMask 2, .xmmMem01 noPre 1 2 (.base 3 0xFF) noMask 2,
  .ymmMem01 noPre 1 2 (.base 6 0xFF) noMask 2, .zmmMem01 noPre 1 2 (.base 7 0xFF) noMask 2,
  .xmmMem10 noPre 1 2 (.base 8 0x1000) noMask 2, .ymmMem10 noPre 1 2 (.sib 8 (some ⟨8, 0⟩) 0) noMask 2,
  .zmmMem10 noPre 1 2 (.base 8 0x1000) noMask 2]

/-- All bytes of the operand readable up to the last mapped one; by `not_unmasked` no unmasked condition. -/
theorem witness_FullMemoryForms : st.params.faultSuppression = false ∧
    ∀ i ∈ fullForms, ready i st = true ∧ operandOk i st 0 (vlBytes (formOf i).vl) = true := by decide +kernel

/-- The same forms under K3 = 01h with only element 0 readable, and under K2 = 0 with nothing of the operand readable. -/
theorem witness_SuppressedFullMemoryForms : stSuppress.params.faultSuppression = true ∧
    ∀ i ∈ [Instr.xmmMem00 noPre 1 2 (.base 0) ⟨3, false⟩ 2, .ymmMem00 noPre 1 2 (.rip 0xFF5) ⟨3, false⟩ 2,
      .zmmMem00 noPre 1 2 (.base 0) ⟨3, true⟩ 2, .xmmMem01 noPre 1 2 (.base 3 0xFF) ⟨3, false⟩ 2,
      .ymmMem01 noPre 1 2 (.base 6 0xFF) ⟨3, false⟩ 2, .zmmMem01 noPre 1 2 (.base 7 0xFF) ⟨3, false⟩ 2,
      .xmmMem10 noPre 1 2 (.base 8 0x1000) ⟨3, false⟩ 2, .ymmMem10 noPre 1 2 (.base 8 0x1000) ⟨3, false⟩ 2,
      .zmmMem10 noPre 1 2 (.base 8 0x1000) ⟨3, false⟩ 2, .zmmMem00 noPre 1 2 (.base 2) ⟨2, false⟩ 2],
      ready i stSuppress = true ∧ ∀ j, j < elems (formOf i).vl → maskBit stSuppress (formOf i).wm j = true →
        operandOk i stSuppress (8 * j) 8 = true := by decide +kernel

/-- The broadcast forms, at the last mapped element and with alignment checking on at an aligned address; and with nothing
readable under suppression and no active element. -/
theorem witness_BroadcastForms :
    (∀ i ∈ [Instr.xmmBcst00 noPre 1 2 (.base 0) noMask 2, .ymmBcst00 noPre 1 2 (.base 0) noMask 2,
      .zmmBcst00 noPre 1 2 (.base 0) noMask 2, .xmmBcst01 noPre 1 2 (.base 7 0xFF) noMask 2,
      .ymmBcst01 noPre 1 2 (.base 7 0xFF) noMask 2, .zmmBcst01 noPre 1 2 (.base 7 0xFF) noMask 2,
      .xmmBcst10 noPre 1 2 (.base 8 0x1000) noMask 2, .ymmBcst10 noPre 1 2 (.base 8 0x1000) noMask 2,
      .zmmBcst10 noPre 1 2 (.base 8 0x1000) noMask 2],
      ready i st = true ∧ operandOk i st 0 8 = true ∧ alignmentCheckingOn { stAlign with x := st.x } = true ∧
        (operandAddress i st).toNat % 8 = 0) ∧
    (ready (.zmmBcst00 noPre 1 2 (.base 2) ⟨2, false⟩ 2) stSuppress = true ∧
      ∀ j, j < 8 → maskBit stSuppress ⟨2, false⟩ j = false) := by decide +kernel

theorem witness_SaeWritesThePlainResult : (nextOf (exec (.zmmReg noPre 1 2 3 noMask 2) st)).isSome = true ∧
    (nextOf (exec (.zmmSae noPre 1 2 3 noMask 2) st)).isSome = true := by decide +kernel

/-- Both policies, at the first and the last value of imm8[7:4] that is not zero. -/
theorem witness_HighImmediateBits : st.params.imm8Hi = .refuse ∧ (0x10#8).extractLsb' 4 4 ≠ 0#4 ∧
    (0xFF#8).extractLsb' 4 4 ≠ 0#4 ∧ ({ st.params with imm8Hi := .ignore } : Params).imm8Hi = .ignore := by decide +kernel

/-- Each enabling condition can fail alone. -/
theorem witness_FailedEnabling : imm8Refused st 2 = false ∧
    (∀ b : Nat, b ∈ [1, 2, 5, 6, 7] → ((st.env.xcr0 &&& ~~~(1#64 <<< b)).getLsbD b = false)) ∧
    (formOf (.ymmReg noPre 1 2 3 noMask 2)).vl ≠ .v512 ∧
    ((formOf (.zmmReg noPre 1 2 3 ⟨0, true⟩ 2)).wm.z = true ∧ (formOf (.zmmReg noPre 1 2 3 ⟨0, true⟩ 2)).wm.aaa = 0) := by
  decide +kernel

theorem witness_TaskSwitched : imm8Refused st 2 = false ∧ noMask.wellFormed = true ∧ enabled st.env .v512 = true ∧
    ({ st.env with cr0Ts := true } : Env).cr0Ts = true := by decide +kernel

/-- A full-width operand and a broadcast element one byte past the mapped ones. -/
theorem witness_MemoryFaultLeavesTheState : ready (.zmmMem00 noPre 1 2 (.base 1) noMask 2) st = true ∧
    st.params.faultSuppression = false ∧
    operandOk (.zmmMem00 noPre 1 2 (.base 1) noMask 2) st 0 64 = false ∧
    ready (.xmmBcst10 noPre 1 2 (.base 0 0x39) noMask 2) st = true ∧
    operandOk (.xmmBcst10 noPre 1 2 (.base 0 0x39) noMask 2) st 0 8 = false ∧
    (stSuppress.params.faultSuppression = true ∧ ready (.zmmMem00 noPre 1 2 (.base 0) noMask 2) stSuppress = true ∧
      maskBit stSuppress noMask 7 = true ∧ operandOk (.zmmMem00 noPre 1 2 (.base 0) noMask 2) stSuppress 56 8 = false) ∧
    (ready (.zmmBcst00 noPre 1 2 (.base 2) ⟨3, false⟩ 2) stSuppress = true ∧ maskBit stSuppress ⟨3, false⟩ 0 = true ∧
      operandOk (.zmmBcst00 noPre 1 2 (.base 2) ⟨3, false⟩ 2) stSuppress 0 8 = false) := by decide +kernel

theorem witness_MisalignedBroadcast : ready (.zmmBcst00 noPre 1 2 (.base 0) noMask 2) stAlign = true ∧
    stAlign.env.cr0Am = true ∧ stAlign.cpl = 3#2 ∧ stAlign.rflagsAC = true ∧
    (operandAddress (.zmmBcst00 noPre 1 2 (.base 0) noMask 2) stAlign).toNat % 8 ≠ 0 ∧
    operandOk (.zmmBcst00 noPre 1 2 (.base 0) noMask 2) stAlign 0 8 = true := by decide +kernel

/-- Invalid unmasked (element 3 of T3) and Denormal unmasked (element 4). -/
theorem witness_UnmaskedCondition (mx : BitVec 32) (h : mx = 0x1F00 ∨ mx = 0x1E80) :
    mayExecute { st with mxcsr := mx } .v512 noMask 2 ∧
    unmaskedDetected { st with mxcsr := mx } .v512 noMask (rangeOf { st with mxcsr := mx } 2 2 (elem (readZmm st 3))) := by
  rcases h with rfl | rfl
  · refine ⟨mayExecute_of_ready (i := .zmmReg noPre 1 2 3 noMask 2) (by decide +kernel), .inl ⟨⟨3, ?_, ?_, ?_⟩, ?_⟩⟩ <;>
      decide +kernel
  · refine ⟨mayExecute_of_ready (i := .zmmReg noPre 1 2 3 noMask 2) (by decide +kernel), .inr ⟨⟨4, ?_, ?_, ?_⟩, ?_⟩⟩ <;>
      decide +kernel

/-- P1's instruction, in 64-bit mode, not done, decoded from memory and open to the fetch. -/
theorem witness_StepRuns :
    let s := running [0x62, 0xF3, 0xED, 0x48, 0x50, 0xCB, 0x02]
    s.mode = .bits64 ∧ runDone s = false ∧
    decode (fetchWindow s.mem 15 s.pc) = .ok (.zmmReg noPre 1 2 3 noMask 2) [] ∧
    (Instr.zmmReg noPre 1 2 3 noMask 2).wellFormed = true ∧ accessAnswer s (fetchQuery s 7) = none := by decide +kernel

/-- The same with a rule that denies the last byte of the fetch. -/
theorem witness_FetchFault :
    let s := { running [0x62, 0xF3, 0xED, 0x48, 0x50, 0xCB, 0x02] with
      params := { st.params with access := [⟨.touches 0x1006 0x1006, some .fetch, none, none, .page true false true false none⟩] } }
    s.mode = .bits64 ∧ runDone s = false ∧
    decode (fetchWindow s.mem 15 s.pc) = .ok (.zmmReg noPre 1 2 3 noMask 2) [] ∧
    accessAnswer s (fetchQuery s 7) = some (.pf 0b010101#6 0x1006) := by decide +kernel

/-- The other ways a fetch can be denied: an invalid candidate, no candidate, repeated prefixes (a rule denies the first
byte), and bytes that end in memory. -/
theorem witness_FetchFault_rejected :
    let deny := fun s : State => { s with
      params := { st.params with access := [⟨.touches 0x1000 0x1000, some .fetch, none, none, .page true false true false none⟩] } }
    (∀ bs : List Byte, bs ∈ [[0x62, 0xF3, 0xED, 0x68, 0x50, 0xCB, 0xF2], [0x62, 0xF3, 0xED, 0x08, 0x51, 0xCB, 0x02],
        [0x66, 0x66, 0x90], [0x62, 0xF3, 0xED, 0x48, 0x50, 0x88]] →
      let s := deny (running bs)
      s.mode = .bits64 ∧ runDone s = false ∧ fetchWindow s.mem 15 s.pc = bs ∧
      (accessAnswer s (fetchQuery s 2)).isSome ∧ (accessAnswer s (fetchQuery s 5)).isSome ∧
      (accessAnswer s (fetchQuery s 7)).isSome ∧ (accessAnswer s (fetchQuery s 11)).isSome) ∧
    decode [0x62, 0xF3, 0xED, 0x68, 0x50, 0xCB, 0xF2] = .invalid .reservedLength 0xF2 [] ∧
    decode [0x62, 0xF3, 0xED, 0x08, 0x51, 0xCB, 0x02] = .notVrangepd 5 ∧ decode [0x66, 0x66, 0x90] = .repeatedPrefix 2 ∧
    decode [0x62, 0xF3, 0xED, 0x48, 0x50, 0x88] = .truncated 11 := by decide +kernel

/-- Opcode 51h at the program counter: no candidate. -/
def stOther : State := running [0x62, 0xF3, 0xED, 0x08, 0x51, 0xCB, 0x02]
/-- `L'L = 11b` at the program counter: an invalid candidate. -/
def stInvalid : State := running [0x62, 0xF3, 0xED, 0x68, 0x50, 0xCB, 0xF2]

/-- Two overrides at the program counter. -/
def stRepeated : State := running [0x64, 0x65, 0x62]

/-- Each clause. -/
theorem witness_StepOnRejectedBytes : (stOther.mode = .bits64 ∧ runDone stOther = false ∧
      decode (fetchWindow stOther.mem 15 stOther.pc) = .notVrangepd 5 ∧ accessAnswer stOther (fetchQuery stOther 5) = none) ∧
    (stRepeated.mode = .bits64 ∧ runDone stRepeated = false ∧
      decode (fetchWindow stRepeated.mem 15 stRepeated.pc) = .repeatedPrefix 2 ∧
      accessAnswer stRepeated (fetchQuery stRepeated 2) = none) ∧
    (stInvalid.mode = .bits64 ∧ runDone stInvalid = false ∧
      decode (fetchWindow stInvalid.mem 15 stInvalid.pc) = .invalid .reservedLength 0xF2 [] ∧
      accessAnswer stInvalid (fetchQuery stInvalid ((fetchWindow stInvalid.mem 15 stInvalid.pc).length - 0)) = none) := by
  decide +kernel

/-- StepFrame, FaultsArePrecise, StepKeepsTheMachineInvariant, RunsKeepMemoryAndStickyFlags: a step that completes, one that
faults, the invariant, and a run of one step. -/
theorem witness_steps :
    (nextOf (step (running [0x62, 0xF3, 0xED, 0x48, 0x50, 0xCB, 0x02]))).isSome = true ∧
    (faultOf (step { running [0x62, 0xF3, 0xED, 0x48, 0x50, 0xCB, 0x02] with mxcsr := 0x1F00 })).isSome = true ∧
    Memory.wf (running [0x62, 0xF3, 0xED, 0x48, 0x50, 0xCB, 0x02]).mem = true ∧ mxReserved st.mxcsr = 0#16 ∧
    (nextOf (Host.Core.run Sys2Proof.core 1 (running [0x62, 0xF3, 0xED, 0x48, 0x50, 0xCB, 0x02]))).isSome = true := by
  decide +kernel

theorem witness_CompletionAdvancesPc : (nextOf (exec (.zmmReg noPre 1 2 3 noMask 2) st)).isSome = true ∧
    (faultOf (exec (.zmmMem00 noPre 1 2 (.base 1) noMask 2) st)).isSome = true := by decide +kernel

/-- Every other bit of MXCSR set, and an instruction that completes and one that faults. -/
theorem witness_OtherMxcsrBits : (0xFFFFFFBF#32).getLsbD 9 = st.mxcsr.getLsbD 9 ∧
    (∀ n, n = 6 ∨ n = 7 ∨ n = 8 → (0xFFFFFFBF#32).getLsbD n = st.mxcsr.getLsbD n) ∧
    (nextOf (exec (.zmmReg noPre 1 2 3 noMask 2) st)).isSome = true ∧
    (faultOf (exec (.zmmMem00 noPre 1 2 (.base 1) noMask 2) st)).isSome = true := by
  refine ⟨by decide +kernel, ?_, by decide +kernel, by decide +kernel⟩
  rintro n (rfl | rfl | rfl) <;> decide +kernel

/-- `zmm2` replaced by a value that differs above bit 127 only, with a 128-bit form that completes. -/
theorem witness_HighVectorBits :
    (∀ j, j < elems .v128 → elem (readZmm st 2 ^^^ (1#512 <<< 128) ^^^ (1#512 <<< 511)) j = elem (readZmm st 2) j) ∧
    (nextOf (exec (.xmmReg noPre 1 2 3 noMask 2) st)).isSome = true := by decide +kernel

/-- No writemask; and an opmask file that agrees on the low 2 bits of K1 only. -/
theorem witness_OtherOpmaskBits : (formOf (.xmmReg noPre 1 2 3 noMask 2)).wm.aaa = 0 ∧
    (∀ j, j < elems .v128 → (((Vector.replicate 8 0xFD#64) : Vector KWord 8)[1]).getLsbD j = (readK st 1).getLsbD j) ∧
    (nextOf (exec (.xmmReg noPre 1 2 3 noMask 2) st)).isSome = true ∧
    (nextOf (exec (.xmmReg noPre 1 2 3 ⟨1, false⟩ 2) st)).isSome = true := by decide +kernel

theorem witness_NothingExecutesAtPowerUp : (formOf (.zmmReg noPre 1 2 3 noMask 0x0F)).imm.extractLsb' 4 4 = 0#4 ∧
    ({ st with mode := .compatibility } : State).mode ≠ .bits64 := by decide +kernel

end Sys2Proof.Tests
end

/-! The statements on the machine's state (10_state.md): what a step may change, what it keeps, which parts of the state
one execution does not read, and the power-up values. -/

namespace Sys2Proof.Machine

/-! ## MXCSR after an execution -/

/-- Writing back the MXCSR that is there changes nothing. -/
@[simp] theorem writeMxcsr_self (s : State) : writeMxcsr s s.mxcsr = s := rfl

/-- A flag that is set stays set when conditions are OR-ed in (R14: the flags are sticky). -/
theorem setFlags_sticky {v : BitVec 32} {n : Nat} (ie de : Bool) (h : v.getLsbD n = true) :
    (setFlags v ie de).getLsbD n = true := by
  simp [setFlags_getLsbD, h]

/-- Only IE and DE, bits 0 and 1, can change when conditions are OR-ed in (R91). -/
theorem setFlags_getLsbD_of_two_le (v : BitVec 32) (ie de : Bool) {n : Nat} (h : 2 ≤ n) :
    (setFlags v ie de).getLsbD n = v.getLsbD n := by
  have h0 : (n == 0) = false := beq_false_of_ne (by omega)
  have h1 : (n == 1) = false := beq_false_of_ne (by omega)
  simp [setFlags_getLsbD, h0, h1]

/-- A bit that two MXCSR values hold alike is alike after the same conditions are OR-ed in. -/
theorem setFlags_getLsbD_congr {v w : BitVec 32} {n : Nat} (ie de : Bool) (h : v.getLsbD n = w.getLsbD n) :
    (setFlags v ie de).getLsbD n = (setFlags w ie de).getLsbD n := by
  simp [setFlags_getLsbD, h]

/-- The reserved bits 31:16 are not flags (R14). -/
@[simp] theorem mxReserved_setFlags (v : BitVec 32) (ie de : Bool) :
    mxReserved (setFlags v ie de) = mxReserved v := by
  apply BitVec.eq_of_getLsbD_eq
  intro n _
  simp [mxReserved, setFlags_getLsbD_of_two_le v ie de (show 2 ≤ 16 + n by omega)]

/-! ## The frame -/

/-- Writing MXCSR touches nothing that R22 frames. -/
theorem sameElsewhere_writeMxcsr (s : State) (v : BitVec 32) : SameElsewhere s (writeMxcsr s v) := by
  constructor <;> simp

/-- Flags, destination and `pc` are all that a completed execution touches (R22, R97 step 7). -/
theorem sameElsewhere_finish (s : State) (v : BitVec 32) (f : Form) (new : ZWord) :
    SameElsewhere s (finish (writeMxcsr s v) f new) := by
  constructor <;> simp [finish]

/-- The one shape of a completed instruction: flags OR-ed in (none for `{sae}`, R95), destination written, `pc` past it. -/
theorem next_of_exec {i : Instr} {s t : State} (h : exec i s = .next t) :
    ∃ ie de new, t = finish (writeMxcsr s (setFlags s.mxcsr ie de)) (formOf i) new := by
  rw [exec_eq_vrangepd] at h
  obtain ⟨v, _, ht⟩ := next_of_vrangepd h
  cases hsae : (formOf i).sae with
  | true => exact ⟨false, false, _, by simpa [hsae] using ht⟩
  | false => exact ⟨_, _, _, by simpa [hsae] using ht⟩

/-- A step of a run that is done, if it is a step at all, answers the same state (D22, log 12). -/
theorem eq_of_step_of_runDone {s t : State} (hd : runDone s = true) (h : step s = .next t) : t = s := by
  rcases step_cases s with ⟨_, e⟩ | ⟨_, _, e⟩ | ⟨_, hd', _⟩
  · rw [e] at h; cases h
  · rw [e] at h; cases h; rfl
  · rw [hd] at hd'; cases hd'

/-- A fault of a step leaves the state as it was, or comes from the fetched instruction. -/
theorem fault_of_step {s : State} {f : Fault} (h : step s = .fault f) :
    f.after = s ∨ ∃ i, fetch s = .ok (.instr i) ∧ exec i s = .fault f := by
  rcases step_cases s with ⟨_, e⟩ | ⟨_, _, e⟩ | ⟨_, _, ⟨x, _, e⟩ | ⟨i, hi, e⟩ | ⟨imm, _, e⟩ | ⟨_, e⟩ | ⟨_, e⟩⟩ <;>
    rw [e] at h
  · cases h
  · cases h
  · exact .inl (after_of_raise h)
  · exact .inr ⟨i, hi, h⟩
  · rcases execInvalid_cases imm s with ⟨_, e'⟩ | ⟨_, e'⟩ <;> rw [e'] at h
    · cases h
    · exact .inl (after_of_raise h)
  · cases h
  · cases h

/-- The fault of an unmasked condition: `#XM` with CR4.OSXMMEXCPT = 1, `#UD` without (R112). -/
theorem fault_of_raise_fpExn {e : Env} {t : State} {f : Fault} (h : raise (fpExn e) t = .fault f) :
    f = .simdFloatingPoint t ∧ e.cr4Osxmmexcpt = true ∨ f = .invalidOpcode t ∧ e.cr4Osxmmexcpt = false := by
  cases he : e.cr4Osxmmexcpt <;> simp only [fpExn, he, raise] at h <;> cases h
  · exact .inr ⟨rfl, rfl⟩
  · exact .inl ⟨rfl, rfl⟩

/-- Settles O50: every completing step of a run that is not done has the shape of `next_of_exec`. -/
theorem stepFrame : Obligations.StepFrame := by
  intro s t h
  cases hd : runDone s with
  | true => exact .inl ⟨rfl, eq_of_step_of_runDone hd h⟩
  | false =>
    rcases next_of_step h with ⟨hd', _⟩ | ⟨i, hi, hx⟩
    · rw [hd] at hd'; cases hd'
    · obtain ⟨ie, de, new, rfl⟩ := next_of_exec hx
      refine .inr ⟨rfl, i, hi, sameElsewhere_finish _ _ _ _, fun r hr => ?dest, ?pc, fun n hn => ?others,
        fun n hn => ?sticky⟩
      case dest => simp [finish, readZmm_writeZmm_ne _ _ _ _ hr]
      case pc => simp [finish, formOf_len]
      case others => exact setFlags_getLsbD_of_two_le _ _ _ hn
      case sticky => exact setFlags_sticky _ _ hn

/-- Settles O53: no step writes memory, and the reserved bits are not flags. -/
theorem stepKeepsTheMachineInvariant : Obligations.StepKeepsTheMachineInvariant := by
  rintro s t ⟨hmem, hres⟩ h
  rcases next_of_step h with ⟨_, rfl⟩ | ⟨i, _, hx⟩
  · exact ⟨hmem, hres⟩
  · obtain ⟨ie, de, new, rfl⟩ := next_of_exec hx
    exact ⟨by simpa [finish] using hmem, by simpa [finish] using hres⟩

/-- Settles O51: of all faults of a step only that of an unmasked condition changes the state, and only MXCSR in it. -/
theorem faultsArePrecise : Obligations.FaultsArePrecise := by
  intro s f h
  rcases fault_of_step h with hs | ⟨i, _, hx⟩
  · exact .inl hs
  · rw [exec_eq_vrangepd] at hx
    rcases fault_of_vrangepd hx with hs | ⟨v, _, _, _, hraise, hafter⟩
    · exact .inl hs
    · refine .inr ⟨fault_of_raise_fpExn hraise, ?_⟩
      rw [hafter]
      exact ⟨rfl, rfl, sameElsewhere_writeMxcsr _ _, fun n hn => setFlags_getLsbD_of_two_le _ _ _ hn,
        fun n hn => setFlags_sticky _ _ hn⟩

/-! ## What one execution reads -/

/-- `s` and `u` agree on everything that one execution of the form `f` reads: the elements below `VL`, the mask bits below
`KL`, DAZ and the two masks of MXCSR, and whatever forms an address, permits a read or enables the instruction. -/
structure SameInputs (f : Form) (s u : State) : Prop where
  x : u.x = s.x := by rfl
  pc : u.pc = s.pc := by rfl
  fsbase : u.fsbase = s.fsbase := by rfl
  gsbase : u.gsbase = s.gsbase := by rfl
  rflagsAC : u.rflagsAC = s.rflagsAC := by rfl
  cpl : u.cpl = s.cpl := by rfl
  mem : u.mem = s.mem := by rfl
  env : u.env = s.env := by rfl
  params : u.params = s.params := by rfl
  elem_eq : ∀ r j, j < elems f.vl → elem (readZmm u r) j = elem (readZmm s r) j := by intros; rfl
  mask_eq : ∀ j, j < elems f.vl → maskBit u f.wm j = maskBit s f.wm j := by intros; rfl
  daz : mxDAZ u.mxcsr = mxDAZ s.mxcsr := by rfl
  im : mxIM u.mxcsr = mxIM s.mxcsr := by rfl
  dm : mxDM u.mxcsr = mxDM s.mxcsr := by rfl

/-- Whether some element is active and passes a test depends on the mask bits and the test below `KL` only. -/
theorem someActive_congr {f : Form} {s u : State} {c d : Nat → Bool}
    (hm : ∀ j, j < elems f.vl → maskBit u f.wm j = maskBit s f.wm j) (hc : ∀ j, j < elems f.vl → d j = c j) :
    someActive u f d = someActive s f c := by
  rw [Bool.eq_iff_iff, someActive_iff, someActive_iff]
  refine exists_congr fun j => and_congr_right fun hj => ?_
  rw [hm j hj, hc j hj]

namespace SameInputs

variable {f : Form} {s u : State}

/-- Both reads of operand 3 fail alike, or give values that the element loop cannot tell apart. -/
theorem readSrc2_alike (h : SameInputs f s u) :
    (∃ e, readSrc2 s f = .error e ∧ readSrc2 u f = .error e) ∨
    ∃ v w, readSrc2 s f = .ok v ∧ readSrc2 u f = .ok w ∧
      ∀ j, j < elems f.vl → src2Elem f w j = src2Elem f v j := by
  by_cases hreg : ∃ r, f.op3 = .reg r
  · obtain ⟨r, hr⟩ := hreg
    refine .inr ⟨readZmm s r, readZmm u r, by simp [readSrc2, hr], by simp [readSrc2, hr], ?_⟩
    intro j hj
    simpa [src2Elem, hr] using h.elem_eq r j hj
  · have hmem : readSrc2 u f = readSrc2 s f :=
      readSrc2_congr s u f h.x h.pc h.fsbase h.gsbase h.rflagsAC h.cpl h.mem h.env h.params h.mask_eq
        fun r hr => hreg ⟨r, hr⟩
    rw [hmem]
    cases hs : readSrc2 s f with
    | error e => exact .inl ⟨e, rfl, rfl⟩
    | ok v => exact .inr ⟨v, v, rfl, rfl, fun _ _ => rfl⟩

/-- The element loop (R90) gives the same register value and the same conditions. -/
theorem elementLoop_eq (h : SameInputs f s u) {v w : ZWord}
    (hsrc : ∀ j, j < elems f.vl → src2Elem f w j = src2Elem f v j) :
    elementLoop u f w = elementLoop s f v := by
  have hrange : ∀ j, j < elems f.vl → rangeElem u f w j = rangeElem s f v j := by
    intro j hj
    rw [rangeElem, rangeElem, h.elem_eq _ j hj, hsrc j hj, h.daz]
  have hnew : newElem u f w = newElem s f v := by
    funext j
    by_cases hj : j < elems f.vl
    · simp only [newElem, hj, if_true, h.mask_eq j hj, hrange j hj, h.elem_eq f.dest j hj]
    · simp only [newElem, hj, if_false]
  rw [elementLoop, elementLoop, hnew, someActive_congr h.mask_eq fun j hj => congrArg RangeOut.ie (hrange j hj),
    someActive_congr h.mask_eq fun j hj => congrArg RangeOut.de (hrange j hj)]

/-- The decision to fault (R91) is the same for the same conditions. -/
theorem unmaskedCondition_eq (h : SameInputs f s u) (ie de : Bool) :
    unmaskedCondition u.mxcsr ie de = unmaskedCondition s.mxcsr ie de := by
  rw [unmaskedCondition, unmaskedCondition, h.im, h.dm]

end SameInputs

/-- What one execution decides to do, apart from the state it does it to. -/
inductive Verdict where
  | refuse (r : Refusal)
  /-- A fault before the element loop. -/
  | fault (x : Exn)
  /-- The fault of an unmasked condition, after the flags are set (R91). -/
  | fpFault (ie de : Bool)
  | finish (ie de : Bool) (new : ZWord)

/-- A verdict carried out on a state. -/
def Verdict.run (f : Form) (s : State) : Verdict → Host.Outcome State Fault Refusal
  | .refuse r => .refused r
  | .fault x => raise x s
  | .fpFault ie de => raise (fpExn s.env) (writeMxcsr s (setFlags s.mxcsr ie de))
  | .finish ie de new => .next (Machine.finish (writeMxcsr s (setFlags s.mxcsr ie de)) f new)

/-- Flags and fault decision (R91, R95) come to one verdict on states with the same inputs. -/
theorem exists_verdict_complete {f : Form} {s u : State} (h : SameInputs f s u) (r : LoopOut) :
    ∃ d : Verdict, complete s f r = d.run f s ∧ complete u f r = d.run f u := by
  rcases complete_cases s f r with ⟨hs, e⟩ | ⟨hs, hu, e⟩ | ⟨hs, hu, e⟩
  · exact ⟨.finish false false r.new, by simp [e, Verdict.run], by simp [complete, hs, Verdict.run]⟩
  · exact ⟨.fpFault r.ie r.de, e, by simp [complete, hs, h.unmaskedCondition_eq, hu, Verdict.run]⟩
  · exact ⟨.finish r.ie r.de r.new, e, by simp [complete, hs, h.unmaskedCondition_eq, hu, Verdict.run]⟩

/-- The read of operand 3 and all that follows it (R96, R90, R91) come to one verdict. -/
theorem exists_verdict_of_mayExecute {f : Form} {s u : State} (h : SameInputs f s u)
    (hs : mayExecute s f.vl f.wm f.imm) (hu : mayExecute u f.vl f.wm f.imm) :
    ∃ d : Verdict, vrangepd f s = d.run f s ∧ vrangepd f u = d.run f u := by
  rw [vrangepd_of_mayExecute hs, vrangepd_of_mayExecute hu]
  rcases h.readSrc2_alike with ⟨x, es, eu⟩ | ⟨v, w, es, eu, hsrc⟩
  · exact ⟨.fault x, by rw [es]; rfl, by rw [eu]; rfl⟩
  · simp only [es, eu, h.elementLoop_eq hsrc]
    exact exists_verdict_complete h _

/-- One execution comes to one verdict on states with the same inputs: nothing else of the state decides anything. -/
theorem exists_verdict_vrangepd {f : Form} {s u : State} (h : SameInputs f s u) :
    ∃ d : Verdict, vrangepd f s = d.run f s ∧ vrangepd f u = d.run f u := by
  have himm : imm8Refused u f.imm = imm8Refused s f.imm := by simp [imm8Refused, h.params]
  have hmay : mayExecute u f.vl f.wm f.imm ↔ mayExecute s f.vl f.wm f.imm := by
    simp only [mayExecute, himm, launchReady, h.env]
  by_cases hs : mayExecute s f.vl f.wm f.imm
  · exact exists_verdict_of_mayExecute h hs (hmay.mpr hs)
  · rcases vrangepd_cases f s with ⟨h1, e⟩ | ⟨h1, h2, e⟩ | ⟨h1, h2, h3, e⟩ | ⟨h1, h2, h3, _⟩ | ⟨h1, h2, h3, _⟩
    · exact ⟨.refuse .imm8HighNonzero, e, by simp [vrangepd, himm, h1, Verdict.run]⟩
    · exact ⟨.fault .ud, e, by simp [vrangepd, himm, h1, h.env, h2, Verdict.run]⟩
    · exact ⟨.fault .nm, e, by simp [vrangepd, himm, h1, h.env, h2, h3, Verdict.run]⟩
    all_goals
      obtain ⟨hwf, hen⟩ := Bool.and_eq_true_iff.mp h2
      exact absurd ⟨hwf, h1, by simp [launchReady, hen, h3]⟩ hs

/-- An instruction that completes does so, with the same flags and destination value, on a state with the same inputs. -/
theorem SameInputs.next_of_exec {i : Instr} {s u t : State} (h : SameInputs (formOf i) s u) (ht : exec i s = .next t) :
    ∃ ie de new, t = finish (writeMxcsr s (setFlags s.mxcsr ie de)) (formOf i) new ∧
      exec i u = .next (finish (writeMxcsr u (setFlags u.mxcsr ie de)) (formOf i) new) := by
  rw [exec_eq_vrangepd] at ht ⊢
  obtain ⟨d, hs, hu⟩ := exists_verdict_vrangepd h
  rw [hs] at ht
  cases d with
  | refuse r => cases ht
  | fault x => exact absurd ht (raise_ne_next _ _ _)
  | fpFault ie de => exact absurd ht (raise_ne_next _ _ _)
  | finish ie de new => cases ht; exact ⟨ie, de, new, rfl, hu⟩

/-- An instruction that faults raises the same exception, with the same conditions OR-ed into MXCSR (none but for a
floating-point fault, R120), on a state with the same inputs. -/
theorem SameInputs.fault_of_exec {i : Instr} {s u : State} {f : Fault} (h : SameInputs (formOf i) s u)
    (hf : exec i s = .fault f) :
    ∃ x ie de, raise x (writeMxcsr s (setFlags s.mxcsr ie de)) = .fault f ∧
      exec i u = raise x (writeMxcsr u (setFlags u.mxcsr ie de)) := by
  rw [exec_eq_vrangepd] at hf ⊢
  obtain ⟨d, hs, hu⟩ := exists_verdict_vrangepd h
  rw [hs] at hf
  cases d with
  | refuse r => cases hf
  | fault x => exact ⟨x, false, false, by simpa [Verdict.run] using hf, by simpa [Verdict.run] using hu⟩
  | fpFault ie de => exact ⟨fpExn s.env, ie, de, hf, by simpa [Verdict.run, h.env] using hu⟩
  | finish ie de new => cases hf

/-! ## What an instruction does not depend on -/

/-- The vector number and the CR2 value are those of the exception, whatever the state it is raised in (R110, R116). -/
theorem raise_info_eq {x : Exn} {s u : State} {f : Fault} (h : raise x s = .fault f) :
    ∃ g, raise x u = .fault g ∧ g.vector = f.vector ∧ g.cr2 = f.cr2 := by
  cases x <;> cases h <;> exact ⟨_, rfl, rfl, rfl⟩

/-- Bits 6 to 8 are all of MXCSR that an execution reads (R15). -/
theorem sameInputs_writeMxcsr (f : Form) {s : State} {v : BitVec 32}
    (h : ∀ n, n = 6 ∨ n = 7 ∨ n = 8 → v.getLsbD n = s.mxcsr.getLsbD n) : SameInputs f s (writeMxcsr s v) where
  daz := h 6 (by decide)
  im := h 7 (by decide)
  dm := h 8 (by decide)

/-- Bits `VL-1:0` are all of a vector register that an execution reads (R12). -/
theorem sameInputs_writeZmm {f : Form} {s : State} {r : VReg} {v : ZWord}
    (h : ∀ j, j < elems f.vl → elem v j = elem (readZmm s r) j) : SameInputs f s (writeZmm s r v) where
  elem_eq q j hj := by
    rw [readZmm_writeZmm]
    split
    next hq => rw [hq, h j hj]
    next => rfl

/-- Bits `KL-1:0` of the opmask register that `aaa` names are all of the opmask file that an execution reads, and none with
`aaa = 000b` (R13). -/
theorem sameInputs_of_opmask {f : Form} {s : State} {ks : Vector KWord 8}
    (h : f.wm.aaa = 0 ∨ ∀ j, j < elems f.vl → (ks[f.wm.aaa]).getLsbD j = (readK s f.wm.aaa).getLsbD j) :
    SameInputs f s { s with k := ks } where
  mask_eq j hj := by
    rcases h with h0 | hk
    · simp [maskBit, h0]
    · exact congrArg (f.wm.aaa == 0 || ·) (hk j hj)

/-- Settles O56: one verdict for both MXCSR values, which ORs the same conditions into each. -/
theorem otherMxcsrBitsHaveNoEffect : Obligations.OtherMxcsrBitsHaveNoEffect := by
  intro i s v hv
  have hin := sameInputs_writeMxcsr (formOf i) hv
  constructor
  · intro t ht
    obtain ⟨ie, de, new, rfl, hu⟩ := hin.next_of_exec ht
    exact ⟨_, hu, rfl, rfl, fun n hn => setFlags_getLsbD_congr ie de hn⟩
  · intro f hf
    obtain ⟨x, ie, de, hs, hu⟩ := hin.fault_of_exec hf
    obtain ⟨g, hg, hvec, hcr2⟩ := raise_info_eq hs
    refine ⟨g, hu.trans hg, hvec, hcr2, fun n hn => ?_⟩
    rw [after_of_raise hs, after_of_raise hg]
    exact setFlags_getLsbD_congr ie de hn

/-- Settles O57: the destination is written whole, so that nothing of the bits above `VL` is left in it. -/
theorem highVectorBitsHaveNoEffect : Obligations.HighVectorBitsHaveNoEffect := by
  intro i s t r v hv ht
  obtain ⟨ie, de, new, rfl, hu⟩ := (sameInputs_writeZmm hv).next_of_exec ht
  exact ⟨_, hu, by simp [finish], rfl, rfl⟩

/-- Settles O58: one verdict for both opmask files, carried out on the same vector registers, MXCSR and `pc`. -/
theorem otherOpmaskBitsHaveNoEffect : Obligations.OtherOpmaskBitsHaveNoEffect := by
  intro i s t ks hk ht
  obtain ⟨ie, de, new, rfl, hu⟩ := (sameInputs_of_opmask hk).next_of_exec ht
  exact ⟨_, hu, rfl, rfl, rfl⟩

/-! ## Reset -/

/-- A launch writes bytes and keeps MXCSR, so that it keeps the machine invariant. -/
theorem withFetchWord_machineInv {s : State} (nbits w : Nat) (h : MachineInv s) :
    MachineInv (s.withFetchWord nbits w) := by
  obtain ⟨hmem, hres⟩ := h
  exact ⟨writeBytes_wf _ _ _ hmem, hres⟩

/-- Settles O54: the invariant at reset is a fact about two constants, and the launch keeps it. -/
theorem resetHasTheMachineInvariant : Obligations.ResetHasTheMachineInvariant :=
  have hreset : MachineInv State.reset := ⟨reset_wf, by decide⟩
  ⟨hreset, fun nbits w => withFetchWord_machineInv nbits w hreset⟩

/-- Settles O59: RDX is the one general register that is not zero at power-up, and every other value is read off the
definition. -/
theorem resetValues : Obligations.ResetValues := by
  refine ⟨fun r => ?zmm, fun r => ?k, rfl, fun g hg => ?x, rfl, rfl, rfl, rfl, rfl, rfl, rfl, rfl, rfl, rfl, rfl, rfl⟩
  case zmm => simp [readZmm, State.reset]
  case k => simp [readK, State.reset]
  case x =>
    have hne : (2 : Nat) ≠ g := fun e => hg (Fin.ext e.symm)
    simp [readX, State.reset, hne]

/-- CR4.OSXSAVE is 0 at reset, so that no vector length is enabled (R24, R113). -/
theorem enabled_reset (vl : VLen) : enabled State.reset.env vl = false := rfl

/-- Settles O60: the imm8 is accepted, and the enabling condition that comes next fails at reset for every form. -/
theorem nothingExecutesAtPowerUp : Obligations.NothingExecutesAtPowerUp := by
  have hmode : ∀ s : State, s.mode ≠ .bits64 → step s = .refused .notIn64BitMode := by
    intro s hs
    simp [step, hs]
  refine ⟨fun i hi => ?_, hmode, hmode State.reset (by decide)⟩
  have himm : imm8Refused State.reset (formOf i).imm = false := by simp [imm8Refused, hi]
  simp [exec_eq_vrangepd, vrangepd, himm, enabled_reset, raise]

end Sys2Proof.Machine

/-! The statements on memory (20_memory.md): what a read answers, what the memory forms complete with, which fault a denied
operand read or fetch raises, and that a run never changes memory. -/

namespace Sys2Proof.Machine

/-! ## The read primitive -/

/-- Settles O30: each of the three kinds of answer of `Access` is a fault of R115 or R116, or `ok` with all bytes there. -/
theorem memReadAsksAccess : Obligations.MemReadAsksAccess := by
  intro s q
  refine ⟨fun x hx => ⟨memRead_of_denied hx, ?kind⟩, fun hok => ⟨_, memRead_of_ok hok, by simp, fun m hm => ?byte⟩⟩
  case kind =>
    rcases accessAnswer_cases s q with ⟨_, h⟩ | ⟨_, h⟩ | ⟨_, p, r, k, pk, a, h⟩ <;> rw [hx] at h <;> cases h
    · unfold nonCanonicalExn
      split
      · exact .inl rfl
      · exact .inr (.inl rfl)
    · exact .inr (.inr ⟨_, _, rfl⟩)
  case byte =>
    have hmem : q.a + BitVec.ofNat 64 m ∈ q.addrs := List.mem_map.mpr ⟨m, List.mem_range.mpr hm, rfl⟩
    obtain ⟨b, hb⟩ := Option.isSome_iff_exists.mp (isSome_of_accessAnswer hok _ hmem)
    rw [bytesAt_getElem?, if_pos hm, hb, Option.getD_some]

/-! ## Operand 3 in memory (R33 to R35) -/

/-- Without fault suppression a full-width operand is one read of `VL/8` bytes. -/
theorem readFull_of_readable {s : State} {f : Form} {r : MemRef} (hfs : s.params.faultSuppression = false)
    (h : operandReadable s f.pre r (linearAddress s f.pre f.len r) (vlBytes f.vl)) :
    readFull s f r = .ok (BitVec.ofNat 512 (littleEndian
      (bytesAt s.mem (dataQuery s f.pre r (linearAddress s f.pre f.len r) (vlBytes f.vl))))) := by
  simp [readFull, hfs, memRead_of_ok h]

/-- Without fault suppression a full-width operand raises the fault of its one read. -/
theorem readFull_of_denied {s : State} {f : Form} {r : MemRef} {x : Exn} (hfs : s.params.faultSuppression = false)
    (h : accessAnswer s (dataQuery s f.pre r (linearAddress s f.pre f.len r) (vlBytes f.vl)) = some x) :
    readFull s f r = .error x := by
  simp [readFull, hfs, memRead_of_denied h]

/-- Under fault suppression a full-width operand needs the bytes of its active elements only. -/
theorem readFull_of_active_readable {s : State} {f : Form} {r : MemRef} (hfs : s.params.faultSuppression = true)
    (h : ∀ j, j < elems f.vl → maskBit s f.wm j = true →
      operandReadable s f.pre r (linearAddress s f.pre f.len r + BitVec.ofNat 64 (8 * j)) 8) :
    readFull s f r = .ok (activeValue s f r (linearAddress s f.pre f.len r)) := by
  rcases readFull_suppressed_cases s f r hfs with ⟨_, hok⟩ | ⟨q, hq, x, hx, _⟩
  · exact hok
  · obtain ⟨j, hj, hm, rfl⟩ := (mem_activeQueries s f r _ q).mp hq
    have hnone : accessAnswer s (elemQuery s f r (linearAddress s f.pre f.len r) j) = none := h j hj hm
    rw [hnone] at hx
    cases hx

/-- Some element is active. -/
theorem anyActive_iff (s : State) (f : Form) :
    anyActive s f = true ↔ ∃ j, j < elems f.vl ∧ maskBit s f.wm j = true := by
  simp [anyActive, List.any_eq_true]

/-- A broadcast whose element is read raises the fault of that read, aligned or not (R118). -/
theorem readBcst_of_denied {s : State} {f : Form} {r : MemRef} {x : Exn}
    (hact : s.params.faultSuppression = false ∨ anyActive s f = true)
    (h : accessAnswer s (dataQuery s f.pre r (linearAddress s f.pre f.len r) 8) = some x) :
    readBcst s f r = .error x := by
  have hskip : (s.params.faultSuppression && !anyActive s f) = false := by
    rcases hact with h' | h' <;> simp [h']
  simp [readBcst, readBcstElem, hskip, memRead_of_denied h]

/-- A broadcast at an address that alignment checking accepts (R34) is skipped under fault suppression with no active
element (R35), and else gives its element when that is readable. -/
theorem readBcst_of_aligned {s : State} {f : Form} {r : MemRef}
    (halign : alignmentCheckingOn s = true → (linearAddress s f.pre f.len r).toNat % 8 = 0)
    (h : operandReadable s f.pre r (linearAddress s f.pre f.len r) 8 ∨
      (s.params.faultSuppression = true ∧ anyActive s f = false)) :
    ∃ v, readBcst s f r = .ok v ∧
      (anyActive s f = true → elem v 0 = wordAt s.mem (linearAddress s f.pre f.len r)) := by
  have hac : (alignmentCheckingOn s && (linearAddress s f.pre f.len r).toNat % 8 != 0) = false := by
    cases ha : alignmentCheckingOn s with
    | false => rfl
    | true => simp [halign ha]
  cases hskip : (s.params.faultSuppression && !anyActive s f) with
  | true =>
    refine ⟨0#512, by simp [readBcst, readBcstElem, hskip, hac], fun hact => ?_⟩
    simp [hact] at hskip
  | false =>
    have hok : operandReadable s f.pre r (linearAddress s f.pre f.len r) 8 := by
      rcases h with h | ⟨hfs, hno⟩
      · exact h
      · simp [hfs, hno] at hskip
    refine ⟨_, by simp only [readBcst, readBcstElem, hskip, hac, memRead_of_ok hok]; rfl, fun _ => ?_⟩
    simpa [dataQuery] using elem_littleEndian s.mem
      (dataQuery s f.pre r (linearAddress s f.pre f.len r) 8) 0 (le_refl 8) (Nat.le_add_right 8 56)

/-- Settles O34: the one read of `VL/8` bytes, cut into elements. -/
theorem fullWidthReadIsLittleEndian : Obligations.FullWidthReadIsLittleEndian := by
  rintro s f r a hfs rfl hread
  refine ⟨_, readFull_of_readable hfs hread, fun j hj => ?_⟩
  have h8 := elems_le f.vl
  exact elem_littleEndian s.mem (dataQuery s f.pre r _ (vlBytes f.vl)) j
    (by simp only [dataQuery, vlBytes]; omega) (by simp only [dataQuery, vlBytes]; omega)

/-! ## What a form completes with -/

/-- The loop's element results are those that claims name (R90). -/
theorem rangeElem_eq_rangeOf (s : State) (f : Form) (v : ZWord) :
    rangeElem s f v = rangeOf s f.src1 f.imm (src2Elem f v) := rfl

/-- What is detected depends on the active elements only. -/
theorem detected_congr {s : State} {vl : VLen} {m : Writemask} {c d : Nat → Bool}
    (h : ∀ j, j < elems vl → maskBit s m j = true → c j = d j) : detected s vl m c ↔ detected s vl m d := by
  refine exists_congr fun j => and_congr_right fun hj => and_congr_right fun hm => ?_
  rw [h j hj hm]

/-- Whether an unmasked condition is detected depends on the results of the active elements only. -/
theorem unmaskedDetected_congr {s : State} {vl : VLen} {m : Writemask} {out out' : Nat → RangeOut}
    (h : ∀ j, j < elems vl → maskBit s m j = true → out j = out' j) :
    unmaskedDetected s vl m out ↔ unmaskedDetected s vl m out' := by
  rw [unmaskedDetected, unmaskedDetected, detected_congr fun j hj hm => congrArg RangeOut.ie (h j hj hm),
    detected_congr fun j hj hm => congrArg RangeOut.de (h j hj hm)]

/-- MXCSR with two conditions OR-ed in, whatever names those conditions. -/
theorem flagsOred_of_setFlags {s t : State} {ie de : Bool} {P Q : Prop} (h : t.mxcsr = setFlags s.mxcsr ie de)
    (hie : ie = true ↔ P) (hde : de = true ↔ Q) : FlagsOred s t P Q where
  ie := by rw [mxIE, h, setFlags_getLsbD]; simp [mxIE, hie]
  de := by rw [mxDE, h, setFlags_getLsbD]; simp [mxDE, hde]
  others n hn := by rw [h, setFlags_getLsbD_of_two_le _ _ _ hn]

/-- A form that raises nothing finishes with the detected conditions OR-ed into MXCSR, none of them for `{sae}` (R91, R95). -/
theorem complete_eq_next {s : State} {f : Form} {r : LoopOut}
    (h : f.sae = false → unmaskedCondition s.mxcsr r.ie r.de = false) :
    complete s f r =
      .next (finish (writeMxcsr s (setFlags s.mxcsr (!f.sae && r.ie) (!f.sae && r.de))) f r.new) := by
  rcases complete_cases s f r with ⟨hs, e⟩ | ⟨hs, hu, _⟩ | ⟨hs, _, e⟩
  · simp [e, hs]
  · rw [h hs] at hu; cases hu
  · simp [e, hs]

/-- The destination after the element loop, element by element (R90, R97 step 7). -/
theorem elem_dest_finish (s : State) (mx : BitVec 32) (f : Form) (v : ZWord) {j : Nat} (h : j < 8) :
    elem (readZmm (finish (writeMxcsr s mx) f (elementLoop s f v).new) f.dest) j = newElem s f v j := by
  rw [finish, readZmm_advancePc, readZmm_writeZmm_self, elem_elementLoop s f v j h]

/-- The state that finishing leaves is the result of R90 and R91, for element results that are the loop's on the active
elements. -/
theorem rangeResult_finish {s : State} {f : Form} {v : ZWord} {out : Nat → RangeOut}
    (hout : ∀ j, j < elems f.vl → maskBit s f.wm j = true → rangeElem s f v j = out j) :
    RangeResult s
      (finish (writeMxcsr s (setFlags s.mxcsr (!f.sae && (elementLoop s f v).ie) (!f.sae && (elementLoop s f v).de)))
        f (elementLoop s f v).new)
      f.vl f.sae f.dest f.wm f.len out := by
  have h8 := elems_le f.vl
  have hflag : ∀ c d : Nat → Bool, (∀ j, j < elems f.vl → maskBit s f.wm j = true → c j = d j) →
      ((!f.sae && someActive s f c) = true ↔ f.sae = false ∧ detected s f.vl f.wm d) := by
    intro c d hcd
    rw [Bool.and_eq_true, Bool.not_eq_true', someActive_iff, detected_congr hcd]
  constructor
  case active =>
    intro j hj hm
    rw [elem_dest_finish _ _ _ _ (by omega), newElem, if_pos hj, if_pos hm, hout j hj hm]
  case merged =>
    intro j hj hm hz
    simp [elem_dest_finish _ _ _ _ (show j < 8 by omega), newElem, hj, hm, hz]
  case zeroed =>
    intro j hj hm hz
    simp [elem_dest_finish _ _ _ _ (show j < 8 by omega), newElem, hj, hm, hz]
  case above =>
    intro j hj hj8
    rw [elem_dest_finish _ _ _ _ hj8, newElem, if_neg (by omega)]
  case otherRegs =>
    intro r hr
    simp [finish, readZmm_writeZmm_ne _ _ _ _ hr]
  case flags =>
    exact flagsOred_of_setFlags rfl
      (hflag _ _ fun j hj hm => congrArg RangeOut.ie (hout j hj hm))
      (hflag _ _ fun j hj hm => congrArg RangeOut.de (hout j hj hm))
  case pc => simp [finish]
  case same => exact sameElsewhere_finish _ _ _ _

/-- A form that may execute completes once operand 3 is read, when no unmasked condition is detected (R92 to R96): with the
element results of any `w` that is operand 3 on the active elements. -/
theorem completesWith_of_readSrc2 {i : Instr} {s : State} {v : ZWord} {w : Nat → Word}
    (hmay : mayExecute s (formOf i).vl (formOf i).wm (formOf i).imm) (hread : readSrc2 s (formOf i) = .ok v)
    (hw : ∀ j, j < elems (formOf i).vl → maskBit s (formOf i).wm j = true → src2Elem (formOf i) v j = w j)
    (hun : (formOf i).sae = false →
      ¬ unmaskedDetected s (formOf i).vl (formOf i).wm (rangeOf s (formOf i).src1 (formOf i).imm w)) :
    completesWith i s (formOf i).vl (formOf i).sae (formOf i).dest (formOf i).wm
      (rangeOf s (formOf i).src1 (formOf i).imm w) := by
  have hout : ∀ j, j < elems (formOf i).vl → maskBit s (formOf i).wm j = true →
      rangeElem s (formOf i) v j = rangeOf s (formOf i).src1 (formOf i).imm w j := by
    intro j hj hm
    rw [rangeElem_eq_rangeOf, rangeOf, rangeOf, hw j hj hm]
  have hnot : (formOf i).sae = false → unmaskedCondition s.mxcsr (elementLoop s (formOf i) v).ie
      (elementLoop s (formOf i) v).de = false := by
    intro hsae
    rw [← Bool.not_eq_true, unmaskedCondition_iff, unmaskedDetected_congr hout]
    exact hun hsae
  refine ⟨_, ?_, formOf_len i ▸ rangeResult_finish hout⟩
  rw [exec_eq_vrangepd, vrangepd_of_mayExecute hmay, hread]
  exact complete_eq_next hnot

/-- A full-width memory form under fault suppression, whichever row it is (R35). -/
theorem completesWith_of_active_readable {i : Instr} {s : State} {r : MemRef}
    (hfs : s.params.faultSuppression = true) (hop : (formOf i).op3 = .full r)
    (hmay : mayExecute s (formOf i).vl (formOf i).wm (formOf i).imm)
    (hread : ∀ j, j < elems (formOf i).vl → maskBit s (formOf i).wm j = true →
      operandReadable s (formOf i).pre r
        (linearAddress s (formOf i).pre i.length r + BitVec.ofNat 64 (8 * j)) 8)
    (hun : ¬ unmaskedDetected s (formOf i).vl (formOf i).wm (rangeOf s (formOf i).src1 (formOf i).imm fun j =>
      wordAt s.mem (linearAddress s (formOf i).pre i.length r + BitVec.ofNat 64 (8 * j)))) :
    completesWith i s (formOf i).vl (formOf i).sae (formOf i).dest (formOf i).wm
      (rangeOf s (formOf i).src1 (formOf i).imm fun j =>
        wordAt s.mem (linearAddress s (formOf i).pre i.length r + BitVec.ofNat 64 (8 * j))) := by
  rw [← formOf_len] at hread hun ⊢
  have hok : readSrc2 s (formOf i) =
      .ok (activeValue s (formOf i) r (linearAddress s (formOf i).pre (formOf i).len r)) := by
    simp only [readSrc2, hop, readFull_of_active_readable hfs hread]
  refine completesWith_of_readSrc2 hmay hok (fun j hj hm => ?_) fun _ => hun
  simp only [src2Elem, hop]
  exact elem_activeValue s _ r _ j hj hm

/-- A broadcast form, whichever row it is (R34, R35). -/
theorem completesWith_of_bcst {i : Instr} {s : State} {r : MemRef} (hop : (formOf i).op3 = .bcst r)
    (hmay : mayExecute s (formOf i).vl (formOf i).wm (formOf i).imm)
    (hread : operandReadable s (formOf i).pre r (linearAddress s (formOf i).pre i.length r) 8 ∨
      (s.params.faultSuppression = true ∧
        ∀ j, j < elems (formOf i).vl → maskBit s (formOf i).wm j = false))
    (halign : alignmentCheckingOn s = true → (linearAddress s (formOf i).pre i.length r).toNat % 8 = 0)
    (hun : ¬ unmaskedDetected s (formOf i).vl (formOf i).wm (rangeOf s (formOf i).src1 (formOf i).imm fun _ =>
      wordAt s.mem (linearAddress s (formOf i).pre i.length r))) :
    completesWith i s (formOf i).vl (formOf i).sae (formOf i).dest (formOf i).wm
      (rangeOf s (formOf i).src1 (formOf i).imm fun _ =>
        wordAt s.mem (linearAddress s (formOf i).pre i.length r)) := by
  rw [← formOf_len] at hread halign hun ⊢
  have hno : (∀ j, j < elems (formOf i).vl → maskBit s (formOf i).wm j = false) → anyActive s (formOf i) = false := by
    intro h
    rw [← Bool.not_eq_true, anyActive_iff]
    rintro ⟨j, hj, hm⟩
    rw [h j hj] at hm
    cases hm
  obtain ⟨v, hv, helem⟩ := readBcst_of_aligned halign (hread.imp_right fun ⟨hfs, h⟩ => ⟨hfs, hno h⟩)
  refine completesWith_of_readSrc2 (v := v) hmay (by simp only [readSrc2, hop, hv]) (fun j hj hm => ?_) fun _ => hun
  simp only [src2Elem, hop]
  exact helem ((anyActive_iff s _).mpr ⟨j, hj, hm⟩)

/-- Settles O38: nine rows of one shape. -/
theorem suppressedFullMemoryFormsComplete : Obligations.SuppressedFullMemoryFormsComplete := by
  intro p d a m imm s hfs
  refine ⟨fun ad => ⟨?_, ?_, ?_⟩, fun ad => ⟨?_, ?_, ?_⟩, fun ad => ⟨?_, ?_, ?_⟩⟩
  all_goals exact fun hmay hread hun => completesWith_of_active_readable hfs rfl hmay hread hun

/-- Settles O39: nine rows of one shape. -/
theorem broadcastFormsComplete : Obligations.BroadcastFormsComplete := by
  intro p d a m imm s
  refine ⟨fun ad => ⟨?_, ?_, ?_⟩, fun ad => ⟨?_, ?_, ?_⟩, fun ad => ⟨?_, ?_, ?_⟩⟩
  all_goals exact fun hmay hread halign hun => completesWith_of_bcst rfl hmay hread halign hun

/-! ## Denied operand reads -/

/-- The fault of operand 3 is raised before the element loop, with the state as it was (R97, R118). -/
theorem exec_of_readSrc2_error {i : Instr} {s : State} {x : Exn}
    (hmay : mayExecute s (formOf i).vl (formOf i).wm (formOf i).imm) (h : readSrc2 s (formOf i) = .error x) :
    exec i s = raise x s := by
  rw [exec_eq_vrangepd, vrangepd_of_mayExecute hmay, h]

/-- `#SS(0)` and `#GP(0)` come from a non-canonical rule only (R115). -/
theorem nonCanonicalAnswer_of_accessAnswer {s : State} {q : AccessQuery} {x : Exn} (h : accessAnswer s q = some x)
    (hx : x = .ss0 ∨ x = .gp0) : nonCanonicalAnswer s.params.access q = some x := by
  rcases accessAnswer_cases s q with ⟨_, e⟩ | ⟨hn, e⟩ | ⟨_, p, r, k, pk, a, e⟩ <;> rw [h] at e <;> cases e
  · exact hn
  · rcases hx with hx | hx <;> cases hx

/-- All queries of one instruction are about one segment, so that their non-canonical faults are one (R115). -/
theorem nonCanonicalExn_elemQuery (s : State) (f : Form) (r : MemRef) (a : Word) (j k : Nat) :
    nonCanonicalExn (elemQuery s f r a j) = nonCanonicalExn (elemQuery s f r a k) := rfl

/-- Under fault suppression a denied active element makes the read fail with the answer for some active element, and with
`#SS(0)` or `#GP(0)` if that is the answer for any (R35, R118). -/
theorem readFull_of_active_denied {s : State} {f : Form} {r : MemRef} {a : Word} {j : Nat} {x : Exn}
    (ha : a = linearAddress s f.pre f.len r) (hfs : s.params.faultSuppression = true) (hj : j < elems f.vl)
    (hm : maskBit s f.wm j = true) (h : accessAnswer s (elemQuery s f r a j) = some x) :
    ∃ e y, e < elems f.vl ∧ maskBit s f.wm e = true ∧ accessAnswer s (elemQuery s f r a e) = some y ∧
      readFull s f r = .error y ∧ (x = .ss0 ∨ x = .gp0 → y = x) := by
  have hmem : elemQuery s f r a j ∈ activeQueries s f r a := (mem_activeQueries _ _ _ _ _).mpr ⟨j, hj, hm, rfl⟩
  rcases ha ▸ readFull_suppressed_cases s f r hfs with ⟨hall, _⟩ | ⟨q, hq, y, hy, herr, hfirst⟩
  · rw [hall _ hmem] at h
    cases h
  · obtain ⟨e, he, hme, rfl⟩ := (mem_activeQueries _ _ _ _ _).mp hq
    refine ⟨e, y, he, hme, hy, herr, fun hx => ?_⟩
    have hnx := nonCanonicalAnswer_of_accessAnswer h hx
    have hny := hfirst ⟨_, hmem, x, hnx⟩
    calc y = nonCanonicalExn (elemQuery s f r a e) := nonCanonicalAnswer_eq hny
      _ = nonCanonicalExn (elemQuery s f r a j) := nonCanonicalExn_elemQuery s f r a e j
      _ = x := (nonCanonicalAnswer_eq hnx).symm

/-- Settles O44: operand 3 is read before anything is written, so that its fault leaves the state. -/
theorem memoryFaultLeavesTheState : Obligations.MemoryFaultLeavesTheState := by
  refine ⟨fun i s r n x hmay hop hx => ?one, fun i s r j x => ?suppressed, fun s => ?info⟩
  case one =>
    rw [← formOf_len] at hx
    refine exec_of_readSrc2_error hmay ?_
    rcases hop with ⟨hop, rfl, hfs⟩ | ⟨hop, rfl, hact⟩
    · simp only [readSrc2, hop, readFull_of_denied hfs hx]
    · simp only [readSrc2, hop, readBcst_of_denied (hact.imp_right (anyActive_iff s _).mpr) hx]
  case suppressed =>
    intro answer hmay hfs hop hj hm hx
    obtain ⟨e, y, he, hme, hy, herr, hfirst⟩ := readFull_of_active_denied (by rw [formOf_len]) hfs hj hm hx
    exact ⟨e, y, he, hme, hy, exec_of_readSrc2_error hmay (by simp only [readSrc2, hop, herr]), hfirst⟩
  case info => exact ⟨rfl, rfl, rfl, rfl, fun c a => ⟨rfl, rfl⟩⟩

/-! ## Denied fetches -/

/-- A fetch window shorter than asked for ends before a byte outside memory. -/
theorem read_fetchWindow_end {m : Memory} {n : Nat} {a : Word} (h : (fetchWindow m n a).length < n) :
    Memory.read m (a + BitVec.ofNat 64 (fetchWindow m n a).length).toNat = none := by
  induction n generalizing a with
  | zero => cases h
  | succ n ih =>
    cases hr : Memory.read m a.toNat with
    | none => simp [fetchWindow, hr]
    | some v =>
      have hw : fetchWindow m (n + 1) a = v :: fetchWindow m n (a + 1#64) := by simp [fetchWindow, hr]
      rw [hw, List.length_cons] at h ⊢
      rw [BitVec.ofNat_add, BitVec.add_comm (BitVec.ofNat 64 _), ← BitVec.add_assoc]
      exact ih (by omega)

/-- How many bytes of a window the fetch asks for, by what the decoder answers (R40, log 19). -/
def fetchLength (w : List Byte) : Decoded → Nat
  | .ok i _ => i.length
  | .invalid _ _ rest => w.length - rest.length
  | .notVrangepd seen => seen
  | .repeatedPrefix seen => seen
  | .truncated need => need

/-- A fetch whose bytes `Access` denies fails, whatever the decoder makes of them (R40). -/
theorem fetch_of_denied {s : State} {x : Exn}
    (h : accessAnswer s (fetchQuery s (fetchLength (fetchWindow s.mem 15 s.pc)
      (decode (fetchWindow s.mem 15 s.pc)))) = some x) : fetch s = .error x := by
  unfold fetch
  simp only [Config.maxInstrBytes]
  cases hd : decode (fetchWindow s.mem 15 s.pc) <;> rw [hd] at h <;> simp only [fetchLength] at h
  case truncated need => simp [fetchTruncated, h]
  all_goals simp [fetched, h]

/-- Bytes that end inside the instruction end outside memory, so that `Access` denies their fetch (R40, R141 row 8). -/
theorem exists_denial_of_truncated {s : State} {need : Nat}
    (h : decode (fetchWindow s.mem 15 s.pc) = .truncated need) :
    ∃ x, accessAnswer s (fetchQuery s need) = some x := by
  obtain ⟨hshort, hmax⟩ := decode_truncated h
  have hend := read_fetchWindow_end (m := s.mem) (n := 15) (a := s.pc) (by omega)
  refine Option.ne_none_iff_exists'.mp fun hok => ?_
  have hmem : s.pc + BitVec.ofNat 64 (fetchWindow s.mem 15 s.pc).length ∈ (fetchQuery s need).addrs :=
    List.mem_map.mpr ⟨_, List.mem_range.mpr hshort, rfl⟩
  have hsome := isSome_of_accessAnswer hok _ hmem
  rw [hend] at hsome
  cases hsome

/-- A fetch that fails is the whole step (R118 step 1). -/
theorem step_of_fetch_error {s : State} {x : Exn} (hmode : s.mode = .bits64) (hrun : runDone s = false)
    (h : fetch s = .error x) : step s = raise x s := by
  simp [step, hmode, hrun, h]

/-- Settles O48: every fetch asks `Access` for `fetchLength` bytes before its instruction is executed. -/
theorem fetchFaultComesFirst : Obligations.FetchFaultComesFirst := by
  rintro s w hmode hrun rfl
  have hdenied : ∀ n x, n = fetchLength (fetchWindow s.mem 15 s.pc) (decode (fetchWindow s.mem 15 s.pc)) →
      accessAnswer s (fetchQuery s n) = some x → step s = raise x s := by
    rintro n x rfl hx
    exact step_of_fetch_error hmode hrun (fetch_of_denied hx)
  refine ⟨fun n x hdec hx => ⟨hdenied n x ?_ hx, raise_eq_fault x s⟩, fun need hdec => ?_⟩
  · rcases hdec with ⟨i, rest, h, rfl⟩ | ⟨why, imm, rest, h, rfl⟩ | h | h | h <;> rw [h] <;> rfl
  · obtain ⟨x, hx⟩ := exists_denial_of_truncated hdec
    exact ⟨x, hx, hdenied need x (by rw [hdec]; rfl) hx⟩

/-! ## Runs -/

/-- One step keeps memory, and a flag that is set stays set (R37, R14). -/
theorem step_mem_and_sticky {s t : State} (h : step s = .next t) :
    t.mem = s.mem ∧ ∀ n, s.mxcsr.getLsbD n = true → t.mxcsr.getLsbD n = true := by
  rcases stepFrame s t h with ⟨_, rfl⟩ | ⟨_, i, _, hsame, _, _, _, hsticky⟩
  · exact ⟨rfl, fun _ hn => hn⟩
  · exact ⟨hsame.mem, hsticky⟩

/-- A run of `n + 1` steps is one step and a run of `n`. -/
theorem run_succ_next {n : Nat} {s t : State} (h : Host.Core.run Sys2Proof.core (n + 1) s = .next t) :
    ∃ u, step s = .next u ∧ Host.Core.run Sys2Proof.core n u = .next t := by
  simp only [Host.Core.run] at h
  split at h
  · exact ⟨_, ‹_›, h⟩
  · cases h
  · cases h

/-- A run keeps memory, and a flag that is set stays set. -/
theorem run_mem_and_sticky {n : Nat} {s t : State} (h : Host.Core.run Sys2Proof.core n s = .next t) :
    t.mem = s.mem ∧ ∀ k, s.mxcsr.getLsbD k = true → t.mxcsr.getLsbD k = true := by
  induction n generalizing s with
  | zero => cases h; exact ⟨rfl, fun _ hk => hk⟩
  | succ n ih =>
    obtain ⟨u, hstep, hrun⟩ := run_succ_next h
    obtain ⟨hmem, hsticky⟩ := step_mem_and_sticky hstep
    obtain ⟨hmem', hsticky'⟩ := ih hrun
    exact ⟨hmem'.trans hmem, fun k hk => hsticky' k (hsticky k hk)⟩

/-- Settles O55, by induction on the number of steps (`run_mem_and_sticky`); IE and DE are bits 0 and 1. -/
theorem runsKeepMemoryAndStickyFlags : Obligations.RunsKeepMemoryAndStickyFlags := by
  intro n s t h
  obtain ⟨hmem, hsticky⟩ := run_mem_and_sticky h
  exact ⟨hmem, fun a => by rw [hmem], hsticky 0, hsticky 1⟩

end Sys2Proof.Machine

/-! The statements on the encoding (30_encoding.md): decoder and encoder are inverse, lengths, the opcode table's rows, the
reserved settings, the legacy prefixes, and the addresses and immediates that an encoding stands for. -/

namespace Sys2Proof.Machine

/-! ## Every instruction as one call of the encoder's and the decoder's table -/

/-- An instruction is what the encoder writes, and what the decoder's table selects, for its form's operands, `L'L`, `EVEX.b`
and operand 3 as ModRM names it (R56, R73). -/
structure EncodedBy (i : Instr) (ll : BitVec 2) (bc : Bool) (rm : RM) : Prop where
  encode_eq : encode i =
    encodeWith ll bc (formOf i).pre (formOf i).dest (formOf i).src1 rm (formOf i).wm (formOf i).imm
  instrOf_eq : instrOf ll bc rm (formOf i).pre (formOf i).dest (formOf i).src1 (formOf i).wm (formOf i).imm = some i

/-- Every row of the opcode table is a choice of `L'L`, `EVEX.b` and the kind of operand 3 (R73). -/
theorem exists_encodedBy (i : Instr) : ∃ ll bc rm, EncodedBy i ll bc rm := by
  cases i <;> exact ⟨_, _, _, rfl, rfl⟩

section

variable {i : Instr} {ll : BitVec 2} {bc : Bool} {rm : RM}

/-- A well-formed instruction has a well-formed operand 3 and a valid writemask (R60, R66, R71). -/
theorem EncodedBy.wellFormed (h : EncodedBy i ll bc rm) (hi : i.wellFormed = true) :
    rm.wellFormed = true ∧ (formOf i).wm.wellFormed = true := by
  rw [(instrOf_inv h.instrOf_eq).1, Bool.and_eq_true] at hi
  exact hi

/-- The length of an instruction counts its legacy prefixes, the seven fixed bytes, and SIB and displacement (R69). -/
theorem EncodedBy.length_eq (h : EncodedBy i ll bc rm) :
    i.length = (formOf i).pre.count + 7 + rm.tail.length :=
  (instrOf_inv h.instrOf_eq).2

/-- The bytes from the EVEX byte on: what the encoder writes after the legacy prefixes (R50). -/
def evexBytes (i : Instr) (ll : BitVec 2) (bc : Bool) (rm : RM) : List Byte :=
  let f := encodeFields ll bc (formOf i).dest (formOf i).src1 rm (formOf i).wm
  0x62#8 :: p0Byte f :: p1Byte f :: p2Byte f :: 0x50#8 :: modrmByte (formOf i).dest rm :: (rm.tail ++ [(formOf i).imm])

/-- The bytes of an instruction are those of its prefixes and those from the EVEX byte on (R50). -/
theorem EncodedBy.encode_eq_append (h : EncodedBy i ll bc rm) :
    encode i = (formOf i).pre.bytes ++ evexBytes i ll bc rm := h.encode_eq

/-- From the EVEX byte on, the bytes of a well-formed instruction are read back as its fields (R50 to R60). -/
theorem EncodedBy.decodeEvex_eq_classify (h : EncodedBy i ll bc rm) (hi : i.wellFormed = true) (st : PrefixScan) (n : Nat)
    (rest : List Byte) :
    decodeEvex st n (evexBytes i ll bc rm ++ rest) =
      classify st (encodeFields ll bc (formOf i).dest (formOf i).src1 rm (formOf i).wm)
        ((VReg.bits (formOf i).dest).extractLsb' 0 3) rm (formOf i).imm rest :=
  decodeEvex_encodeFields st n ll bc _ _ rm _ _ rest (h.wellFormed hi).1

end

/-! ## The scan over the legacy prefixes (R70) -/

/-- The EVEX byte is none of the legacy prefixes. -/
@[simp] theorem prefixClass_evex : prefixClass 0x62#8 = .other := rfl

/-- The class of `67h` (R70). -/
@[simp] theorem prefixClass_addr32 : prefixClass 0x67#8 = .addr32 := rfl

/-- The scan hands the EVEX byte to the EVEX part. -/
theorem decodeFrom_evex (st : PrefixScan) (n : Nat) (bs : List Byte) :
    decodeFrom st n (0x62#8 :: bs) = decodeEvex st n (0x62#8 :: bs) := by
  simp [decodeFrom]

/-- The scan goes over the bytes that the encoder writes for prefixes that have not been met yet, and records them. -/
theorem decodeFrom_bytes_append (sg : Option SegPrefix) (a il : Bool) (p : Prefixes) (n : Nat) (bs : List Byte)
    (hseg : p.seg.isSome = true → sg = none) (haddr : p.addr32 = true → a = false) :
    decodeFrom ⟨⟨sg, a⟩, il⟩ n (p.bytes ++ bs) =
      decodeFrom ⟨⟨p.seg.or sg, p.addr32 || a⟩, il⟩ (n + p.count) bs := by
  obtain ⟨_ | g, _ | _⟩ := p <;> simp_all [Prefixes.bytes, Prefixes.count, decodeFrom]

/-- An illegal byte of R70, or REX immediately before the EVEX byte, is recorded and the scan goes on (R70, R71, log 16). -/
theorem decodeFrom_illegal (p : Prefixes) (n : Nat) (x : Byte) (bs : List Byte)
    (h : prefixClass x = .illegal ∨ prefixClass x = .rex ∧ bs.head? = some 0x62#8) :
    decodeFrom ⟨p, false⟩ n (x :: bs) = decodeFrom ⟨p, true⟩ (n + 1) bs := by
  rcases h with h | ⟨h, hbs⟩
  · simp [decodeFrom, h]
  · cases bs with
    | nil => cases hbs
    | cons y bs =>
      cases hbs
      simp [decodeFrom, h]

/-! ## Decoding an encoded instruction -/

/-- The bytes from the EVEX byte on, after any legal prefixes, give the row's instruction with those prefixes. -/
theorem EncodedBy.decode_evexBytes {i j : Instr} {ll : BitVec 2} {bc : Bool} {rm : RM} (h : EncodedBy i ll bc rm)
    (hi : i.wellFormed = true) (p : Prefixes) (rest : List Byte)
    (hj : instrOf ll bc rm p (formOf i).dest (formOf i).src1 (formOf i).wm (formOf i).imm = some j) :
    decode (p.bytes ++ (evexBytes i ll bc rm ++ rest)) = .ok j rest := by
  calc decode (p.bytes ++ (evexBytes i ll bc rm ++ rest))
      = decodeEvex ⟨p, false⟩ p.count (evexBytes i ll bc rm ++ rest) := decodeFrom_bytes p 0x62#8 _ prefixClass_evex
    _ = _ := h.decodeEvex_eq_classify hi _ _ rest
    _ = .ok j rest := classify_encodeFields p ll bc _ _ rm _ _ rest j (h.wellFormed hi).2 hj

/-- Settles O1: the prefixes are scanned, the EVEX part is read back as the fields it was written from, and the row that
these select is the instruction itself. -/
theorem decodeInvertsEncode : Obligations.DecodeInvertsEncode := by
  intro i rest hi
  obtain ⟨ll, bc, rm, h⟩ := exists_encodedBy i
  rw [h.encode_eq_append, List.append_assoc]
  exact h.decode_evexBytes hi _ rest h.instrOf_eq

/-- Settles O2. -/
theorem encodedLengthIsInstructionLength : Obligations.EncodedLengthIsInstructionLength := by
  intro i
  obtain ⟨ll, bc, rm, h⟩ := exists_encodedBy i
  rw [h.encode_eq_append, h.length_eq, List.length_append, bytes_length]
  simp only [evexBytes, List.length_cons, List.length_append, List.length_nil]
  omega

/-! ## Other legacy prefixes before an instruction (R70) -/

/-- The row does not depend on the prefixes: with others it is the same form, with its length (R69, R73). -/
theorem instrOf_with_prefixes {ll : BitVec 2} {bc : Bool} {rm : RM} {p : Prefixes} {d a : VReg} {m : Writemask}
    {imm : Byte} {i : Instr} (h : instrOf ll bc rm p d a m imm = some i) (q : Prefixes) :
    ∃ j, instrOf ll bc rm q d a m imm = some j ∧
      formOf j = { formOf i with pre := q, len := lengthWith q rm.tail.length } := by
  rw [tail_length]
  unfold instrOf at h ⊢
  split at h <;> cases h <;> exact ⟨_, rfl, rfl⟩

/-- An instruction without legacy prefixes is its bytes from the EVEX byte on. -/
theorem EncodedBy.encode_eq_evexBytes {i : Instr} {ll : BitVec 2} {bc : Bool} {rm : RM} (h : EncodedBy i ll bc rm)
    (hp : (formOf i).pre = ⟨none, false⟩) : encode i = evexBytes i ll bc rm := by
  rw [h.encode_eq_append, hp]
  rfl

/-- Legal prefixes before an instruction that has none give that instruction with these prefixes. -/
theorem exists_decode_bytes_encode {i : Instr} (hi : i.wellFormed = true) (hp : (formOf i).pre = ⟨none, false⟩)
    (q : Prefixes) (rest : List Byte) :
    ∃ j, formOf j = { formOf i with pre := q, len := (formOf i).len + q.count } ∧
      decode (q.bytes ++ (encode i ++ rest)) = .ok j rest := by
  obtain ⟨ll, bc, rm, h⟩ := exists_encodedBy i
  obtain ⟨j, hj, hform⟩ := instrOf_with_prefixes h.instrOf_eq q
  have hlen : lengthWith q rm.tail.length = (formOf i).len + q.count := by
    have hcount : (⟨none, false⟩ : Prefixes).count = 0 := rfl
    rw [formOf_len, h.length_eq, hp, hcount, lengthWith]
    omega
  rw [h.encode_eq_evexBytes hp]
  exact ⟨j, hlen ▸ hform, h.decode_evexBytes hi q rest hj⟩

/-- The scan does not see the order of a segment override and `67h` (R70). -/
theorem decode_seg_addr32 (g : SegPrefix) (bs : List Byte) :
    decode (g.byte :: 0x67#8 :: bs) = decode (0x67#8 :: g.byte :: bs) := by
  simp [decode, decodeFrom, PrefixScan.start]

/-- Settles O11: the refusals are one or two steps of the scan; the accepted prefixes are those of
`exists_decode_bytes_encode`, in the encoder's order and, by `decode_seg_addr32`, in the other. -/
theorem repeatedPrefixesAreRefused : Obligations.RepeatedPrefixesAreRefused := by
  refine ⟨fun g h bs => ⟨?_, ?_, ?_, ?_, ?_, ?_, decode_seg_addr32 g bs⟩, fun g i rest hi hp => ⟨?both, ?seg, ?addr⟩⟩
  case both =>
    obtain ⟨j, hform, hdec⟩ := exists_decode_bytes_encode hi hp ⟨some g, true⟩ rest
    exact ⟨j, hform, hdec, (decode_seg_addr32 g _).symm.trans hdec⟩
  case seg => exact exists_decode_bytes_encode hi hp ⟨some g, false⟩ rest
  case addr => exact exists_decode_bytes_encode hi hp ⟨none, true⟩ rest
  all_goals simp [decode, decodeFrom, PrefixScan.start]

/-! ## Illegal prefixes (R70, R71) -/

/-- A complete candidate with an illegal byte before it is invalid, whatever its fields (R71). -/
theorem classify_illegal (p : Prefixes) (f : EvexFields) (reg : BitVec 3) (rm : RM) (imm : Byte) (rest : List Byte) :
    classify ⟨p, true⟩ f reg rm imm rest = .invalid .illegalPrefix imm rest := rfl

/-- With an illegal byte already met, the rest of a well-formed instruction is an invalid candidate. -/
theorem decodeFrom_encode_of_illegal {i : Instr} (hi : i.wellFormed = true) (sg : Option SegPrefix) (a : Bool) (n : Nat)
    (hseg : (formOf i).pre.seg.isSome = true → sg = none) (haddr : (formOf i).pre.addr32 = true → a = false) :
    decodeFrom ⟨⟨sg, a⟩, true⟩ n (encode i) = .invalid .illegalPrefix (formOf i).imm [] := by
  obtain ⟨ll, bc, rm, h⟩ := exists_encodedBy i
  rw [h.encode_eq_append, decodeFrom_bytes_append _ _ _ _ _ _ hseg haddr]
  calc decodeFrom _ _ (evexBytes i ll bc rm)
      = decodeEvex _ _ (evexBytes i ll bc rm ++ []) := by rw [List.append_nil]; exact decodeFrom_evex _ _ _
    _ = _ := h.decodeEvex_eq_classify hi _ _ []
    _ = _ := classify_illegal _ _ _ _ _ _

/-- The class of the four illegal bytes of R70. -/
theorem prefixClass_illegal {x : Byte} (h : x = 0xF0#8 ∨ x = 0x66#8 ∨ x = 0xF2#8 ∨ x = 0xF3#8) :
    prefixClass x = .illegal := by
  rcases h with rfl | rfl | rfl | rfl <;> rfl

/-- The class of the sixteen REX bytes (R70). -/
theorem prefixClass_rex : ∀ x : Byte, x.extractLsb' 4 4 = 0x4#4 → prefixClass x = .rex := by
  decide

/-- An instruction without legacy prefixes begins with the EVEX byte (R50). -/
theorem head?_encode {i : Instr} (hp : (formOf i).pre = ⟨none, false⟩) : (encode i).head? = some 0x62#8 := by
  obtain ⟨ll, bc, rm, h⟩ := exists_encodedBy i
  rw [h.encode_eq_evexBytes hp]
  rfl

/-- Settles O10: the scan records the illegal byte (`decodeFrom_illegal`), before or after the others, and the candidate
check then answers for it. -/
theorem illegalPrefixMakesInvalid : Obligations.IllegalPrefixMakesInvalid := by
  intro i x hi illegal rex
  have beside (p : Prefixes) (hp : (formOf i).pre = ⟨none, false⟩) (hx : illegal ∨ rex) :
      decode (p.bytes ++ x :: encode i) = .invalid .illegalPrefix (formOf i).imm [] := by
    have hclass : prefixClass x = .illegal ∨ prefixClass x = .rex ∧ (encode i).head? = some 0x62#8 :=
      hx.imp prefixClass_illegal fun hr => ⟨prefixClass_rex x hr, head?_encode hp⟩
    calc decode (p.bytes ++ x :: encode i)
        = decodeFrom ⟨⟨p.seg.or none, p.addr32 || false⟩, false⟩ (0 + p.count) (x :: encode i) :=
          decodeFrom_bytes_append none false false p 0 _ (fun _ => rfl) (fun _ => rfl)
      _ = _ := decodeFrom_illegal _ _ _ _ hclass
      _ = _ := decodeFrom_encode_of_illegal hi _ _ _ (by simp [hp]) (by simp [hp])
  refine ⟨beside ⟨none, false⟩, beside, fun hx => ?_⟩
  calc decode (x :: encode i) = decodeFrom ⟨⟨none, false⟩, true⟩ 1 (encode i) :=
        decodeFrom_illegal _ 0 x _ (.inl (prefixClass_illegal hx))
    _ = _ := decodeFrom_encode_of_illegal hi _ _ _ (fun _ => rfl) (fun _ => rfl)

/-! ## What the decoder has read when it answers an instruction -/

/-- The form of a row has the prefixes it was selected with (R73). -/
theorem formOf_pre_of_instrOf {ll : BitVec 2} {bc : Bool} {rm : RM} {p : Prefixes} {d a : VReg} {m : Writemask}
    {imm : Byte} {i : Instr} (h : instrOf ll bc rm p d a m imm = some i) : (formOf i).pre = p := by
  unfold instrOf at h
  split at h <;> cases h <;> rfl

/-- The prefixes of a complete candidate are those of the scan. -/
theorem formOf_pre_of_classify {st : PrefixScan} {f : EvexFields} {reg : BitVec 3} {rm : RM} {imm : Byte}
    {rest rest' : List Byte} {i : Instr} (h : classify st f reg rm imm rest = .ok i rest') :
    (formOf i).pre = st.pre := by
  unfold classify at h
  repeat' split at h
  all_goals cases h
  exact formOf_pre_of_instrOf ‹_›

/-- Operand 3, once read, has taken the bytes that ModRM and the SIB byte determine (R69). -/
theorem tailLength_of_decodeRM {x b : Bool} {mod : BitVec 2} {rmf : BitVec 3} {bs r : List Byte} {rm : RM}
    (h : decodeRM x b mod rmf bs = some (rm, r)) :
    tailLength mod rmf bs = some rm.tail.length ∧ rm.tail.length ≤ bs.length ∧ bs.drop rm.tail.length = r := by
  obtain ⟨_, pre, rfl, hlen⟩ := decodeRM_inv h
  rcases tailLength_cases x b mod rmf (pre ++ r) with ⟨_, _, hno⟩ | ⟨e, he, _, ⟨_, hno⟩ | ⟨hle, rm', hsome⟩⟩
  · rw [hno] at h; cases h
  · rw [hno] at h; cases h
  · have hdrop : (pre ++ r).drop e = r := congrArg Prod.snd (Option.some.inj (hsome.symm.trans h))
    have hcount := congrArg List.length hdrop
    rw [List.length_drop, List.length_append] at hcount
    rw [List.length_append] at hle
    have hee : e = rm.tail.length := by omega
    exact ⟨hee ▸ he, by rw [List.length_append]; omega, hee ▸ hdrop⟩

/-- An instruction read from ModRM on: well-formed, with the prefixes of the scan, and of the length that ModRM and the SIB
byte determine (R69). -/
theorem decodeModRM_ok {st : PrefixScan} {n : Nat} {f : EvexFields} {modrm : Byte} {bs rest : List Byte} {i : Instr}
    (h : decodeModRM st n f modrm bs = .ok i rest) :
    st.illegal = false ∧ i.wellFormed = true ∧ (formOf i).pre = st.pre ∧
      ∃ e, tailLength (modrm.extractLsb' 6 2) (modrm.extractLsb' 0 3) bs = some e ∧
        i.length = st.pre.count + 7 + e ∧ bs.length = e + 1 + rest.length ∧ bs.drop (e + 1) = rest := by
  unfold decodeModRM at h
  split at h
  · cases h
  · rename_i rm bs' hrm
    split at h
    · cases h
    · rename_i imm r
      obtain ⟨hwf, _⟩ := decodeRM_inv hrm
      obtain ⟨htail, hle, hdrop⟩ := tailLength_of_decodeRM hrm
      obtain ⟨hill, rfl, hi, hilen⟩ := classify_inv hwf h
      refine ⟨hill, hi, formOf_pre_of_classify h, rm.tail.length, htail, hilen, ?_, ?_⟩
      · have hcount := congrArg List.length hdrop
        rw [List.length_drop, List.length_cons] at hcount
        omega
      · rw [← List.drop_drop, hdrop, List.drop_one, List.tail_cons]

/-- A candidate that is an instruction has the six bytes to ModRM that R50 names, and ModRM decides the rest. -/
theorem decodeEvex_ok {st : PrefixScan} {n : Nat} {bs rest : List Byte} {i : Instr}
    (h : decodeEvex st n bs = .ok i rest) :
    ∃ p0 p1 p2 modrm tail, bs = 0x62#8 :: p0 :: p1 :: p2 :: 0x50#8 :: modrm :: tail ∧ p0Ok p0 = true ∧ p1Ok p1 = true ∧
      decodeModRM st n (fieldsOf p0 p1 p2) modrm tail = .ok i rest := by
  unfold decodeEvex at h
  repeat' split at h
  all_goals try cases h
  rename_i _ e he _ p0 hp0 _ p1 hp1 _ p2 op hop _ modrm tail
  simp only [ne_eq, Decidable.not_not, Bool.not_eq_true, Bool.not_eq_false'] at he hp0 hp1 hop
  exact ⟨p0, p1, p2, modrm, tail, by rw [he, hop], hp0, hp1, h⟩

/-- After an illegal byte nothing is an instruction any more (R70, R71). -/
theorem decodeFrom_illegal_ne_ok {bs rest : List Byte} {i : Instr} (p : Prefixes) (n : Nat) :
    decodeFrom ⟨p, true⟩ n bs ≠ .ok i rest := by
  induction bs generalizing p n with
  | nil => exact fun h => by cases h
  | cons x bs ih =>
    intro h
    unfold decodeFrom at h
    repeat' split at h
    all_goals try cases h
    · exact ih _ _ h
    · exact ih _ _ h
    · contradiction
    · contradiction
    · obtain ⟨_, _, _, _, _, _, _, _, hm⟩ := decodeEvex_ok h
      cases (decodeModRM_ok hm).1

/-- One step of the scan on the way to an instruction: the byte is one of the legal legacy prefixes, recorded whatever
follows, or the candidate begins here (R70). -/
theorem decodeFrom_cons_ok {st : PrefixScan} {n : Nat} {x : Byte} {bs rest : List Byte} {i : Instr}
    (h : decodeFrom st n (x :: bs) = .ok i rest) :
    (∃ st', (∀ bs', decodeFrom st n (x :: bs') = decodeFrom st' (n + 1) bs') ∧ st'.pre.count = st.pre.count + 1) ∨
      (∀ bs', decodeFrom st n (x :: bs') = decodeEvex st n (x :: bs')) := by
  obtain ⟨⟨sg, a⟩, il⟩ := st
  cases hx : prefixClass x with
  | addr32 =>
    cases a with
    | true => simp [decodeFrom, hx] at h
    | false => exact .inl ⟨⟨⟨sg, true⟩, il⟩, fun bs' => by simp [decodeFrom, hx], rfl⟩
  | seg g =>
    cases sg with
    | some g' => simp [decodeFrom, hx] at h
    | none => exact .inl ⟨⟨⟨some g, a⟩, il⟩, fun bs' => by simp [decodeFrom, hx], by simp [Prefixes.count]; omega⟩
  | illegal =>
    cases il with
    | true => simp [decodeFrom, hx] at h
    | false =>
      rw [decodeFrom_illegal _ _ _ _ (.inl hx)] at h
      exact absurd h (decodeFrom_illegal_ne_ok _ _)
  | rex =>
    unfold decodeFrom at h
    rw [hx] at h
    simp only at h
    repeat' split at h
    all_goals try cases h
    exact absurd h (decodeFrom_illegal_ne_ok _ _)
  | other => exact .inr fun bs' => by simp [decodeFrom, hx]

/-- What the scan and the candidate have taken when they answer an instruction: with the prefixes met before, all the bytes
that R69 counts. -/
theorem decodeFrom_ok {st : PrefixScan} {n : Nat} {bs rest : List Byte} {i : Instr}
    (h : decodeFrom st n bs = .ok i rest) :
    i.wellFormed = true ∧ st.pre.count ≤ (formOf i).pre.count ∧
      ∃ k, i.length = st.pre.count + k ∧ bs.length = k + rest.length ∧ bs.drop k = rest := by
  induction bs generalizing st n with
  | nil => cases h
  | cons x bs ih =>
    rcases decodeFrom_cons_ok h with ⟨st', hstep, hcount⟩ | hevex
    · rw [hstep] at h
      obtain ⟨hi, hpre, k, hlen, hbs, hdrop⟩ := ih h
      exact ⟨hi, by omega, k + 1, by omega, by rw [List.length_cons]; omega, by simpa using hdrop⟩
    · rw [hevex] at h
      obtain ⟨p0, p1, p2, modrm, tail, hbytes, _, _, hm⟩ := decodeEvex_ok h
      obtain ⟨_, hi, hpre, e, _, hlen, htail, hdrop⟩ := decodeModRM_ok hm
      refine ⟨hi, by rw [hpre], 7 + e, by omega, ?_, ?_⟩
      · rw [hbytes]
        simp only [List.length_cons]
        omega
      · rw [hbytes, show 7 + e = e + 1 + 6 by omega]
        simpa using hdrop

/-- Settles O3. -/
theorem decodedInstructionIsWellFormed : Obligations.DecodedInstructionIsWellFormed :=
  fun _ _ _ h => (decodeFrom_ok h).1

/-! ## What the decoder asks for when it has too few bytes (R40, R69) -/

/-- More bytes after the SIB byte do not change the length that ModRM and the SIB byte determine (R69). -/
theorem tailLength_append {mod : BitVec 2} {rmf : BitVec 3} {bs : List Byte} {e : Nat} (ext : List Byte)
    (h : tailLength mod rmf bs = some e) : tailLength mod rmf (bs ++ ext) = some e := by
  cases bs with
  | nil =>
    unfold tailLength at h ⊢
    split_ifs at h ⊢ <;> exact h
  | cons sib bs => exact h

/-- The two fields of ModRM with which the SIB byte decides the length (R69). -/
theorem modrm_and_eq_iff : ∀ modrm : Byte,
    modrm &&& 0xC7#8 = 0x04#8 ↔ modrm.extractLsb' 6 2 = 0b00#2 ∧ modrm.extractLsb' 0 3 = 0b100#3 := by
  decide

/-- The demand for an instruction of `len` bytes whose ModRM byte has index `m`: never more than `len`, and exactly that with
the byte after ModRM, or with a ModRM byte that announces no SIB byte under `mod = 00b` (R40, R69). -/
structure Demand (len m : Nat) (bs : List Byte) (need : Nat) : Prop where
  le : need ≤ len
  afterModRM : m + 2 ≤ bs.length → need = len
  atModRM : ∀ modrm, bs[m]? = some modrm → modrm &&& 0xC7#8 ≠ 0x04#8 → need = len

/-- A byte more in front moves the index of ModRM. -/
theorem Demand.cons {len m need : Nat} {bs : List Byte} (h : Demand len m bs need) (x : Byte) :
    Demand len (m + 1) (x :: bs) need where
  le := h.le
  afterModRM hlen := h.afterModRM (by rw [List.length_cons] at hlen; omega)
  atModRM modrm hm := h.atModRM modrm (by simpa using hm)

/-- Before ModRM any demand within the length will do. -/
theorem Demand.of_short {len m need : Nat} {bs : List Byte} (hle : need ≤ len) (hshort : bs.length ≤ m) :
    Demand len m bs need where
  le := hle
  afterModRM hlen := by omega
  atModRM modrm hm := by rw [List.getElem?_eq_none hshort] at hm; cases hm

/-- The bytes that the decoder asks for from ModRM on, and where they are the whole instruction. -/
theorem neededBytes_demand {n e : Nat} {modrm : Byte} {bs ext : List Byte}
    (h : tailLength (modrm.extractLsb' 6 2) (modrm.extractLsb' 0 3) (bs ++ ext) = some e) :
    Demand (n + 7 + e) 0 (modrm :: bs) (neededBytes n (modrm.extractLsb' 6 2) (modrm.extractLsb' 0 3) bs) := by
  unfold neededBytes
  cases ht : tailLength (modrm.extractLsb' 6 2) (modrm.extractLsb' 0 3) bs with
  | some e' =>
    rw [tailLength_append ext ht] at h
    cases h
    exact ⟨le_rfl, fun _ => rfl, fun _ _ _ => rfl⟩
  | none =>
    obtain ⟨hmod, hrm, rfl⟩ := tailLength_none ht
    refine ⟨by simp, fun hlen => by simp at hlen, fun modrm' hm hne => ?_⟩
    cases hm
    exact absurd ((modrm_and_eq_iff modrm).mpr ⟨hmod, hrm⟩) hne

/-- Too few bytes from ModRM on are truncated. -/
theorem decodeModRM_of_short {st : PrefixScan} {n e : Nat} {f : EvexFields} {modrm : Byte} {bs ext : List Byte}
    (h : tailLength (modrm.extractLsb' 6 2) (modrm.extractLsb' 0 3) (bs ++ ext) = some e) (hshort : bs.length ≤ e) :
    decodeModRM st n f modrm bs =
      .truncated (neededBytes n (modrm.extractLsb' 6 2) (modrm.extractLsb' 0 3) bs) := by
  unfold decodeModRM
  rcases tailLength_cases f.x f.b (modrm.extractLsb' 6 2) (modrm.extractLsb' 0 3) bs with
    ⟨_, _, hno⟩ | ⟨e', he', _, ⟨_, hno⟩ | ⟨hle, rm, hsome⟩⟩
  · rw [hno]
  · rw [hno]
  · rw [tailLength_append ext he'] at h
    cases h
    rw [hsome, List.drop_eq_nil_of_le hshort]

/-- Before ModRM a candidate is truncated and one byte more is asked for (log 19). -/
theorem decodeEvex_take {st : PrefixScan} {n k : Nat} {p0 p1 : Byte} (p2 : Byte) (tail : List Byte)
    (h0 : p0Ok p0 = true) (h1 : p1Ok p1 = true) (hk : k ≤ 5) :
    decodeEvex st n ((0x62#8 :: p0 :: p1 :: p2 :: 0x50#8 :: tail).take k) = .truncated (n + k + 1) := by
  interval_cases k <;> simp [decodeEvex, h0, h1]

/-- Six bytes that pass the candidate test leave the rest to ModRM (R50, R55). -/
theorem decodeEvex_candidate {p0 p1 : Byte} (h0 : p0Ok p0 = true) (h1 : p1Ok p1 = true) (st : PrefixScan) (n : Nat)
    (p2 modrm : Byte) (bs : List Byte) :
    decodeEvex st n (0x62#8 :: p0 :: p1 :: p2 :: 0x50#8 :: modrm :: bs) =
      decodeModRM st n (fieldsOf p0 p1 p2) modrm bs := by
  simp [decodeEvex, h0, h1]

/-- A candidate with too few bytes is truncated, and its demand is that of R69. -/
theorem decodeEvex_of_short {st : PrefixScan} {bs ext rest : List Byte} {i : Instr}
    (h : decodeEvex st st.pre.count (bs ++ ext) = .ok i rest) (hshort : st.pre.count + bs.length < i.length) :
    ∃ need, decodeEvex st st.pre.count bs = .truncated need ∧ Demand i.length 5 bs need := by
  obtain ⟨p0, p1, p2, modrm, tail, hbytes, h0, h1, hm⟩ := decodeEvex_ok h
  obtain ⟨_, _, _, e, htail, hlen, _, _⟩ := decodeModRM_ok hm
  obtain ⟨k, hk⟩ : ∃ k, bs.length = k := ⟨_, rfl⟩
  have htake : bs = (0x62#8 :: p0 :: p1 :: p2 :: 0x50#8 :: modrm :: tail).take k := by
    rw [← hbytes, List.take_left' hk]
  by_cases hk5 : k ≤ 5
  · refine ⟨st.pre.count + k + 1, ?_, Demand.of_short (by omega) (by omega)⟩
    rw [htake]
    exact decodeEvex_take p2 _ h0 h1 hk5
  · obtain ⟨j, rfl⟩ : ∃ j, k = j + 6 := ⟨k - 6, by omega⟩
    simp only [List.take_succ_cons] at htake
    have hsplit : tail = tail.take j ++ ext := by
      rw [htake] at hbytes
      simpa using hbytes.symm
    have hcount : (tail.take j).length = j := by
      rw [htake] at hk
      simpa only [List.length_cons, Nat.add_right_cancel_iff] using hk
    rw [hsplit] at htail
    rw [htake, hlen]
    exact ⟨_, (decodeEvex_candidate h0 h1 st _ p2 modrm _).trans (decodeModRM_of_short htail (by omega)),
      ((((neededBytes_demand htail).cons 0x50#8).cons p2).cons p1).cons p0 |>.cons 0x62#8⟩

/-- The same of the whole decoder: before the candidate the scan asks for one byte more. -/
theorem decodeFrom_of_short {st : PrefixScan} {m : Nat} {bs ext rest : List Byte} {i : Instr}
    (h : decodeFrom st st.pre.count (bs ++ ext) = .ok i rest) (hshort : st.pre.count + bs.length < i.length)
    (hm : st.pre.count + m = (formOf i).pre.count + 5) :
    ∃ need, decodeFrom st st.pre.count bs = .truncated need ∧ Demand i.length m bs need := by
  induction bs generalizing st m with
  | nil => exact ⟨_, rfl, Demand.of_short hshort (Nat.zero_le _)⟩
  | cons x bs ih =>
    rw [List.length_cons] at hshort
    rw [List.cons_append] at h
    rcases decodeFrom_cons_ok h with ⟨st', hstep, hcount⟩ | hevex
    · rw [hstep, ← hcount] at h
      have hpre := (decodeFrom_ok h).2.1
      obtain ⟨m, rfl⟩ : ∃ k, m = k + 1 := ⟨m - 1, by omega⟩
      obtain ⟨need, hneed, hdem⟩ := ih (m := m) h (by omega) (by omega)
      exact ⟨need, by rw [hstep, ← hcount, hneed], hdem.cons x⟩
    · rw [hevex] at h
      obtain ⟨_, _, _, _, _, _, _, _, hmod⟩ := decodeEvex_ok h
      obtain ⟨_, _, hpre, _⟩ := decodeModRM_ok hmod
      obtain rfl : m = 5 := by rw [hpre] at hm; omega
      rw [hevex]
      exact decodeEvex_of_short h (by rw [List.length_cons]; omega)

/-- Settles O4, by induction over the scan: `decodeFrom_ok` for the bytes taken, `decodeFrom_of_short` for the demand. -/
theorem decodeTakesExactlyTheLength : Obligations.DecodeTakesExactlyTheLength := by
  refine ⟨fun bs i rest h => ?_, fun bs ext i rest h hshort => ?_⟩
  · obtain ⟨_, _, k, hlen, hbs, hdrop⟩ := decodeFrom_ok h
    obtain rfl : i.length = k := by rw [hlen]; exact Nat.zero_add k
    exact ⟨hbs, hdrop⟩
  · obtain ⟨need, hneed, hdem⟩ := decodeFrom_of_short (st := .start) h
      (by rw [show PrefixScan.start.pre.count = 0 from rfl]; omega) (Nat.zero_add _)
    exact ⟨need, hneed, (decode_truncated hneed).1, hdem.le, hdem.afterModRM, hdem.atModRM⟩

/-! ## The first byte most significant (R73) -/

/-- A mask over a value with one byte more splits at that byte. -/
theorem mul_add_and_mul_add (a b : Nat) (x y : Byte) :
    (a * 256 + x.toNat) &&& (b * 256 + y.toNat) = (a &&& b) * 256 + (x &&& y).toNat := by
  refine Nat.eq_of_testBit_eq fun k => ?_
  rw [show 256 = 2 ^ 8 from rfl, Nat.mul_comm a, Nat.mul_comm b, Nat.mul_comm (a &&& b), Nat.testBit_and,
    Nat.testBit_two_pow_mul_add _ x.isLt, Nat.testBit_two_pow_mul_add _ y.isLt,
    Nat.testBit_two_pow_mul_add _ (x &&& y).isLt]
  split <;> simp

/-- A mask over two runs of bytes is a mask over their starts and over each byte. -/
theorem foldl_bytes_and (a b : Nat) (xs ys : List Byte) (h : xs.length = ys.length) :
    xs.foldl (fun acc x => acc * 256 + x.toNat) a &&& ys.foldl (fun acc x => acc * 256 + x.toNat) b =
      (List.zipWith (· &&& ·) xs ys).foldl (fun acc x => acc * 256 + x.toNat) (a &&& b) := by
  induction xs generalizing a b ys with
  | nil => cases ys with
    | nil => rfl
    | cons y ys => cases h
  | cons x xs ih => cases ys with
    | nil => cases h
    | cons y ys =>
      simp only [List.foldl_cons, List.zipWith_cons_cons]
      rw [ih _ _ _ (Nat.succ.inj h), mul_add_and_mul_add]

/-- A mask over a number of bytes is a mask over each byte. -/
theorem bigEndian_and {xs ys : List Byte} (h : xs.length = ys.length) :
    bigEndian xs &&& bigEndian ys = bigEndian (List.zipWith (· &&& ·) xs ys) :=
  foldl_bytes_and 0 0 xs ys h

/-- The value after as many bytes fixes the start and the bytes. -/
theorem foldl_bytes_injective (a b : Nat) (xs ys : List Byte) (h : xs.length = ys.length)
    (heq : xs.foldl (fun acc x => acc * 256 + x.toNat) a = ys.foldl (fun acc x => acc * 256 + x.toNat) b) :
    a = b ∧ xs = ys := by
  induction xs generalizing a b ys with
  | nil => cases ys with
    | nil => exact ⟨heq, rfl⟩
    | cons y ys => cases h
  | cons x xs ih => cases ys with
    | nil => cases h
    | cons y ys =>
      obtain ⟨hacc, rfl⟩ := ih _ _ ys (Nat.succ.inj h) heq
      have hx := x.isLt
      have hy := y.isLt
      dsimp only at hacc
      exact ⟨by omega, by rw [BitVec.eq_of_toNat_eq (show x.toNat = y.toNat by omega)]⟩

/-- As many bytes with the same value are the same bytes. -/
theorem bigEndian_inj {xs ys : List Byte} (h : xs.length = ys.length) : bigEndian xs = bigEndian ys ↔ xs = ys :=
  ⟨fun heq => (foldl_bytes_injective 0 0 xs ys h heq).2, congrArg bigEndian⟩

/-! ## The candidate test (R55) -/

/-- From ModRM on a candidate stays one (R72). -/
theorem decodeModRM_ne_notVrangepd (st : PrefixScan) (n k : Nat) (f : EvexFields) (modrm : Byte) (bs : List Byte) :
    decodeModRM st n f modrm bs ≠ .notVrangepd k := by
  intro h
  unfold decodeModRM classify at h
  repeat' split at h
  all_goals cases h

/-- The test of R55, byte by byte. -/
theorem decodeEvex_notVrangepd_iff (st : PrefixScan) (n : Nat) (e p0 p1 p2 op : Byte) (bs : List Byte) :
    (∃ k, decodeEvex st n (e :: p0 :: p1 :: p2 :: op :: bs) = .notVrangepd k) ↔
      ¬ (e = 0x62#8 ∧ p0Ok p0 = true ∧ p1Ok p1 = true ∧ op = 0x50#8) := by
  by_cases he : e = 0x62#8
  · by_cases h0 : p0Ok p0 = true
    · by_cases h1 : p1Ok p1 = true
      · by_cases hop : op = 0x50#8
        · subst he hop
          cases bs with
          | nil => simp [decodeEvex, h0, h1]
          | cons modrm bs => simp [decodeEvex_candidate h0 h1, decodeModRM_ne_notVrangepd, h0, h1]
        · simp [decodeEvex, he, h0, h1, hop]
      · simp [decodeEvex, he, h0, h1]
    · simp [decodeEvex, he, h0]
  · simp [decodeEvex, he]

/-- Settles O7: the mask and match of R55, split into bytes, are the conditions of the byte-by-byte test. -/
theorem candidateTestIsMaskAndMatch : Obligations.CandidateTestIsMaskAndMatch := by
  intro e p0 p1 p2 op rest he
  have hdec : decode (e :: p0 :: p1 :: p2 :: op :: rest) =
      decodeEvex .start 0 (e :: p0 :: p1 :: p2 :: op :: rest) := by simp [decode, decodeFrom, he]
  have hbytes : bigEndian [e, p0, p1, p2, op] &&& 0xFF0F8700FF = 0x6203850050 ↔
      [e &&& 0xFF#8, p0 &&& 0x0F#8, p1 &&& 0x87#8, p2 &&& 0x00#8, op &&& 0xFF#8] =
        [0x62#8, 0x03#8, 0x85#8, 0x00#8, 0x50#8] := by
    rw [show (0xFF0F8700FF : Nat) = bigEndian [0xFF#8, 0x0F#8, 0x87#8, 0x00#8, 0xFF#8] from rfl,
      show (0x6203850050 : Nat) = bigEndian [0x62#8, 0x03#8, 0x85#8, 0x00#8, 0x50#8] from rfl,
      bigEndian_and (by simp), bigEndian_inj (by simp)]
    rfl
  have hall : ∀ x : Byte, x &&& 0xFF#8 = x := fun x => BitVec.and_allOnes (x := x)
  rw [hdec, decodeEvex_notVrangepd_iff, ne_eq, hbytes]
  simp [hall, p0Ok, p1Ok]

/-! ## The rows of the opcode table (R73) -/

/-- The third payload byte holds `L'L` and `EVEX.b` in its bits 6 to 4 (R54). -/
theorem p2Byte_and (f : EvexFields) : p2Byte f &&& 0x70#8 = 0b0#1 ++ f.ll ++ BitVec.ofBool f.bc ++ 0b0000#4 := by
  obtain ⟨rr, r, x, b, vvvv, z, ll, bc, vv, aaa⟩ := f
  revert z ll bc vv aaa
  simp only [p2Byte]
  decide

/-- ModRM holds `mod` in its bits 7 and 6 (R60). -/
theorem modrm_and : ∀ (mod : BitVec 2) (reg rm : BitVec 3), (mod ++ reg ++ rm : Byte) &&& 0xC0#8 = mod ++ 0b000000#6 := by
  decide

/-- Four of the six fixed bytes are the same for every instruction, the others hold `L'L`, `EVEX.b` and `mod`; `m` selects
which of `L'L` and `EVEX.b` a row is about. -/
theorem encodeWith_matches (ll : BitVec 2) (bc : Bool) (p : Prefixes) (d a : VReg) (rm : RM) (wm : Writemask) (imm m : Byte)
    (hm : 0x70#8 &&& m = m) :
    ∃ pre six tail : List Byte, encodeWith ll bc p d a rm wm imm = pre ++ six ++ tail ∧ pre.length ≤ 2 ∧ six.length = 6 ∧
      bigEndian six &&& bigEndian [0xFF#8, 0x0F#8, 0x87#8, m, 0xFF#8, 0xC0#8] =
        bigEndian [0x62#8, 0x03#8, 0x85#8, (0b0#1 ++ ll ++ BitVec.ofBool bc ++ 0b0000#4) &&& m, 0x50#8,
          rm.mod ++ 0b000000#6] := by
  obtain ⟨f, hf⟩ : ∃ f, f = encodeFields ll bc d a rm wm := ⟨_, rfl⟩
  refine ⟨p.bytes, [0x62#8, p0Byte f, p1Byte f, p2Byte f, 0x50#8, modrmByte d rm], rm.tail ++ [imm], ?_, ?_, rfl, ?_⟩
  · simp [encodeWith, hf]
  · rw [bytes_length]
    exact Laws.count_le_two p
  · have h0 : p0Byte f &&& 0x0F#8 = 0x03#8 := by simpa [p0Ok] using p0Ok_p0Byte f
    have h1 : p1Byte f &&& 0x87#8 = 0x85#8 := by simpa [p1Ok] using p1Ok_p1Byte f
    have h2 : p2Byte f &&& m = (0b0#1 ++ ll ++ BitVec.ofBool bc ++ 0b0000#4) &&& m := by
      rw [← hm, ← BitVec.and_assoc, p2Byte_and, hf, hm]
      rfl
    have h3 : modrmByte d rm &&& 0xC0#8 = rm.mod ++ 0b000000#6 := modrm_and _ _ _
    rw [bigEndian_and (by simp)]
    simp only [List.zipWith_cons_cons, List.zipWith_nil_left, h0, h1, h2, h3]
    rfl

/-- An instruction's row, byte by byte; only the `{sae}` row leaves `L'L` free (R56, R73). -/
theorem exists_encodedBy_row (i : Instr) : ∃ ll bc rm, EncodedBy i ll bc rm ∧ ∃ m : Byte, 0x70#8 &&& m = m ∧
    i.row.1 = bigEndian [0xFF#8, 0x0F#8, 0x87#8, m, 0xFF#8, 0xC0#8] ∧
    i.row.2 = bigEndian [0x62#8, 0x03#8, 0x85#8, (0b0#1 ++ ll ++ BitVec.ofBool bc ++ 0b0000#4) &&& m, 0x50#8,
      rm.mod ++ 0b000000#6] := by
  cases i
  case zmmSae =>
    refine ⟨_, _, _, ⟨rfl, rfl⟩, 0x10#8, rfl, rfl, ?_⟩
    simp only [Instr.row, RM.mod]
    decide
  all_goals
    refine ⟨_, _, _, ⟨rfl, rfl⟩, 0x70#8, rfl, rfl, ?_⟩
    simp only [Instr.row, RM.mod]
    decide

/-- Settles O5. -/
theorem encodingMatchesItsOpcodeRow : Obligations.EncodingMatchesItsOpcodeRow := by
  intro i
  obtain ⟨ll, bc, rm, henc, m, hm, hmask, hmatch⟩ := exists_encodedBy_row i
  rw [henc.encode_eq, hmask, hmatch]
  exact encodeWith_matches ll bc _ _ _ rm _ _ m hm

/-- The masks and matches of opcode_table.json, in the table's order. -/
def opcodeRows : List (Nat × Nat) :=
  [(0xFF0F8770FFC0, 0x6203850050C0), (0xFF0F8770FFC0, 0x620385005000), (0xFF0F8770FFC0, 0x620385005040),
   (0xFF0F8770FFC0, 0x620385005080), (0xFF0F8770FFC0, 0x620385105000), (0xFF0F8770FFC0, 0x620385105040),
   (0xFF0F8770FFC0, 0x620385105080), (0xFF0F8770FFC0, 0x6203852050C0), (0xFF0F8770FFC0, 0x620385205000),
   (0xFF0F8770FFC0, 0x620385205040), (0xFF0F8770FFC0, 0x620385205080), (0xFF0F8770FFC0, 0x620385305000),
   (0xFF0F8770FFC0, 0x620385305040), (0xFF0F8770FFC0, 0x620385305080), (0xFF0F8770FFC0, 0x6203854050C0),
   (0xFF0F8770FFC0, 0x620385405000), (0xFF0F8770FFC0, 0x620385405040), (0xFF0F8770FFC0, 0x620385405080),
   (0xFF0F8770FFC0, 0x620385505000), (0xFF0F8770FFC0, 0x620385505040), (0xFF0F8770FFC0, 0x620385505080),
   (0xFF0F8710FFC0, 0x6203851050C0)]

/-- The row of an instruction is the table's row with the number of its constructor. -/
theorem opcodeRows_ctorIdx (i : Instr) : opcodeRows[i.ctorIdx]? = some i.row := by
  cases i <;> rfl

/-- Two rows of the table whose matches agree under both masks are one row. -/
theorem opcodeRows_disjoint : ∀ m < 22, ∀ n < 22, ∀ r ∈ opcodeRows[m]?, ∀ q ∈ opcodeRows[n]?,
    r.2 &&& q.1 = q.2 &&& r.1 → m = n := by
  decide

/-- Settles O6: under both masks a value that matches two rows gives both matches, and no two rows agree there. -/
theorem noWordBelongsToTwoRows : Obligations.NoWordBelongsToTwoRows := by
  intro i j w hi hj
  have hagree : i.row.2 &&& j.row.1 = j.row.2 &&& i.row.1 := by rw [← hi, ← hj, Nat.and_right_comm]
  have hlt (k : Instr) : k.ctorIdx < 22 := (List.getElem?_eq_some_iff.mp (opcodeRows_ctorIdx k)).1
  exact opcodeRows_disjoint _ (hlt i) _ (hlt j) _ (opcodeRows_ctorIdx i) _ (opcodeRows_ctorIdx j) hagree

/-! ## Register operands (R56 to R59) and reserved settings (R71) -/

/-- A candidate without legacy prefixes is decoded from ModRM on. -/
theorem decode_candidate {p0 p1 : Byte} (h0 : p0Ok p0 = true) (h1 : p1Ok p1 = true) (p2 modrm : Byte) (bs : List Byte) :
    decode (0x62#8 :: p0 :: p1 :: p2 :: 0x50#8 :: modrm :: bs) =
      decodeModRM .start 0 (fieldsOf p0 p1 p2) modrm bs :=
  (decodeFrom_evex _ _ _).trans (decodeEvex_candidate h0 h1 _ _ p2 modrm bs)

/-- The value of `hi : mid : low`, with `hi` and `mid` stored inverted (R52, R57, R59). -/
theorem vregOf_not_val : ∀ (hi mid : Bool) (low : BitVec 3),
    (vregOf (!hi) (!mid) low).val = (if hi then 0 else 16) + (if mid then 0 else 8) + low.toNat := by
  decide

/-- The value of `V' : vvvv`, stored inverted (R53, R54, R58). -/
theorem vregOfV_not_val : ∀ (hi : Bool) (vvvv : BitVec 4),
    (vregOfV (!hi) (~~~vvvv)).val = (if hi then 0 else 16) + (15 - vvvv.toNat) := by
  decide

/-- With `mod = 11b` operand 3 is the register `X : B : rm` and imm8 comes next (R59). -/
theorem decodeModRM_reg (st : PrefixScan) (n : Nat) (f : EvexFields) (reg rm : BitVec 3) (imm : Byte) (rest : List Byte) :
    decodeModRM st n f (0b11#2 ++ reg ++ rm) (imm :: rest) = classify st f reg (.reg (vregOf f.x f.b rm)) imm rest := by
  obtain ⟨hmod, hreg, hrm⟩ := modrm_bits 0b11#2 reg rm
  simp only [decodeModRM, hmod, hreg, hrm, decodeRM, if_true]

/-- The register rows by `EVEX.b` and `L'L` (R56). -/
theorem instrOf_reg (ll : BitVec 2) (bc : Bool) (r : VReg) (p : Prefixes) (d a : VReg) (m : Writemask) (imm : Byte) :
    instrOf ll bc (.reg r) p d a m imm =
      if bc then some (.zmmSae p d a r m imm)
      else if ll = 0b00#2 then some (.xmmReg p d a r m imm)
      else if ll = 0b01#2 then some (.ymmReg p d a r m imm)
      else if ll = 0b10#2 then some (.zmmReg p d a r m imm)
      else none := by
  cases bc with
  | true => rfl
  | false =>
    rw [if_neg Bool.false_ne_true]
    unfold instrOf vlenOf
    split_ifs <;> rfl

/-- A candidate with a valid writemask is what its row says, or invalid for a reserved length (R71). -/
theorem classify_of_mask {f : EvexFields} (hz : ¬ (f.z = true ∧ f.aaa = 0#3)) (p : Prefixes) (reg : BitVec 3) (rm : RM)
    (imm : Byte) (rest : List Byte) :
    classify ⟨p, false⟩ f reg rm imm rest =
      (instrOf f.ll f.bc rm p (vregOf f.rr f.r reg) (vregOfV f.vv f.vvvv) ⟨f.aaa.toFin, f.z⟩ imm).elim
        (.invalid .reservedLength imm rest) (fun i => .ok i rest) := by
  have hz' : (f.z && f.aaa == 0#3) = false := by simpa using hz
  rw [classify, if_neg Bool.false_ne_true, hz', if_neg Bool.false_ne_true]
  cases instrOf f.ll f.bc rm p (vregOf f.rr f.r reg) (vregOfV f.vv f.vvvv) ⟨f.aaa.toFin, f.z⟩ imm <;> rfl

/-- A register candidate with a valid writemask: `b = 1` is the `{sae}` form, else `L'L` is the length or reserved (R56). -/
theorem classify_reg {f : EvexFields} (hz : ¬ (f.z = true ∧ f.aaa = 0#3)) (p : Prefixes) (reg : BitVec 3) (r : VReg)
    (imm : Byte) (rest : List Byte) :
    let d := vregOf f.rr f.r reg
    let a := vregOfV f.vv f.vvvv
    let m : Writemask := ⟨f.aaa.toFin, f.z⟩
    classify ⟨p, false⟩ f reg (.reg r) imm rest =
      if f.bc then .ok (.zmmSae p d a r m imm) rest
      else if f.ll = 0b00#2 then .ok (.xmmReg p d a r m imm) rest
      else if f.ll = 0b01#2 then .ok (.ymmReg p d a r m imm) rest
      else if f.ll = 0b10#2 then .ok (.zmmReg p d a r m imm) rest
      else .invalid .reservedLength imm rest := by
  intro d a m
  rw [classify_of_mask hz, instrOf_reg]
  split_ifs <;> rfl

/-- Settles O8: the numbers are those of the fields, whose bits are stored inverted, and the row is that of
`classify_reg`. -/
theorem registerFormFieldsDecode : Obligations.RegisterFormFieldsDecode := by
  intro p0 p1 p2 reg rm imm rest h0 h1 hz
  refine ⟨_, _, _, _, vregOf_not_val _ _ reg, vregOfV_not_val _ _, vregOf_not_val _ _ rm, rfl, ?_⟩
  rw [decode_candidate h0 h1, decodeModRM_reg]
  exact classify_reg (f := fieldsOf p0 p1 p2) hz ⟨none, false⟩ reg _ imm rest

/-- Operand 3 has the `mod` it was read with (R73). -/
theorem mod_of_decodeRM {x b : Bool} {mod : BitVec 2} {rmf : BitVec 3} {bs rest : List Byte} {rm : RM}
    (h : decodeRM x b mod rmf bs = some (rm, rest)) : rm.mod = mod := by
  have key : ∀ m : BitVec 2, m ≠ 0b11#2 → m ≠ 0b00#2 → m ≠ 0b01#2 → m = 0b10#2 := by decide
  unfold decodeRM decodeSib at h
  repeat' split at h
  all_goals cases h <;> simp_all [RM.mod]

/-- `L'L = 11b` selects no row but that of the `{sae}` form (R56, R71). -/
theorem instrOf_reserved {bc : Bool} {rm : RM} (h : ¬ (rm.mod = 0b11#2 ∧ bc = true)) (p : Prefixes) (d a : VReg)
    (m : Writemask) (imm : Byte) : instrOf 0b11#2 bc rm p d a m imm = none := by
  cases rm with
  | reg r => cases bc with
    | true => exact absurd ⟨rfl, rfl⟩ h
    | false => rfl
  | m00 ad => cases bc <;> rfl
  | m01 ad => cases bc <;> rfl
  | m10 ad => cases bc <;> rfl

/-- A complete candidate with a reserved setting is invalid (R71). -/
theorem classify_reserved {f : EvexFields} {rm : RM}
    (h : (f.ll = 0b11#2 ∧ ¬ (rm.mod = 0b11#2 ∧ f.bc = true)) ∨ (f.z = true ∧ f.aaa = 0#3)) (p : Prefixes) (reg : BitVec 3)
    (imm : Byte) (rest : List Byte) : ∃ why, classify ⟨p, false⟩ f reg rm imm rest = .invalid why imm rest := by
  by_cases hz : f.z = true ∧ f.aaa = 0#3
  · exact ⟨.zeroingWithoutMask, by simp [classify, hz]⟩
  · obtain ⟨hll, hrow⟩ := h.resolve_right hz
    exact ⟨.reservedLength, by rw [classify_of_mask hz, hll, instrOf_reserved hrow, Option.elim_none]⟩

/-- Six bytes after ModRM hold operand 3 and imm8 (R69). -/
theorem exists_decodeRM (x b : Bool) (mod : BitVec 2) (rmf : BitVec 3) {bs : List Byte} (h : 6 ≤ bs.length) :
    ∃ rm imm rest, decodeRM x b mod rmf bs = some (rm, imm :: rest) := by
  rcases tailLength_cases x b mod rmf bs with ⟨_, rfl, _⟩ | ⟨e, _, he, ⟨hlt, _⟩ | ⟨_, rm, hsome⟩⟩
  · cases h
  · omega
  · cases hdrop : bs.drop e with
    | nil =>
      rw [List.drop_eq_nil_iff] at hdrop
      omega
    | cons imm rest => exact ⟨rm, imm, rest, by rw [hsome, hdrop]⟩

/-- Settles O9. -/
theorem reservedSettingsAreInvalid : Obligations.ReservedSettingsAreInvalid := by
  intro p0 p1 p2 modrm bs h0 h1 hres
  have complete : ∀ rm imm rest,
      decodeRM (!p0.getLsbD 6) (!p0.getLsbD 5) (modrm.extractLsb' 6 2) (modrm.extractLsb' 0 3) bs =
        some (rm, imm :: rest) →
      ∃ why, decode (0x62#8 :: p0 :: p1 :: p2 :: 0x50#8 :: modrm :: bs) = .invalid why imm rest := by
    intro rm imm rest hrm
    rw [← mod_of_decodeRM hrm] at hres
    have hdec : decode (0x62#8 :: p0 :: p1 :: p2 :: 0x50#8 :: modrm :: bs) =
        classify .start (fieldsOf p0 p1 p2) (modrm.extractLsb' 3 3) rm imm rest := by
      rw [decode_candidate h0 h1, decodeModRM]
      simp only [fieldsOf, hrm]
    rw [hdec]
    exact classify_reserved hres _ _ imm rest
  refine ⟨complete, fun hlen => ?_⟩
  obtain ⟨rm, imm, rest, hrm⟩ := exists_decodeRM (!p0.getLsbD 6) (!p0.getLsbD 5) (modrm.extractLsb' 6 2)
    (modrm.extractLsb' 0 3) hlen
  obtain ⟨why, hdec⟩ := complete rm imm rest hrm
  exact ⟨why, imm, rest, hdec⟩

/-! ## Test vectors -/

/-- Settles O12: the decoder is run on each of the five words. -/
theorem testVectorBytesDecode : Obligations.TestVectorBytesDecode := by
  refine ⟨?_, ?_, ?_, ?_, ?_⟩ <;> decide

/-! ## Addresses (R60 to R64) -/

/-- Settles O26: base, index and displacement of every form, an absent part being 0. -/
theorem effectiveAddressOfEveryForm : Obligations.EffectiveAddressOfEveryForm := by
  intro s sg len n b g sc d8 d32
  simp [effectiveAddress, memRef00, memRef01, memRef10, baseValue, indexValue]

/-- The low half of a scaled index is the scaled low half (R63). -/
theorem indexValue32_eq (s : State) (i : Option Index) : indexValue32 s i = (indexValue s i).setWidth 32 := by
  cases i with
  | none => rfl
  | some i =>
    simp only [indexValue32, indexValue]
    ext k hk
    simp

/-- Settles O27: addition commutes with taking the low half, and so does scaling (`indexValue32_eq`). -/
theorem addressSize32IsTheLowHalf : Obligations.AddressSize32IsTheLowHalf := by
  intro s sg len r
  simp [effectiveAddress, indexValue32_eq, BitVec.setWidth_add]

/-- Settles O28. -/
theorem segmentOverrides : Obligations.SegmentOverrides := by
  refine ⟨fun s a32 len r => ⟨rfl, rfl, rfl, rfl, fun sg hsg => ?_⟩, rfl, rfl, rfl, rfl, rfl, rfl⟩
  have hbase : segmentBase s ⟨sg, a32⟩ = 0#64 := by rcases hsg with rfl | rfl | rfl | rfl | rfl <;> rfl
  have hseg : segmentInUse ⟨sg, a32⟩ r = defaultSegment r.base := by
    rcases hsg with rfl | rfl | rfl | rfl | rfl <;> rfl
  rw [hseg]
  refine ⟨by rw [linearAddress, hbase, BitVec.zero_add], ?_, ?_⟩
  · rintro (h | h) <;> rw [h] <;> rfl
  · intro h4 h5
    cases hb : r.base with
    | none => rfl
    | rip => rfl
    | reg g =>
      have hg4 : g ≠ 4 := fun e => h4 (by rw [hb, e])
      have hg5 : g ≠ 5 := fun e => h5 (by rw [hb, e])
      simp [defaultSegment, hg4, hg5]

/-- Settles O29. -/
theorem displacementScaleIsTheOperandSize : Obligations.DisplacementScaleIsTheOperandSize :=
  ⟨rfl, rfl, rfl, fun _ => rfl, fun _ => rfl⟩

/-! ## The high immediate bits (R68) -/

/-- The two controls are bits 3:0 of imm8 (R67). -/
theorem controls_low : ∀ imm : Byte,
    cmpOf (imm &&& 0x0F#8) = cmpOf imm ∧ scOf (imm &&& 0x0F#8) = scOf imm ∧ (imm &&& 0x0F#8).extractLsb' 4 4 = 0#4 := by
  decide

/-- The form of the instruction with `imm8[7:4]` cleared. -/
theorem formOf_lowImm (i : Instr) : formOf (lowImm i) = { formOf i with imm := (formOf i).imm &&& 0x0F#8 } := by
  cases i <;> rfl

/-- Of an accepted imm8 one execution sees the two controls only (R67, R97). -/
theorem vrangepd_congr_imm {s : State} (f : Form) {imm : Byte} (hcmp : cmpOf imm = cmpOf f.imm) (hsc : scOf imm = scOf f.imm)
    (hold : imm8Refused s f.imm = false) (hnew : imm8Refused s imm = false) :
    vrangepd { f with imm := imm } s = vrangepd f s := by
  have helem (v : ZWord) : rangeElem s { f with imm := imm } v = rangeElem s f v := by
    funext j
    simp only [rangeElem, hcmp, hsc]
    rfl
  have hnewElem (v : ZWord) : newElem s { f with imm := imm } v = newElem s f v := by
    funext j
    simp only [newElem, helem]
  have hloop (v : ZWord) : elementLoop s { f with imm := imm } v = elementLoop s f v := by
    rw [elementLoop, helem, hnewElem]
    rfl
  have hread : readSrc2 s { f with imm := imm } = readSrc2 s f := rfl
  have hcomplete (r : LoopOut) : complete s { f with imm := imm } r = complete s f r := rfl
  rw [vrangepd, vrangepd, hold, hnew, hread]
  simp only [hloop, hcomplete]

/-- Settles O41. -/
theorem highImmediateBitsFollowThePolicy : Obligations.HighImmediateBitsFollowThePolicy := by
  intro i s
  refine ⟨fun hpol himm => ?_, fun hpol => ?_⟩
  · have href : imm8Refused s (formOf i).imm = true := by simp [imm8Refused, hpol, himm]
    rw [exec_eq_vrangepd, vrangepd, if_pos href]
  · obtain ⟨hcmp, hsc, _⟩ := controls_low (formOf i).imm
    have hany (imm : Byte) : imm8Refused s imm = false := by simp [imm8Refused, hpol]
    rw [exec_eq_vrangepd, exec_eq_vrangepd, formOf_lowImm, vrangepd_congr_imm _ hcmp hsc (hany _) (hany _)]

/-! ## Rejected bytes (R70 to R72) -/

/-- A permitted fetch of rejected bytes finds what the decoder says. -/
theorem fetched_of_permitted {s : State} {n : Nat} (h : accessAnswer s (fetchQuery s n) = none) (f : Fetched) :
    fetched s n f = .ok f := by
  rw [fetched, h]

/-- Settles O49. -/
theorem stepOnRejectedBytes : Obligations.StepOnRejectedBytes := by
  intro s hmode hrun
  refine ⟨fun n hdec hacc => ?_, fun n hdec hacc => ?_, fun why imm rest hdec hacc => ?_⟩
  · have hf : fetch s = .ok .notVrangepd := by simp [fetch, Config.maxInstrBytes, hdec, fetched_of_permitted hacc]
    simp [step, hmode, hrun, hf]
  · have hf : fetch s = .ok .repeatedPrefix := by simp [fetch, Config.maxInstrBytes, hdec, fetched_of_permitted hacc]
    simp [step, hmode, hrun, hf]
  · have hf : fetch s = .ok (.invalid imm) := by simp [fetch, Config.maxInstrBytes, hdec, fetched_of_permitted hacc]
    simp [step, hmode, hrun, hf, execInvalid, imm8Refused, raise]

end Sys2Proof.Machine

/-! The statements on VRANGEPD itself (40_vrangepd.md): the element function, what its forms complete with, and the fault of
an unmasked condition. -/

namespace Sys2Proof.Machine

/-! ## RangeDP by the NaN classes of its operands (R81 to R83, R88) -/

section

variable {s1 s2 : Word} (cmp sc : BitVec 2) (daz : Bool)

/-- A signaling first source is quieted (R81). -/
theorem rangeDP_of_isSNaN_left (s2 : Word) (h : isSNaN s1 = true) :
    rangeDP s1 s2 cmp sc daz = ⟨quiet s1, true, false⟩ := by
  simp [rangeDP, h]

/-- A signaling second source is quieted when the first is not signaling (R81). -/
theorem rangeDP_of_isSNaN_right (h1 : isSNaN s1 = false) (h2 : isSNaN s2 = true) :
    rangeDP s1 s2 cmp sc daz = ⟨quiet s2, true, false⟩ := by
  simp [rangeDP, h1, h2]

/-- Without a signaling operand the result is the sign selection of the compare result (R82 to R88). -/
theorem rangeDP_of_not_isSNaN (h1 : isSNaN s1 = false) (h2 : isSNaN s2 = false) :
    rangeDP s1 s2 cmp sc daz =
      ⟨selectSign sc s1 (compareResult cmp s1 s2 (dazOperand daz s1) (dazOperand daz s2)), false,
        denormalCondition daz s1 s2⟩ := by
  simp [rangeDP, h1, h2]

/-- Everything `RangeDP` can do: quiet one of the operands with Invalid, or select the sign of the compare result. -/
theorem rangeDP_cases (s1 s2 : Word) :
    (isSNaN s1 = true ∧ rangeDP s1 s2 cmp sc daz = ⟨quiet s1, true, false⟩) ∨
    (isSNaN s1 = false ∧ isSNaN s2 = true ∧ rangeDP s1 s2 cmp sc daz = ⟨quiet s2, true, false⟩) ∨
    (isSNaN s1 = false ∧ isSNaN s2 = false ∧ rangeDP s1 s2 cmp sc daz =
      ⟨selectSign sc s1 (compareResult cmp s1 s2 (dazOperand daz s1) (dazOperand daz s2)), false,
        denormalCondition daz s1 s2⟩) := by
  cases h1 : isSNaN s1 with
  | true => exact .inl ⟨rfl, rangeDP_of_isSNaN_left cmp sc daz s2 h1⟩
  | false =>
    cases h2 : isSNaN s2 with
    | true => exact .inr (.inl ⟨rfl, rfl, rangeDP_of_isSNaN_right cmp sc daz h1 h2⟩)
    | false => exact .inr (.inr ⟨rfl, rfl, rangeDP_of_not_isSNaN cmp sc daz h1 h2⟩)

end

/-- A value that is no NaN is neither signaling nor quiet. -/
theorem not_isSNaN_isQNaN_of_not_isNaN {v : Word} (h : isNaN v = false) : isSNaN v = false ∧ isQNaN v = false := by
  simp [isSNaN, isQNaN, h]

/-- A quiet NaN is not signaling. -/
theorem not_isSNaN_of_isQNaN {v : Word} (h : isQNaN v = true) : isSNaN v = false := by
  simp only [isQNaN, Bool.and_eq_true] at h
  simp [isSNaN, h.2]

/-- The Denormal condition as a proposition (R82). -/
theorem denormalCondition_iff (daz : Bool) (s1 s2 : Word) :
    denormalCondition daz s1 s2 = true ↔ daz = false ∧
      ((isDenormal s1 = true ∧ isQNaN s2 = false) ∨ (isDenormal s2 = true ∧ isQNaN s1 = false)) := by
  simp [denormalCondition]

/-- Settles O13: the two signaling cases of `RangeDP`. -/
theorem signalingNaNIsQuieted : Obligations.SignalingNaNIsQuieted := fun _ s2 cmp sc daz =>
  ⟨rangeDP_of_isSNaN_left cmp sc daz s2, rangeDP_of_isSNaN_right cmp sc daz⟩

/-- Invalid is detected exactly for a signaling operand (R81). -/
theorem rangeDP_ie_iff (s1 s2 : Word) (cmp sc : BitVec 2) (daz : Bool) :
    (rangeDP s1 s2 cmp sc daz).ie = true ↔ isSNaN s1 = true ∨ isSNaN s2 = true := by
  rcases rangeDP_cases cmp sc daz s1 s2 with ⟨h1, e⟩ | ⟨h1, h2, e⟩ | ⟨h1, h2, e⟩ <;> rw [e]
  · simp [h1]
  · simp [h2]
  · simp [h1, h2]

/-- Denormal is detected when no operand is signaling and the condition of R82 holds. -/
theorem rangeDP_de_iff (s1 s2 : Word) (cmp sc : BitVec 2) (daz : Bool) :
    (rangeDP s1 s2 cmp sc daz).de = true ↔ daz = false ∧ isSNaN s1 = false ∧ isSNaN s2 = false ∧
      ((isDenormal s1 = true ∧ isQNaN s2 = false) ∨ (isDenormal s2 = true ∧ isQNaN s1 = false)) := by
  rcases rangeDP_cases cmp sc daz s1 s2 with ⟨h1, e⟩ | ⟨h1, h2, e⟩ | ⟨h1, h2, e⟩ <;> rw [e]
  · simp [h1]
  · simp [h2]
  · simp [h1, h2, denormalCondition_iff]

/-- Settles O14: Invalid needs a signaling operand, and Denormal that there is none. -/
theorem elementConditions : Obligations.ElementConditions := by
  intro s1 s2 cmp sc daz
  refine ⟨rangeDP_ie_iff s1 s2 cmp sc daz, rangeDP_de_iff s1 s2 cmp sc daz, ?exclusive⟩
  case exclusive =>
    rintro ⟨hie, hde⟩
    obtain ⟨_, h1, h2, _⟩ := (rangeDP_de_iff s1 s2 cmp sc daz).mp hde
    simp [rangeDP_ie_iff, h1, h2] at hie

/-! ## The sign selection (R87) -/

/-- The selection `sc = 00b` takes the sign of the first source. -/
theorem selectSign_00 (s1 tmp : Word) : selectSign 0b00#2 s1 tmp = withSign (fsign s1) tmp := rfl

/-- The selection `sc = 01b` keeps the compare result. -/
theorem selectSign_01 (s1 tmp : Word) : selectSign 0b01#2 s1 tmp = tmp := rfl

/-- The selection `sc = 10b` clears the sign. -/
theorem selectSign_10 (s1 tmp : Word) : selectSign 0b10#2 s1 tmp = withSign false tmp := rfl

/-- The selection `sc = 11b` sets the sign. -/
theorem selectSign_11 (s1 tmp : Word) : selectSign 0b11#2 s1 tmp = withSign true tmp := rfl

/-- Of the first source the selection uses the sign only. -/
theorem selectSign_congr (sc : BitVec 2) {s1 a : Word} (tmp : Word) (h : fsign s1 = fsign a) :
    selectSign sc s1 tmp = selectSign sc a tmp := by
  rw [selectSign, selectSign, h]

/-- A sign before a magnitude depends on the magnitude only. -/
theorem withSign_congr (sg : Bool) {v w : Word} (h : fmag v = fmag w) : withSign sg v = withSign sg w := by
  rw [withSign, withSign, h]

/-- With `sc = 01b` and no signaling operand the result is the compare result. -/
theorem result_of_sc_01 {s1 s2 : Word} (cmp : BitVec 2) (daz : Bool) (h1 : isSNaN s1 = false) (h2 : isSNaN s2 = false) :
    (rangeDP s1 s2 cmp 0b01#2 daz).result = compareResult cmp s1 s2 (dazOperand daz s1) (dazOperand daz s2) := by
  rw [rangeDP_of_not_isSNaN _ _ _ h1 h2, selectSign_01]

/-- Without a signaling operand the result is the sign selection of what `sc = 01b` gives. -/
theorem result_eq_selectSign {s1 s2 : Word} (cmp sc : BitVec 2) (daz : Bool) (h1 : isSNaN s1 = false)
    (h2 : isSNaN s2 = false) :
    (rangeDP s1 s2 cmp sc daz).result = selectSign sc s1 (rangeDP s1 s2 cmp 0b01#2 daz).result := by
  rw [result_of_sc_01 cmp daz h1 h2, rangeDP_of_not_isSNaN cmp sc daz h1 h2]

/-- Settles O20: each `sc` is one line of the sign selection, and no selection follows a quieted operand. -/
theorem signSelectionReplacesOnlyTheSign : Obligations.SignSelectionReplacesOnlyTheSign := by
  rintro s1 s2 _ cmp daz rfl
  refine ⟨fun h1 h2 => ?selected, fun hs sc => ?quieted⟩
  case selected =>
    exact ⟨result_eq_selectSign cmp 0b00#2 daz h1 h2, result_eq_selectSign cmp 0b10#2 daz h1 h2,
      result_eq_selectSign cmp 0b11#2 daz h1 h2⟩
  case quieted =>
    cases h1 : isSNaN s1 with
    | true => rw [rangeDP_of_isSNaN_left _ _ _ _ h1, rangeDP_of_isSNaN_left _ _ _ _ h1]
    | false =>
      have h2 : isSNaN s2 = true := by simpa [h1] using hs
      rw [rangeDP_of_isSNaN_right _ _ _ h1 h2, rangeDP_of_isSNaN_right _ _ _ h1 h2]

/-! ## The DAZ substitution (R82) -/

/-- The substitution does not make or lose a signaling NaN. -/
theorem isSNaN_dazOperand (daz : Bool) (v : Word) : isSNaN (dazOperand daz v) = isSNaN v := (nan_dazOperand daz v).2.1

/-- A NaN is no denormal, so that the substitution keeps it. -/
theorem dazOperand_of_isSNaN (daz : Bool) {v : Word} (h : isSNaN v = true) : dazOperand daz v = v := by
  have hd : isDenormal v = false := by
    rw [Bool.eq_false_iff, ne_eq, isDenormal_iff]
    rw [isSNaN_iff] at h
    omega
  simp [dazOperand, hd]

/-- Of the original operands the compare result uses the quiet NaN classes only (R83). -/
theorem compareResult_congr (cmp : BitVec 2) {s1 s2 u1 u2 : Word} (a b : Word) (h1 : isQNaN s1 = isQNaN u1)
    (h2 : isQNaN s2 = isQNaN u2) : compareResult cmp s1 s2 a b = compareResult cmp u1 u2 a b := by
  rw [compareResult, compareResult, h1, h2]

/-- With DAZ, `RangeDP` is `RangeDP` without DAZ on the substituted operands (R82). -/
theorem rangeDP_daz (s1 s2 : Word) (cmp sc : BitVec 2) :
    rangeDP s1 s2 cmp sc true = rangeDP (dazOperand true s1) (dazOperand true s2) cmp sc false := by
  have hs1 := isSNaN_dazOperand true s1
  have hs2 := isSNaN_dazOperand true s2
  obtain ⟨_, _, hq1⟩ := nan_dazOperand true s1
  obtain ⟨_, _, hq2⟩ := nan_dazOperand true s2
  rcases rangeDP_cases cmp sc true s1 s2 with ⟨h1, e⟩ | ⟨h1, h2, e⟩ | ⟨h1, h2, e⟩ <;> rw [e]
  · rw [rangeDP_of_isSNaN_left _ _ _ _ (hs1.trans h1), dazOperand_of_isSNaN true h1]
  · rw [rangeDP_of_isSNaN_right _ _ _ (hs1.trans h1) (hs2.trans h2), dazOperand_of_isSNaN true h2]
  · have hden : denormalCondition false (dazOperand true s1) (dazOperand true s2) = denormalCondition true s1 s2 := by
      simp [denormalCondition, isDenormal_dazOperand_true]
    rw [rangeDP_of_not_isSNaN _ _ _ (hs1.trans h1) (hs2.trans h2), hden, dazOperand_false, dazOperand_false,
      compareResult_congr _ _ _ hq1 hq2, selectSign_congr _ _ (fsign_dazOperand true s1)]

/-- Settles O15: the substitution first, then `RangeDP` as without DAZ (`rangeDP_daz`). -/
theorem dazReplacesDenormalsFirst : Obligations.DazReplacesDenormalsFirst := by
  intro s1 s2 a b cmp sc ha hb
  have hsub (v : Word) : dazOperand true v = if isDenormal v then BitVec.ofBool (v.getLsbD 63) ++ 0#63 else v := by
    simp [dazOperand, fsign]
  refine ⟨?substituted, ?noDenormal, fun h1 h2 => ?denormal⟩
  case substituted => rw [ha, hb, ← hsub, ← hsub, rangeDP_daz]
  case noDenormal => simp [← Bool.not_eq_true, rangeDP_de_iff]
  case denormal => simp [rangeDP_de_iff, h1, h2]

/-! ## Quiet NaNs (R83) -/

/-- A quiet second source gives the first one, whatever that is (R83). -/
theorem compareResult_of_isQNaN_right (cmp : BitVec 2) (s1 : Word) {s2 : Word} (a b : Word) (h : isQNaN s2 = true) :
    compareResult cmp s1 s2 a b = a := by
  simp [compareResult, h]

/-- A quiet first source gives a second one that is not quiet (R83). -/
theorem compareResult_of_isQNaN_left (cmp : BitVec 2) {s1 s2 : Word} (a b : Word) (h2 : isQNaN s2 = false)
    (h1 : isQNaN s1 = true) : compareResult cmp s1 s2 a b = b := by
  simp [compareResult, h2, h1]

/-- Settles O16: the compare result is the other operand, and the sign selection is that of every compare result. -/
theorem quietNaNGivesTheOtherOperand : Obligations.QuietNaNGivesTheOtherOperand := by
  intro s1 s2 tmp cmp daz h1 h2 hq
  have htmp : compareResult cmp s1 s2 (dazOperand daz s1) (dazOperand daz s2) = tmp := by
    rcases hq with ⟨hq2, rfl⟩ | ⟨hq2, hq1, rfl⟩
    · exact compareResult_of_isQNaN_right cmp s1 _ _ hq2
    · exact compareResult_of_isQNaN_left cmp _ _ hq2 hq1
  have hrange (sc : BitVec 2) :
      rangeDP s1 s2 cmp sc daz = ⟨selectSign sc s1 tmp, false, denormalCondition daz s1 s2⟩ := by
    rw [rangeDP_of_not_isSNaN cmp sc daz h1 h2, htmp]
  refine ⟨fun sc => ?_, ?_, ?_, ?_, ?_⟩ <;> rw [hrange]
  · exact selectSign_00 s1 tmp
  · exact selectSign_01 s1 tmp
  · exact selectSign_10 s1 tmp
  · exact selectSign_11 s1 tmp

/-! ## The comparison as one order (R84 to R86) -/

/-- What a comparison ranks values by: the key for MIN and MAX, the magnitude for MIN_ABS and MAX_ABS, and of values alike
in that the negative one before the positive one, which is what Tables 5-20 and 5-21 say. -/
def compareRank (cmp : BitVec 2) (v : Word) : Int :=
  2 * (if cmp.getLsbD 1 then ((fmag v).toNat : Int) else fkey v) + if fsign v then 0 else 1

/-- For MIN and MAX the rank is by key, then by sign. -/
theorem compareRank_of_key {cmp : BitVec 2} (h : cmp.getLsbD 1 = false) (v : Word) :
    compareRank cmp v = 2 * fkey v + if fsign v then 0 else 1 := by
  rw [compareRank, if_neg (by rw [h]; exact Bool.false_ne_true)]

/-- For MIN_ABS and MAX_ABS the rank is by magnitude, then by sign. -/
theorem compareRank_of_mag {cmp : BitVec 2} (h : cmp.getLsbD 1 = true) (v : Word) :
    compareRank cmp v = 2 * ((fmag v).toNat : Int) + if fsign v then 0 else 1 := by
  rw [compareRank, if_pos h]

/-- Different values have different ranks: the sign is the rank's parity. -/
theorem compareRank_injective (cmp : BitVec 2) : Function.Injective (compareRank cmp) := by
  intro v w h
  have hsign : fsign v = fsign w := by
    unfold compareRank at h
    cases hv : fsign v <;> cases hw : fsign w <;> simp only [hv, hw, if_true, Bool.false_eq_true, if_false] at h ⊢ <;>
      omega
  refine eq_of_fsign_fmag hsign (BitVec.eq_of_toNat_eq ?_)
  rw [compareRank, compareRank, fkey, fkey, hsign] at h
  split at h <;> split at h <;> omega

/-- But for opposite zeros the numerical comparison is that of the ranks. -/
theorem fle_eq_rank {cmp : BitVec 2} {a b : Word} (hc : cmp.getLsbD 1 = false) (h : oppositeZeros a b = false) :
    fle a b = decide (compareRank cmp a ≤ compareRank cmp b) := by
  simp only [oppositeZeros, Bool.and_eq_false_iff, beq_eq_false_iff_ne, bne_eq_false_iff_eq, ne_eq,
    ← BitVec.toNat_inj, BitVec.toNat_ofNat] at h
  rw [fle, decide_eq_decide, compareRank_of_key hc, compareRank_of_key hc, fkey, fkey]
  cases ha : fsign a <;> cases hb : fsign b <;> simp [ha, hb] at h ⊢ <;> omega

/-- But for opposite values of one magnitude the comparison of magnitudes is that of the ranks. -/
theorem fleAbs_eq_rank {cmp : BitVec 2} {a b : Word} (hc : cmp.getLsbD 1 = true) (h : oppositeEqual a b = false) :
    fleAbs a b = decide (compareRank cmp a ≤ compareRank cmp b) := by
  simp only [oppositeEqual, Bool.and_eq_false_iff, beq_eq_false_iff_ne, bne_eq_false_iff_eq, ne_eq,
    ← BitVec.toNat_inj] at h
  rw [fleAbs, decide_eq_decide, compareRank_of_mag hc, compareRank_of_mag hc]
  cases ha : fsign a <;> cases hb : fsign b <;> simp [ha, hb] at h ⊢ <;> omega

/-- Of two values of one magnitude and opposite sign the negative one ranks first. -/
theorem compareRank_lt_of_opposite (cmp : BitVec 2) {n p : Word} (hmag : fmag n = fmag p) (hn : fsign n = true)
    (hp : fsign p = false) : compareRank cmp n < compareRank cmp p := by
  simp only [compareRank, fkey, hmag, hn, hp, if_true, Bool.false_eq_true, if_false]
  split <;> omega

/-- Of two values of one magnitude and opposite sign, that which ranks first is told by the sign. -/
theorem compareRank_le_iff_fsign (cmp : BitVec 2) {a b : Word} (hmag : fmag a = fmag b) (hsign : fsign a ≠ fsign b) :
    compareRank cmp a ≤ compareRank cmp b ↔ fsign a = true := by
  cases ha : fsign a with
  | true =>
    have hb : fsign b = false := by simpa [ha] using hsign
    simp [(compareRank_lt_of_opposite cmp hmag ha hb).le]
  | false =>
    have hb : fsign b = true := by simpa [ha] using hsign
    simp [compareRank_lt_of_opposite cmp hmag.symm hb ha]

/-- The general comparison by bits: bit 1 says what is compared, bit 0 whether the larger is taken (R67, R86). -/
theorem compareGeneral_eq (cmp : BitVec 2) (a b : Word) :
    compareGeneral cmp a b =
      if cmp.getLsbD 0 then (if (if cmp.getLsbD 1 then fleAbs a b else fle a b) then b else a)
      else if (if cmp.getLsbD 1 then fleAbs a b else fle a b) then a else b := by
  obtain rfl | rfl | rfl | rfl : cmp = 0b00#2 ∨ cmp = 0b01#2 ∨ cmp = 0b10#2 ∨ cmp = 0b11#2 := by
    revert cmp; decide
  all_goals rfl

/-- Without NaNs the compare result is the operand of smaller rank, for MAX and MAX_ABS that of larger rank. -/
theorem compareResult_eq_rank (cmp : BitVec 2) {s1 s2 : Word} (a b : Word) (h1 : isNaN s1 = false)
    (h2 : isNaN s2 = false) :
    compareResult cmp s1 s2 a b =
      if cmp.getLsbD 0 then (if compareRank cmp a ≤ compareRank cmp b then b else a)
      else if compareRank cmp a ≤ compareRank cmp b then a else b := by
  obtain ⟨_, hq1⟩ := not_isSNaN_isQNaN_of_not_isNaN h1
  obtain ⟨_, hq2⟩ := not_isSNaN_isQNaN_of_not_isNaN h2
  simp only [compareResult, hq1, hq2, Bool.false_eq_true, if_false]
  cases hz : oppositeZeros a b with
  | true =>
    simp only [oppositeZeros, Bool.and_eq_true, beq_iff_eq, bne_iff_ne] at hz
    obtain ⟨⟨ha, hb⟩, hsign⟩ := hz
    simp only [compareRank_le_iff_fsign cmp (ha.trans hb.symm) hsign, if_true]
    have hb' : fsign b = !fsign a := Bool.eq_not.mpr hsign.symm
    rw [eq_zero_of_fmag a ha, eq_zero_of_fmag b hb, hb']
    cases fsign a <;> rfl
  | false =>
    cases hc : cmp.getLsbD 1 with
    | false =>
      simp only [Bool.and_false, Bool.false_eq_true, if_false, compareGeneral_eq, hc, fle_eq_rank hc hz,
        decide_eq_true_eq]
    | true =>
      cases he : oppositeEqual a b with
      | false =>
        simp only [Bool.false_and, Bool.false_eq_true, if_false, compareGeneral_eq, hc, if_true, fleAbs_eq_rank hc he,
          decide_eq_true_eq]
      | true =>
        simp only [oppositeEqual, Bool.and_eq_true, beq_iff_eq, bne_iff_ne] at he
        obtain ⟨hmag, hsign⟩ := he
        simp only [compareRank_le_iff_fsign cmp hmag hsign, Bool.and_true, if_true, Bool.false_eq_true, if_false]

/-- Without NaNs and with `sc = 01b` the result is the substituted operand of smaller or larger rank. -/
theorem result_eq_rank {s1 s2 : Word} (cmp : BitVec 2) (daz : Bool) (h1 : isNaN s1 = false) (h2 : isNaN s2 = false) :
    (rangeDP s1 s2 cmp 0b01#2 daz).result =
      if cmp.getLsbD 0 then
        (if compareRank cmp (dazOperand daz s1) ≤ compareRank cmp (dazOperand daz s2) then dazOperand daz s2
          else dazOperand daz s1)
      else if compareRank cmp (dazOperand daz s1) ≤ compareRank cmp (dazOperand daz s2) then dazOperand daz s1
        else dazOperand daz s2 := by
  obtain ⟨hs1, _⟩ := not_isSNaN_isQNaN_of_not_isNaN h1
  obtain ⟨hs2, _⟩ := not_isSNaN_isQNaN_of_not_isNaN h2
  rw [result_of_sc_01 cmp daz hs1 hs2, compareResult_eq_rank cmp _ _ h1 h2]

/-- The rank of the compare result is the minimum or maximum of the operands' ranks. -/
theorem compareRank_result {s1 s2 : Word} (cmp : BitVec 2) (daz : Bool) (h1 : isNaN s1 = false)
    (h2 : isNaN s2 = false) :
    compareRank cmp (rangeDP s1 s2 cmp 0b01#2 daz).result =
      if cmp.getLsbD 0 then max (compareRank cmp (dazOperand daz s1)) (compareRank cmp (dazOperand daz s2))
      else min (compareRank cmp (dazOperand daz s1)) (compareRank cmp (dazOperand daz s2)) := by
  rw [result_eq_rank cmp daz h1 h2, max_def, min_def]
  simp only [apply_ite (compareRank cmp)]

/-- Settles O23: minimum and maximum of the ranks are symmetric, and a rank is the rank of one value. -/
theorem compareResultIsSymmetric : Obligations.CompareResultIsSymmetric := by
  intro s1 s2 cmp daz h1 h2
  apply compareRank_injective cmp
  rw [compareRank_result cmp daz h1 h2, compareRank_result cmp daz h2 h1, max_comm, min_comm]

/-- For MIN and MAX half the rank, rounded down, is the key. -/
theorem fkey_eq_rank_div_two {cmp : BitVec 2} (h : cmp.getLsbD 1 = false) (v : Word) :
    fkey v = compareRank cmp v / 2 := by
  rw [compareRank_of_key h]
  split <;> omega

/-- For MIN_ABS and MAX_ABS half the rank, rounded down, is the magnitude. -/
theorem fmag_eq_rank_div_two {cmp : BitVec 2} (h : cmp.getLsbD 1 = true) (v : Word) :
    ((fmag v).toNat : Int) = compareRank cmp v / 2 := by
  rw [compareRank_of_mag h]
  split <;> omega

/-- Without NaNs the key of the compare result of MIN is the smaller key, and of MAX the larger one. -/
theorem fkey_result {cmp : BitVec 2} {s1 s2 : Word} (daz : Bool) (hc : cmp.getLsbD 1 = false) (h1 : isNaN s1 = false)
    (h2 : isNaN s2 = false) :
    fkey (rangeDP s1 s2 cmp 0b01#2 daz).result =
      if cmp.getLsbD 0 then max (fkey (dazOperand daz s1)) (fkey (dazOperand daz s2))
      else min (fkey (dazOperand daz s1)) (fkey (dazOperand daz s2)) := by
  simp only [fkey_eq_rank_div_two hc, compareRank_result cmp daz h1 h2]
  split <;> omega

/-- Without NaNs the magnitude of the compare result of MIN_ABS is the smaller magnitude, and of MAX_ABS the larger one. -/
theorem fmag_result {cmp : BitVec 2} {s1 s2 : Word} (daz : Bool) (hc : cmp.getLsbD 1 = true) (h1 : isNaN s1 = false)
    (h2 : isNaN s2 = false) :
    (fmag (rangeDP s1 s2 cmp 0b01#2 daz).result).toNat =
      if cmp.getLsbD 0 then max (fmag (dazOperand daz s1)).toNat (fmag (dazOperand daz s2)).toNat
      else min (fmag (dazOperand daz s1)).toNat (fmag (dazOperand daz s2)).toNat := by
  have hr := fmag_eq_rank_div_two hc (rangeDP s1 s2 cmp 0b01#2 daz).result
  have ha := fmag_eq_rank_div_two hc (dazOperand daz s1)
  have hb := fmag_eq_rank_div_two hc (dazOperand daz s2)
  rw [compareRank_result cmp daz h1 h2] at hr
  split_ifs at hr ⊢ <;> omega

/-- Settles O19: each comparison is one choice of the two control bits. -/
theorem compareResultIsMinOrMax : Obligations.CompareResultIsMinOrMax := by
  rintro s1 s2 _ _ daz h1 h2 rfl rfl
  refine ⟨fkey_result daz rfl h1 h2, fkey_result daz rfl h1 h2, fmag_result daz rfl h1 h2, fmag_result daz rfl h1 h2,
    fun cmp => ?operand⟩
  case operand =>
    rw [result_eq_rank cmp daz h1 h2]
    split <;> split <;> simp

/-- Of two operands MIN and MIN_ABS give the one that ranks first, MAX and MAX_ABS the other, whichever position they
have. -/
theorem result_of_compareRank_lt {s1 s2 : Word} (cmp : BitVec 2) (daz : Bool) (h1 : isNaN s1 = false)
    (h2 : isNaN s2 = false) (hlt : compareRank cmp (dazOperand daz s1) < compareRank cmp (dazOperand daz s2)) :
    (rangeDP s1 s2 cmp 0b01#2 daz).result = (if cmp.getLsbD 0 then dazOperand daz s2 else dazOperand daz s1) ∧
    (rangeDP s2 s1 cmp 0b01#2 daz).result = (if cmp.getLsbD 0 then dazOperand daz s2 else dazOperand daz s1) := by
  rw [compareResultIsSymmetric s2 s1 cmp daz h2 h1, and_self, result_eq_rank cmp daz h1 h2, if_pos hlt.le, if_pos hlt.le]

/-- MIN and MIN_ABS are the comparisons with `CmpOpCtl[0] = 0` (R67). -/
theorem min_iff_not_bit0 : ∀ cmp : BitVec 2, (cmp = 0b00#2 ∨ cmp = 0b10#2) ↔ ¬ cmp.getLsbD 0 = true := by decide

/-- -0 and +0 compare to -0 for MIN and MIN_ABS and to +0 for MAX and MAX_ABS: -0 ranks first, whatever is compared. -/
theorem result_of_opposite_zeros {n p : Word} (cmp : BitVec 2) (daz : Bool) (hn : isNaN n = false) (hp : isNaN p = false)
    (hn0 : fmag (dazOperand daz n) = 0#63) (hp0 : fmag (dazOperand daz p) = 0#63) (hneg : fsign n = true)
    (hpos : fsign p = false) :
    (rangeDP n p cmp 0b01#2 daz).result = if cmp.getLsbD 0 then 0#64 else 0x8000000000000000#64 := by
  have hneg' := (fsign_dazOperand daz n).trans hneg
  have hpos' := (fsign_dazOperand daz p).trans hpos
  obtain ⟨hres, _⟩ := result_of_compareRank_lt cmp daz hn hp
    (compareRank_lt_of_opposite cmp (hn0.trans hp0.symm) hneg' hpos')
  rw [hres, eq_zero_of_fmag _ hn0, eq_zero_of_fmag _ hp0, hneg', hpos']
  rfl

/-- Settles O17: whichever position the negative zero has, `result_of_opposite_zeros` gives the result. -/
theorem oppositeZerosFollowTable520 : Obligations.OppositeZerosFollowTable520 := by
  intro s1 s2 cmp daz h1 h2 hm1 hm2 hne
  have hsign : fsign s1 ≠ fsign s2 := hne
  rw [if_congr (min_iff_not_bit0 cmp) rfl rfl, ite_not]
  cases hs : fsign s1 with
  | true => exact result_of_opposite_zeros cmp daz h1 h2 hm1 hm2 hs (by simpa [hs] using hsign.symm)
  | false =>
    rw [compareResultIsSymmetric s1 s2 cmp daz h1 h2]
    exact result_of_opposite_zeros cmp daz h2 h1 hm2 hm1 (by simpa [hs] using hsign.symm) hs

/-- Settles O18: of one magnitude the negative operand ranks before the positive one, whatever is compared. -/
theorem oppositeEqualsFollowTable521 : Obligations.OppositeEqualsFollowTable521 := by
  rintro s1 s2 _ _ daz h1 h2 rfl rfl hmag - ha hb
  have hres (cmp : BitVec 2) := result_of_compareRank_lt cmp daz h2 h1 (compareRank_lt_of_opposite cmp hmag.symm hb ha)
  obtain ⟨hmin, hmin'⟩ := hres 0b00#2
  obtain ⟨hmax, hmax'⟩ := hres 0b01#2
  obtain ⟨habs, habs'⟩ := hres 0b10#2
  obtain ⟨hmaxAbs, hmaxAbs'⟩ := hres 0b11#2
  exact ⟨habs', hmaxAbs', habs, hmaxAbs, hmin', hmax', hmin, hmax⟩

/-! ## What the result can be (R89, R98, R100) -/

/-- Settles O21: the compare result is an operand or a zero, and the sign selection keeps its magnitude. -/
theorem noNewMagnitudeIsProduced : Obligations.NoNewMagnitudeIsProduced := by
  intro s1 s2 cmp sc daz hie
  rcases rangeDP_cases cmp sc daz s1 s2 with ⟨_, e⟩ | ⟨_, _, e⟩ | ⟨_, _, e⟩ <;> rw [e] at hie ⊢
  · cases hie
  · cases hie
  · simp only [fmag_selectSign]
    rcases compareResult_cases cmp s1 s2 (dazOperand daz s1) (dazOperand daz s2) with h | h | ⟨_, _, _, h⟩ <;> rw [h]
    · exact .inl rfl
    · exact .inr (.inl rfl)
    · refine .inr (.inr ?_)
      split <;> decide

/-- The compare result of two operands that are not signaling is a NaN only if both are quiet ones (R83 to R86). -/
theorem isNaN_compareResult (cmp : BitVec 2) (daz : Bool) {s1 s2 : Word} (h1 : isSNaN s1 = false)
    (h2 : isSNaN s2 = false) :
    isNaN (compareResult cmp s1 s2 (dazOperand daz s1) (dazOperand daz s2)) = true ↔
      isQNaN s1 = true ∧ isQNaN s2 = true := by
  have hn (v : Word) (h : isSNaN v = false) : isNaN (dazOperand daz v) = isQNaN v := by
    rw [(nan_dazOperand daz v).1, Bool.eq_iff_iff, isNaN_iff_signaling_or_quiet]
    simp [h]
  cases hq2 : isQNaN s2 with
  | true => simp [compareResult_of_isQNaN_right cmp s1 _ _ hq2, hn s1 h1]
  | false =>
    cases hq1 : isQNaN s1 with
    | true => simp [compareResult_of_isQNaN_left cmp _ _ hq2 hq1, hn s2 h2, hq2]
    | false =>
      rcases compareResult_cases cmp s1 s2 (dazOperand daz s1) (dazOperand daz s2) with h | h | ⟨_, _, _, h⟩ <;> rw [h]
      · simp [hn s1 h1, hq1]
      · simp [hn s2 h2, hq2]
      · split <;> decide

/-- The compare result of two operands that are not signaling is not signaling. -/
theorem isSNaN_compareResult (cmp : BitVec 2) (daz : Bool) {s1 s2 : Word} (h1 : isSNaN s1 = false)
    (h2 : isSNaN s2 = false) :
    isSNaN (compareResult cmp s1 s2 (dazOperand daz s1) (dazOperand daz s2)) = false := by
  rcases compareResult_cases cmp s1 s2 (dazOperand daz s1) (dazOperand daz s2) with h | h | ⟨_, _, _, h⟩ <;> rw [h]
  · exact (isSNaN_dazOperand daz s1).trans h1
  · exact (isSNaN_dazOperand daz s2).trans h2
  · split <;> decide

/-- A quieted signaling NaN is a NaN and no longer signaling. -/
theorem isNaN_quiet {v : Word} (h : isSNaN v = true) : isNaN (quiet v) = true ∧ isSNaN (quiet v) = false := by
  have hq := isQNaN_quiet v h
  exact ⟨(isNaN_iff_signaling_or_quiet _).mpr (.inr hq), not_isSNaN_of_isQNaN hq⟩

/-- Settles O22: a quieted operand is a quiet NaN, and the sign selection keeps the class of the compare result. -/
theorem naNResultsOnlyFromNaNs : Obligations.NaNResultsOnlyFromNaNs := by
  intro s1 s2 cmp sc daz
  rcases rangeDP_cases cmp sc daz s1 s2 with ⟨h1, e⟩ | ⟨h1, h2, e⟩ | ⟨h1, h2, e⟩ <;> rw [e]
  · simp [isNaN_quiet h1, h1]
  · simp [isNaN_quiet h2, h2]
  · obtain ⟨hnan, hsnan, _⟩ := classes_eq_of_fmag (fmag_selectSign sc s1
      (compareResult cmp s1 s2 (dazOperand daz s1) (dazOperand daz s2)))
    simp only [hnan, hsnan, isNaN_compareResult cmp daz h1 h2, isSNaN_compareResult cmp daz h1 h2, h1, h2,
      Bool.false_eq_true, false_or, and_self]

/-- The compare result of an operand with itself is that operand (R98). -/
theorem compareResult_self (cmp : BitVec 2) (v a : Word) : compareResult cmp v v a a = a := by
  rcases compareResult_cases cmp v v a a with h | h | ⟨hz, _⟩
  · exact h
  · exact h
  · simp [oppositeZeros] at hz

/-- Settles O25: of the compare result with itself, `compareResult_self`, the sign is selected. -/
theorem selfComparisonKeepsTheValue : Obligations.SelfComparisonKeepsTheValue := by
  intro v cmp sc daz
  refine ⟨fun hs => ?value, fun hs => ?signaling⟩
  case value => simp [rangeDP_of_not_isSNaN cmp sc daz hs hs, compareResult_self]
  case signaling => simp [rangeDP_of_isSNaN_left cmp sc daz v hs]

/-- A normal value is no NaN (R8). -/
theorem isNaN_of_isNormal {v : Word} (h : isNormal v = true) : isNaN v = false := by
  simp only [isNormal, Bool.and_eq_true, bne_iff_ne] at h
  obtain ⟨_, hexp⟩ := h
  simp [isNaN, hexp]

/-- `imm8 = 02h` is MIN_ABS with the sign of the first source (R67, R100). -/
theorem controls_of_clamp : cmpOf 0x02#8 = 0b10#2 ∧ scOf 0x02#8 = 0b00#2 := by decide

/-- Settles O24: without NaNs the result has the smaller magnitude of the two, whichever operand it is, and the sign of the
first source. -/
theorem clampExample : Obligations.ClampExample := by
  intro s1 c hc _
  have hcnan := isNaN_of_isNormal hc
  obtain ⟨hcs, hcq⟩ := not_isSNaN_isQNaN_of_not_isNaN hcnan
  obtain ⟨hcmp, hsc⟩ := controls_of_clamp
  rw [hcmp, hsc]
  have hclamp (hn : isNaN s1 = false) (v : Word) (hv : (fmag v).toNat = min (fmag s1).toNat (fmag c).toNat) :
      (rangeDP s1 c 0b10#2 0b00#2 false).result = withSign (fsign s1) v := by
    have hmin := fmag_result (cmp := 0b10#2) false rfl hn hcnan
    rw [dazOperand_false, dazOperand_false, if_neg (by decide)] at hmin
    rw [result_eq_selectSign _ _ _ (not_isSNaN_isQNaN_of_not_isNaN hn).1 hcs, selectSign_00]
    exact withSign_congr _ (BitVec.eq_of_toNat_eq (hmin.trans hv.symm))
  refine ⟨fun hn hlt => ?below, fun hn hle => ?above, fun hq => ?quiet, fun hs => ?signaling⟩
  case below => rw [hclamp hn s1 (min_eq_left hlt.le).symm, withSign_self]
  case above => exact hclamp hn c (min_eq_right hle).symm
  case quiet =>
    rw [rangeDP_of_not_isSNaN _ _ _ (not_isSNaN_of_isQNaN hq) hcs, compareResult_of_isQNaN_left _ _ _ hcq hq,
      dazOperand_false]
    exact selectSign_00 s1 c
  case signaling => simp [rangeDP_of_isSNaN_left _ _ _ c hs]

/-! ## What the forms complete with (R90 to R96) -/

/-- A register form that raises nothing completes, whichever row it is: operand 3 is the register's value (R92 to R95). -/
theorem completesWith_of_reg {i : Instr} {s : State} {b : VReg} (hop : (formOf i).op3 = .reg b)
    (hmay : mayExecute s (formOf i).vl (formOf i).wm (formOf i).imm)
    (hun : (formOf i).sae = false → ¬ unmaskedDetected s (formOf i).vl (formOf i).wm
      (rangeOf s (formOf i).src1 (formOf i).imm (elem (readZmm s b)))) :
    completesWith i s (formOf i).vl (formOf i).sae (formOf i).dest (formOf i).wm
      (rangeOf s (formOf i).src1 (formOf i).imm (elem (readZmm s b))) :=
  completesWith_of_readSrc2 (v := readZmm s b) hmay (by simp only [readSrc2, hop]) (fun j _ _ => by simp only [src2Elem, hop])
    hun

/-- A full-width memory form without fault suppression, whichever row it is (R33). -/
theorem completesWith_of_full_readable {i : Instr} {s : State} {r : MemRef}
    (hfs : s.params.faultSuppression = false) (hop : (formOf i).op3 = .full r)
    (hmay : mayExecute s (formOf i).vl (formOf i).wm (formOf i).imm)
    (hread : operandReadable s (formOf i).pre r (linearAddress s (formOf i).pre i.length r) (vlBytes (formOf i).vl))
    (hun : ¬ unmaskedDetected s (formOf i).vl (formOf i).wm (rangeOf s (formOf i).src1 (formOf i).imm fun j =>
      wordAt s.mem (linearAddress s (formOf i).pre i.length r + BitVec.ofNat 64 (8 * j)))) :
    completesWith i s (formOf i).vl (formOf i).sae (formOf i).dest (formOf i).wm
      (rangeOf s (formOf i).src1 (formOf i).imm fun j =>
        wordAt s.mem (linearAddress s (formOf i).pre i.length r + BitVec.ofNat 64 (8 * j))) := by
  rw [← formOf_len] at hread hun ⊢
  obtain ⟨v, hv, helem⟩ := fullWidthReadIsLittleEndian s (formOf i) r _ hfs rfl hread
  refine completesWith_of_readSrc2 (v := v) hmay (by simp only [readSrc2, hop, hv]) (fun j hj _ => ?_) fun _ => hun
  simp only [src2Elem, hop]
  exact helem j hj

/-- Settles O35: three rows of one shape. -/
theorem registerFormsComplete : Obligations.RegisterFormsComplete := by
  rintro p d a b m imm s _ rfl
  refine ⟨?_, ?_, ?_⟩
  all_goals exact fun hmay hun => completesWith_of_reg rfl hmay fun _ => hun

/-- Settles O37: nine rows of one shape. -/
theorem fullMemoryFormsComplete : Obligations.FullMemoryFormsComplete := by
  intro p d a m imm s hfs
  refine ⟨fun ad => ⟨?_, ?_, ?_⟩, fun ad => ⟨?_, ?_, ?_⟩, fun ad => ⟨?_, ?_, ?_⟩⟩
  all_goals exact fun hmay hread hun => completesWith_of_full_readable hfs rfl hmay hread hun

/-- A completed `{sae}` form leaves MXCSR alone (R95). -/
theorem mxcsr_of_exec_sae {i : Instr} {s t : State} (hsae : (formOf i).sae = true) (h : exec i s = .next t) :
    t.mxcsr = s.mxcsr := by
  rw [exec_eq_vrangepd] at h
  obtain ⟨v, _, rfl⟩ := next_of_vrangepd h
  simp [finish, hsae]

/-- Settles O36: the register form that raises nothing whatever is detected. -/
theorem saeFormCompletes : Obligations.SaeFormCompletes := by
  intro p d a b m imm s hmay
  obtain ⟨t, ht, hres⟩ := completesWith_of_reg (i := .zmmSae p d a b m imm) rfl hmay fun h => nomatch h
  exact ⟨t, ht, mxcsr_of_exec_sae rfl ht, hres⟩

/-- What a completed form leaves of vector registers and `pc`: the element loop's value and the next address (R97 step 7). -/
theorem zmm_pc_of_exec {i : Instr} {s t : State} (h : exec i s = .next t) :
    ∃ v, readSrc2 s (formOf i) = .ok v ∧ t.zmm = s.zmm.set (formOf i).dest (elementLoop s (formOf i) v).new ∧
      t.pc = s.pc + BitVec.ofNat 64 i.length := by
  rw [exec_eq_vrangepd] at h
  obtain ⟨v, hv, rfl⟩ := next_of_vrangepd h
  refine ⟨v, hv, ?_⟩
  cases hsae : (formOf i).sae <;> simp [finish, formOf_len]

/-- Settles O40: the two forms differ in `sae` only, which neither operand 3 nor the element loop reads. -/
theorem saeWritesThePlainResult : Obligations.SaeWritesThePlainResult := by
  intro p d a b m imm s t u ht hu
  obtain ⟨_, hv, htz, htp⟩ := zmm_pc_of_exec ht
  obtain ⟨_, hw, huz, hup⟩ := zmm_pc_of_exec hu
  cases hv
  cases hw
  exact ⟨huz.trans htz.symm, hup.trans htp.symm, mxcsr_of_exec_sae rfl hu⟩

/-! ## Faults (R91, R99, R112) -/

/-- Raising the fault of an unmasked condition (R112). -/
theorem raise_fpExn (e : Env) (t : State) :
    raise (fpExn e) t = .fault (if e.cr4Osxmmexcpt then .simdFloatingPoint t else .invalidOpcode t) := by
  cases he : e.cr4Osxmmexcpt <;> simp [fpExn, he, raise]

/-- Settles O46: the flags of R91 are written before the fault is raised, and nothing else is. -/
theorem unmaskedConditionFaults : Obligations.UnmaskedConditionFaults := by
  rintro i s v _ hmay hsae hread rfl hun
  have hcond := (unmaskedCondition_iff s (formOf i) v).mpr hun
  refine ⟨writeMxcsr s (setFlags s.mxcsr (elementLoop s (formOf i) v).ie (elementLoop s (formOf i) v).de), ?fault, rfl, rfl,
    ?state⟩
  case fault =>
    rw [exec_eq_vrangepd, vrangepd_of_mayExecute hmay, hread]
    simp only [complete, hsae, hcond, Bool.false_eq_true, if_false, if_true, raise_fpExn]
  case state => exact ⟨flagsOred_setFlags s _ (formOf i) v rfl, rfl, rfl, sameElsewhere_writeMxcsr _ _⟩

/-- Settles O52: `pc` is written by a completion only. -/
theorem completionAdvancesPc : Obligations.CompletionAdvancesPc := by
  intro i s
  refine ⟨fun t ht => ?next, fun f hf => ?fault⟩
  case next =>
    obtain ⟨_, _, _, hpc⟩ := zmm_pc_of_exec ht
    exact hpc
  case fault =>
    rw [exec_eq_vrangepd] at hf
    rcases fault_of_vrangepd hf with hs | ⟨_, _, _, _, _, hs⟩ <;> rw [hs]
    rw [writeMxcsr_pc]

/-- Settles O47: the permitted fetch finds the decoded instruction. -/
theorem stepRunsTheDecodedInstruction : Obligations.StepRunsTheDecodedInstruction := by
  intro s i rest hmode hrun hdec _ hacc
  have hf : fetch s = .ok (.instr i) := by simp [fetch, Config.maxInstrBytes, hdec, fetched_of_permitted hacc]
  simp [step, hmode, hrun, hf]

end Sys2Proof.Machine

/-! The statements on exceptions (60_exceptions.md): how `Access` names its faults, and the three faults that come before
the element loop of an instruction: `#UD`, `#NM` and `#AC(0)`. -/

namespace Sys2Proof.Machine

/-! ## The faults of `Access` (R115, R116) -/

/-- One non-canonical rule about a query decides it, wherever it stands in the table (R115, R118). -/
theorem nonCanonicalAnswer_of_mem {rs : List AccessRule} {q : AccessQuery} {r : AccessRule} {a : Word} (hr : r ∈ rs)
    (hd : r.denial = .nonCanonical) (hq : r.hit q = some a) :
    nonCanonicalAnswer rs q = some (nonCanonicalExn q) := by
  induction rs with
  | nil => cases hr
  | cons r' rest ih =>
    unfold nonCanonicalAnswer
    split
    · rfl
    · rename_i hne
      rcases List.mem_cons.mp hr with rfl | hr'
      · exact absurd hq (hne a hd)
      · exact ih hr'

/-- Settles O32: the non-canonical rules are asked before the page rules and the domain of memory. -/
theorem nonCanonicalComesBeforePageFaults : Obligations.NonCanonicalComesBeforePageFaults := by
  intro s q r a hr hd hq
  have hanswer := nonCanonicalAnswer_of_mem hr hd hq
  rcases accessAnswer_cases s q with ⟨hn, _⟩ | ⟨_, h⟩ | ⟨hn, _⟩
  · rw [hanswer] at hn
    cases hn
  · exact h
  · rw [hanswer] at hn
    cases hn

/-- Bits W/R, U/S and I/D of a page-fault error code (R116). -/
theorem pfCode_getLsbD (present rsvd instr pk : Bool) (q : AccessQuery) :
    (pfCode present rsvd instr pk q).getLsbD 1 = false ∧
    (pfCode present rsvd instr pk q).getLsbD 2 = (q.cpl == 3#2) ∧
    (pfCode present rsvd instr pk q).getLsbD 4 = (instr && q.kind == .fetch) := by
  simp only [pfCode, BitVec.getLsbD_append]
  simp

/-- Settles O33: whoever raises the page fault, a rule of the table or the domain of memory, builds its code alike. -/
theorem pageFaultErrorCode : Obligations.PageFaultErrorCode := by
  intro s q code a h
  rcases accessAnswer_cases s q with ⟨_, e⟩ | ⟨_, e⟩ | ⟨_, p, r, i, k, b, e⟩ <;> rw [h] at e
  case inl => cases e
  case inr.inl =>
    unfold nonCanonicalExn at e
    split at e <;> cases e
  case inr.inr =>
    cases e
    obtain ⟨hwr, hus, hid⟩ := pfCode_getLsbD p r i k q
    refine ⟨hwr, ?us, ?id⟩
    case us => rw [hus, beq_iff_eq]
    case id =>
      rw [hid, Bool.and_eq_true, beq_iff_eq]
      exact And.right

/-! ## The enabling conditions (R20, R113) -/

/-- The XCR0 bits that are needed: SSE, AVX, opmask, ZMM_Hi256 and Hi16_ZMM (R20). -/
theorem xcr0Needed_getLsbD : ∀ n ∈ [1, 2, 5, 6, 7], xcr0Needed.getLsbD n = true := by decide

/-- The mask test of XCR0, bit by bit (R20: "unless all five are 1"). -/
theorem bits_of_xcr0Ok {e : Env} (h : xcr0Ok e = true) : ∀ n ∈ [1, 2, 5, 6, 7], e.xcr0.getLsbD n = true := by
  intro n hn
  have hbit := congrArg (BitVec.getLsbD · n) (beq_iff_eq.mp h)
  simpa [xcr0Needed_getLsbD n hn] using hbit

/-- What an enabled form has found: each condition of R113 rows 1 to 3 on its own. -/
structure EnablingConditions (e : Env) (vl : VLen) : Prop where
  osxsave : e.cr4Osxsave = true
  sse : e.xcr0.getLsbD 1 = true
  avx : e.xcr0.getLsbD 2 = true
  opmask : e.xcr0.getLsbD 5 = true
  zmmHi256 : e.xcr0.getLsbD 6 = true
  hi16Zmm : e.xcr0.getLsbD 7 = true
  avx512f : e.cpuidAvx512f = true
  avx512dq : e.cpuidAvx512dq = true
  avx512vl : vl = .v512 ∨ e.cpuidAvx512vl = true

/-- `enabled` checks them all. -/
theorem enablingConditions_of_enabled {e : Env} {vl : VLen} (h : enabled e vl = true) : EnablingConditions e vl := by
  simp only [enabled, cpuidOk, Bool.and_eq_true, Bool.or_eq_true, beq_iff_eq] at h
  obtain ⟨⟨hos, hx⟩, ⟨hf, hdq⟩, hvl⟩ := h
  have hbit := bits_of_xcr0Ok hx
  exact ⟨hos, hbit 1 (by decide), hbit 2 (by decide), hbit 5 (by decide), hbit 6 (by decide), hbit 7 (by decide), hf, hdq,
    hvl⟩

/-! ## Faults before the element loop (R97, R118) -/

/-- The `#UD` checks come first after the refusal of the imm8 (R97, R113). -/
theorem exec_of_not_enabled {i : Instr} {s : State} (himm : imm8Refused s (formOf i).imm = false)
    (h : ¬ ((formOf i).wm.wellFormed = true ∧ enabled s.env (formOf i).vl = true)) :
    exec i s = .fault (.invalidOpcode s) := by
  rw [← Bool.and_eq_true, Bool.not_eq_true] at h
  simp [exec_eq_vrangepd, vrangepd, himm, h, raise]

/-- Settles O42: each failing condition contradicts what `enabled`, or a well-formed writemask, says. -/
theorem failedEnablingRaisesUD : Obligations.FailedEnablingRaisesUD := by
  intro i s himm hfail
  refine ⟨exec_of_not_enabled himm fun ⟨hwm, hen⟩ => ?_, rfl⟩
  obtain ⟨hos, h1, h2, h5, h6, h7, hf, hdq, hvl⟩ := enablingConditions_of_enabled hen
  have hlength : ¬ (s.env.cpuidAvx512vl = false ∧ (formOf i).vl ≠ .v512) := by
    rintro ⟨hno, hne⟩
    rcases hvl with hvl | hvl
    · exact hne hvl
    · rw [hvl] at hno
      cases hno
  have hmask : ¬ ((formOf i).wm.z = true ∧ (formOf i).wm.aaa = 0) := by
    rintro ⟨hz, haaa⟩
    simp [Writemask.wellFormed, hz, haaa] at hwm
  simp [hos, h1, h2, h5, h6, h7, hf, hdq, hlength, hmask, -BitVec.getLsbD_eq_getElem] at hfail

/-- Settles O43: CR0.TS is asked right after the `#UD` checks, and operand 3 only after it. -/
theorem taskSwitchedRaisesNM : Obligations.TaskSwitchedRaisesNM := by
  intro i s himm hwm hen hts
  refine ⟨?_, rfl⟩
  simp [exec_eq_vrangepd, vrangepd, himm, hwm, hen, hts, raise]

/-! ## Alignment checking (R34, R117) -/

/-- A readable broadcast element raises nothing of its own, also when fault suppression leaves it unread (R35). -/
theorem readBcstElem_of_readable {s : State} {f : Form} {r : MemRef}
    (h : operandReadable s f.pre r (linearAddress s f.pre f.len r) 8) : ∃ v, readBcstElem s f r = .ok v := by
  unfold readBcstElem
  split
  · exact ⟨_, rfl⟩
  · rw [memRead_of_ok h]
    exact ⟨_, rfl⟩

/-- With alignment checking on, a misaligned broadcast element that is readable is `#AC(0)` (R34, R117, R118). -/
theorem readBcst_of_misaligned {s : State} {f : Form} {r : MemRef} (hac : alignmentCheckingOn s = true)
    (hmis : (linearAddress s f.pre f.len r).toNat % 8 ≠ 0)
    (h : operandReadable s f.pre r (linearAddress s f.pre f.len r) 8) : readBcst s f r = .error .ac0 := by
  obtain ⟨v, hv⟩ := readBcstElem_of_readable h
  simp [readBcst, hv, hac, hmis]

/-- Settles O45: the element is read, the check on its address comes after, and its fault leaves the state. -/
theorem misalignedBroadcastRaisesAC : Obligations.MisalignedBroadcastRaisesAC := by
  intro i s r hmay hop ham hcpl hflag hmis hread
  rw [← formOf_len] at hmis hread
  have hac : alignmentCheckingOn s = true := by simp [alignmentCheckingOn, alignCheck, ham, hcpl, hflag]
  have hsrc : readSrc2 s (formOf i) = .error .ac0 := by simp only [readSrc2, hop, readBcst_of_misaligned hac hmis hread]
  exact ⟨exec_of_readSrc2_error hmay hsrc, rfl⟩

end Sys2Proof.Machine

/-! The simplest instance of `Access` (92_eei_decisions.md D6): when the domain of memory lets a read through, and which byte
it reports when not. -/

namespace Sys2Proof.Machine

/-- The search for a missing byte runs over the offsets of the query, lowest first. -/
theorem firstMissing_eq_find?_range (mem : Memory) (q : AccessQuery) :
    firstMissing mem q = ((List.range q.n).find? fun m => (Memory.read mem (q.a + BitVec.ofNat 64 m).toNat).isNone).map
      fun m => q.a + BitVec.ofNat 64 m := List.find?_map ..

/-- No byte is missing exactly when every byte is in the domain of memory. -/
theorem firstMissing_eq_none_iff (mem : Memory) (q : AccessQuery) :
    firstMissing mem q = none ↔
      ∀ m, m < q.n → (Memory.read mem (q.a + BitVec.ofNat 64 m).toNat).isSome = true := by
  simp [firstMissing_eq_find?_range, Option.isSome_iff_ne_none]

/-- A missing byte with every lower one present is the one found. -/
theorem firstMissing_of_lowest {mem : Memory} {q : AccessQuery} {m : Nat} (hm : m < q.n)
    (hmissing : Memory.read mem (q.a + BitVec.ofNat 64 m).toNat = none)
    (hlower : ∀ l, l < m → (Memory.read mem (q.a + BitVec.ofNat 64 l).toNat).isSome = true) :
    firstMissing mem q = some (q.a + BitVec.ofNat 64 m) := by
  have hfind : ((List.range q.n).find? fun k => (Memory.read mem (q.a + BitVec.ofNat 64 k).toNat).isNone) = some m :=
    List.find?_range_eq_some.mpr ⟨Option.isNone_iff_eq_none.mpr hmissing, List.mem_range.mpr hm,
      fun l hl => (Option.not_isNone _).trans (hlower l hl)⟩
  rw [firstMissing_eq_find?_range, hfind, Option.map_some]

/-- The domain of memory answers `ok` exactly when it misses no byte. -/
theorem domainAnswer_eq_none_iff (mem : Memory) (q : AccessQuery) :
    domainAnswer mem q = none ↔ firstMissing mem q = none := by
  unfold domainAnswer
  cases firstMissing mem q <;> simp

/-- A missing byte is a page fault at that byte (log 9). -/
theorem domainAnswer_of_firstMissing {mem : Memory} {q : AccessQuery} {a : Word} (h : firstMissing mem q = some a) :
    domainAnswer mem q = some (.pf (pfCode false false true false q) a) := by
  simp [domainAnswer, h]

/-- Bit 0 of a page-fault error code is P (R116). -/
theorem pfCode_getLsbD_zero (present rsvd instr pk : Bool) (q : AccessQuery) :
    (pfCode present rsvd instr pk q).getLsbD 0 = present := by
  simp only [pfCode, BitVec.getLsbD_append]
  simp

/-- Settles O31: without rules `Access` is a search of the domain of memory, and its page fault names the byte found. -/
theorem simplestAccessIsTheMemoryDomain : Obligations.SimplestAccessIsTheMemoryDomain := by
  intro s q hrules
  rw [accessAnswer_of_no_rules q hrules]
  refine ⟨?ok, fun m hm hmissing hlower => ?fault⟩
  case ok => rw [domainAnswer_eq_none_iff, firstMissing_eq_none_iff]
  case fault =>
    have hfirst := firstMissing_of_lowest hm hmissing hlower
    exact ⟨_, domainAnswer_of_firstMissing hfirst, pfCode_getLsbD_zero ..⟩

end Sys2Proof.Machine
